-- ==== Sys2Proof/Word.lean ====
section
/-! DEFINITION. The words HUFFCORE is made of: the bus word, bytes, symbols, node indices and counters
(spec/00_scope.md R8), and the bit-string value of a path (spec/10_state.md R43). -/

namespace Sys2Proof

/-- A bus word, `DATA_WIDTH` = 32 bits (R8). -/
abbrev Word := BitVec 32

/-- A byte value, a real symbol (R7). -/
abbrev Byte := BitVec 8

/-- A symbol, `SYMBOL_WIDTH` = 9 bits (R8). -/
abbrev Symbol := BitVec 9

/-- A node index, `NODE_INDEX_WIDTH` = 10 bits (R8). -/
abbrev NodeIndex := BitVec 10

/-- A byte address on the host bus, `ADDR_WIDTH` = 16 bits (R8). -/
abbrev Addr := BitVec 16

/-- The number whose bit `j` is element `j` of the bit string (R43: path bit `j` stands at bit `j`). -/
def bitsToNat : List Bool → Nat
  | [] => 0
  | b :: rest => b.toNat + 2 * bitsToNat rest

end Sys2Proof
end

