-- ==== Sys2Proof/Config.lean ====
section
/-! DEFINITION. What the spec fixes for every HUFFCORE (spec/00_scope.md R7, R8; 10_state.md R21; 20_memory.md R71).
The one open parameter, COUNT_WIDTH, is the value of the PARAMS register and stands in State (assumption log 1);
the spec leaves no value free (93_implementation_defined.md), so there is no opaque constant here. -/

namespace Sys2Proof.Config

/-- `NSYMBOLS`: 256 real bytes and PSEUDO_EOF (R8). -/
abbrev numSymbols : Nat := 257

/-- `PSEUDO_EOF` (R8). -/
abbrev pseudoEof : Symbol := 0x100#9

/-- `INTERNAL`, the symbol of an internal node (R8). -/
abbrev internalSym : Symbol := 0x101#9

/-- `NIL`, the "no node" index (R8). -/
abbrev nil : NodeIndex := 0x3FF#10

/-- `MAX_NODES`: a tree over 257 leaves has 513 nodes (R8). -/
abbrev maxNodes : Nat := 513

/-- `MAX_CODE_LEN` in bits (R8). -/
abbrev maxCodeLen : Nat := 256

/-- The reference value of COUNT_WIDTH (R8). -/
abbrev referenceCountWidth : BitVec 6 := 32#6

/-- `CMAX` for a COUNT_WIDTH of `w` (R8). -/
def cmax (w : Nat) : Nat := 2 ^ w - 1

/-- The constant of the ID register, "HUFF" (R21). -/
abbrev idValue : Word := 0x48554646#32

/-- Offset of CTRL (R71). -/
abbrev ctrlOffset : Addr := 0x0004#16

/-- Offset of CMD (R71). -/
abbrev cmdOffset : Addr := 0x000C#16

/-- Offset of ARG (R71). -/
abbrev argOffset : Addr := 0x0010#16

end Sys2Proof.Config
end

