-- ==== Sys2Proof/Syntax.lean ====
section
/-! DEFINITION. The syntax: the eleven commands (`Instr`, one constructor per row of spec/opcode_table.json), their
formats (spec/30_encoding.md R101), the host's bus accesses (20_memory.md R72 to R74), and the assembler's command
lines and host program lines (30_encoding.md R107 to R109). -/

namespace Sys2Proof

/-- The commands (R103). Each operand has exactly the width its field has (R101, R102). -/
inductive Instr where
  | nop
  | clear
  | count (b : Byte)
  | loadFreq (s : Symbol)
  | sealTable
  | buildTree
  | buildCodes
  | encodeByte (b : Byte)
  | encodeEnd
  | decodeBit (t : Bool)
  | decodeEnd
  deriving DecidableEq, Repr

/-- The four formats (R101): no operand, byte, symbol, bit. -/
inductive Format where
  | N | B | S | T
  deriving DecidableEq, Repr

/-- OPERAND_MASK (R101). -/
def Format.operandMask : Format → Word
  | .N => 0x000000#32
  | .B => 0x0000FF#32
  | .S => 0x0001FF#32
  | .T => 0x000001#32

/-- The width of the operand field in bits (R101). -/
def Format.operandBits : Format → Nat
  | .N => 0
  | .B => 8
  | .S => 9
  | .T => 1

/-- The format of a command (R103). -/
def Instr.format : Instr → Format
  | .nop => .N
  | .clear => .N
  | .count _ => .B
  | .loadFreq _ => .S
  | .sealTable => .N
  | .buildTree => .N
  | .buildCodes => .N
  | .encodeByte _ => .B
  | .encodeEnd => .N
  | .decodeBit _ => .T
  | .decodeEnd => .N

/-- The operand as an unsigned number (R102); 0 for a command that has none. -/
def Instr.operandValue : Instr → Nat
  | .nop => 0
  | .clear => 0
  | .count b => b.toNat
  | .loadFreq s => s.toNat
  | .sealTable => 0
  | .buildTree => 0
  | .buildCodes => 0
  | .encodeByte b => b.toNat
  | .encodeEnd => 0
  | .decodeBit t => t.toNat
  | .decodeEnd => 0

/-- One host bus access (R72, R73): a read, or a write of `value`, of `size` bytes at byte address `addr`. -/
inductive BusAccess where
  | read (addr : Addr) (size : Nat)
  | write (addr : Addr) (size : Nat) (value : Word)
  deriving DecidableEq, Repr

/-- The mnemonics of the opcode map (R103). -/
inductive Mnemonic where
  | NOP | CLEAR | COUNT | LOAD_FREQ | SEAL | BUILD_TREE | BUILD_CODES | ENCODE | ENCODE_END | DECODE_BIT | DECODE_END
  deriving DecidableEq, Repr

/-- A command line of the assembler: a mnemonic and the operand's value, if one is written (R107). -/
structure AsmCommand where
  mnemonic : Mnemonic
  operand : Option Nat
  deriving DecidableEq, Repr

/-- A register name of R71, or a window element (R108). -/
inductive RegName where
  | id | ctrl | status | cmd | arg | errcmd | errdetail | total | nsym | nnodes | root | cur
  | bitcountLo | bitcountHi | symcount | params
  | freq (s : Nat)
  | codeLen (s : Nat)
  | codeBits (s w : Nat)
  | nodeA (i : Nat)
  | nodeB (i : Nat)
  deriving DecidableEq, Repr

/-- A line of a host program (R108), the pseudo-instructions of R109 among them. -/
inductive HostLine where
  | wr (reg : RegName) (value : Nat)
  | rd (reg : RegName)
  | expect (reg : RegName) (value : Nat)
  | command (c : AsmCommand)
  | loadF (s c : Nat)
  | counts (str : List Byte)
  | encodes (str : List Byte)
  | decodes (bits : List Bool)
  | setMat (m : Nat)
  | compress (str : List Byte)
  | decompress (header : List (Nat × Nat)) (bits : List Bool)
  deriving DecidableEq, Repr

end Sys2Proof
end

