-- ==== Sys2Proof/WellFormed.lean ====
section
/-! DEFINITION. When a term of the syntax is well formed: an instruction's operand fits its field (spec/30_encoding.md R101),
and an assembler's line has its operands in range ("An assembler rejects an operand out of these ranges; it never
truncates one", R107). -/

namespace Sys2Proof

/-- The operand fits the field its format gives it (R101). `Instr`'s operand types have exactly those widths, so this
holds of every instruction; the ranges that can fail are those of the assembler's lines below. -/
def Instr.wellFormed (i : Instr) : Bool := decide (i.operandValue < 2 ^ i.format.operandBits)

/-- A command line has an operand exactly where R107 gives the mnemonic one, and in R107's range. -/
def AsmCommand.wellFormed (c : AsmCommand) : Bool :=
  match c.mnemonic, c.operand with
  | .COUNT, some b => decide (b ≤ 255)
  | .ENCODE, some b => decide (b ≤ 255)
  | .LOAD_FREQ, some s => decide (s ≤ 511)
  | .DECODE_BIT, some t => decide (t ≤ 1)
  | .NOP, none => true
  | .CLEAR, none => true
  | .SEAL, none => true
  | .BUILD_TREE, none => true
  | .BUILD_CODES, none => true
  | .ENCODE_END, none => true
  | .DECODE_END, none => true
  | _, _ => false

/-- A window element lies in its window (R71): 1024 words of FREQ and CODE_LEN, 512 symbols of eight words in CODE_BITS,
1024 nodes. -/
def RegName.wellFormed : RegName → Bool
  | .freq s => decide (s ≤ 1023)
  | .codeLen s => decide (s ≤ 1023)
  | .codeBits s w => decide (s ≤ 511) && decide (w ≤ 7)
  | .nodeA i => decide (i ≤ 1023)
  | .nodeB i => decide (i ≤ 1023)
  | _ => true

/-- A value written to a register fits a bus word (R73). -/
def wordValue (v : Nat) : Bool := decide (v < 2 ^ 32)

/-- A host program line has its registers, values and operands in range (R107 to R109). -/
def HostLine.wellFormed : HostLine → Bool
  | .wr r v => r.wellFormed && wordValue v
  | .rd r => r.wellFormed
  | .expect r v => r.wellFormed && wordValue v
  | .command c => c.wellFormed
  | .loadF s c => decide (s ≤ 511) && wordValue c
  | .counts _ => true
  | .encodes _ => true
  | .decodes _ => true
  | .setMat m => wordValue m
  | .compress _ => true
  | .decompress header _ => header.all fun p => decide (p.1 ≤ 511) && wordValue p.2

end Sys2Proof
end

