-- ==== Sys2Proof/Decode.lean ====
section
/-! DEFINITION. The decoder, total on every 32-bit command word (spec/30_encoding.md R100), rejecting by name; after it the
encoder, written from the same opcode map (R103), and the map itself as match and mask rows. -/

namespace Sys2Proof

/-- Why a word is no command (R104). -/
inductive Illegal where
  | reservedOpcode
  | reservedBit
  deriving DecidableEq, Repr

/-- The reason code of an illegal word (R100, R104). -/
def Illegal.reason : Illegal → BitVec 16
  | .reservedOpcode => 1#16
  | .reservedBit => 2#16

/-- OPC, `cmd[31:24]` (R100). -/
def opcodeOf (cmd : Word) : BitVec 8 := cmd.extractLsb' 24 8

/-- `cmd[23:0]` in its place (R100). -/
def operandField (cmd : Word) : Word := cmd &&& 0x00FFFFFF#32

/-- BYTE, `cmd[7:0]` (R102). -/
def byteOperand (cmd : Word) : Byte := cmd.extractLsb' 0 8

/-- SYM, `cmd[8:0]` (R102). -/
def symOperand (cmd : Word) : Symbol := cmd.extractLsb' 0 9

/-- BIT, `cmd[0]` (R102). -/
def bitOperand (cmd : Word) : Bool := cmd.getLsbD 0

/-- The reserved-bit check of R100: the command `i`, unless a bit outside the format's OPERAND_MASK is set. -/
def checkReserved (fmt : Format) (cmd : Word) (i : Instr) : Except Illegal Instr :=
  if operandField cmd &&& ~~~fmt.operandMask = 0#32 then .ok i else .error .reservedBit

/-- The decoder (R100, R103). -/
def decode (cmd : Word) : Except Illegal Instr :=
  match (opcodeOf cmd).toNat with
  | 0x00 => checkReserved .N cmd .nop
  | 0x01 => checkReserved .N cmd .clear
  | 0x02 => checkReserved .B cmd (.count (byteOperand cmd))
  | 0x03 => checkReserved .S cmd (.loadFreq (symOperand cmd))
  | 0x04 => checkReserved .N cmd .sealTable
  | 0x05 => checkReserved .N cmd .buildTree
  | 0x06 => checkReserved .N cmd .buildCodes
  | 0x07 => checkReserved .B cmd (.encodeByte (byteOperand cmd))
  | 0x08 => checkReserved .N cmd .encodeEnd
  | 0x09 => checkReserved .T cmd (.decodeBit (bitOperand cmd))
  | 0x0A => checkReserved .N cmd .decodeEnd
  | _ => .error .reservedOpcode

/-- The encoder: the row's match word with the operand in its field (R101, R103, R107). -/
def encode : Instr → Word
  | .nop => 0x00000000#32
  | .clear => 0x01000000#32
  | .count b => 0x02000000#32 ||| b.setWidth 32
  | .loadFreq s => 0x03000000#32 ||| s.setWidth 32
  | .sealTable => 0x04000000#32
  | .buildTree => 0x05000000#32
  | .buildCodes => 0x06000000#32
  | .encodeByte b => 0x07000000#32 ||| b.setWidth 32
  | .encodeEnd => 0x08000000#32
  | .decodeBit t => 0x09000000#32 ||| (BitVec.ofBool t).setWidth 32
  | .decodeEnd => 0x0A000000#32

/-- A row of the opcode map (R103). -/
structure OpcodeRow where
  mnemonic : Mnemonic
  format : Format
  matchWord : Word
  mask : Word
  deriving DecidableEq, Repr

/-- A word matches a row iff `(word & mask) = match` (R103). -/
def OpcodeRow.matches (r : OpcodeRow) (cmd : Word) : Bool := cmd &&& r.mask == r.matchWord

/-- The opcode map (R103). -/
def opcodeMap : List OpcodeRow :=
  [⟨.NOP, .N, 0x00000000#32, 0xFFFFFFFF#32⟩,
   ⟨.CLEAR, .N, 0x01000000#32, 0xFFFFFFFF#32⟩,
   ⟨.COUNT, .B, 0x02000000#32, 0xFFFFFF00#32⟩,
   ⟨.LOAD_FREQ, .S, 0x03000000#32, 0xFFFFFE00#32⟩,
   ⟨.SEAL, .N, 0x04000000#32, 0xFFFFFFFF#32⟩,
   ⟨.BUILD_TREE, .N, 0x05000000#32, 0xFFFFFFFF#32⟩,
   ⟨.BUILD_CODES, .N, 0x06000000#32, 0xFFFFFFFF#32⟩,
   ⟨.ENCODE, .B, 0x07000000#32, 0xFFFFFF00#32⟩,
   ⟨.ENCODE_END, .N, 0x08000000#32, 0xFFFFFFFF#32⟩,
   ⟨.DECODE_BIT, .T, 0x09000000#32, 0xFFFFFFFE#32⟩,
   ⟨.DECODE_END, .N, 0x0A000000#32, 0xFFFFFFFF#32⟩]

/-- The mnemonic of a command (R103). -/
def Instr.mnemonic : Instr → Mnemonic
  | .nop => .NOP
  | .clear => .CLEAR
  | .count _ => .COUNT
  | .loadFreq _ => .LOAD_FREQ
  | .sealTable => .SEAL
  | .buildTree => .BUILD_TREE
  | .buildCodes => .BUILD_CODES
  | .encodeByte _ => .ENCODE
  | .encodeEnd => .ENCODE_END
  | .decodeBit _ => .DECODE_BIT
  | .decodeEnd => .DECODE_END

/-- What the decoder reads from a table word of `nbits` bits: a command is one 32-bit word with no byte order of its own
(20_memory.md R79), so the word is given to `decode` as it stands; a word that needs more than 32 bits is none. -/
def decodeTableWord (nbits w : Nat) : Option Instr :=
  let v := w % 2 ^ nbits
  if v < 2 ^ 32 then (decode (BitVec.ofNat 32 v)).toOption else none

end Sys2Proof
end

