-- ==== Sys2Proof/Machine/State.lean ====
section
/-! DEFINITION. The state of HUFFCORE as plain data (spec/10_state.md R20 to R50), the model's own fields for the host's side
of the bus, the reset state (R50, 70_reset_and_hazards.md R270), and the reasons a step could stop. -/

namespace Sys2Proof.Machine

/-- PHASE, the sequencing state of a session (R24). The values 8 to 14 are never held. -/
inductive Phase where
  | fill | table | tree | codes | encoding | encDone | decoding | decDone | error
  deriving DecidableEq, Repr

/-- STATUS.ERR, the error codes (60_exceptions.md R241). The codes 7 to 15 are never used. -/
inductive ErrCode where
  | none | corruptedStream | inconsistentTable | illegalCommand | sequence | badTable | countOverflow
  deriving DecidableEq, Repr

/-- DSTATE, the decoder state (R25). -/
inductive DState where
  | root | descending | done | idle
  deriving DecidableEq, Repr

/-- A node's kind (R41): 0 a leaf, 1 an internal node. -/
inductive NodeKind where
  | leaf | internal
  deriving DecidableEq, Repr

/-- An entry of the node arena (R41). `count` holds a value of COUNT_WIDTH bits. -/
structure Node where
  kind : NodeKind
  sym : Symbol
  count : BitVec 32
  zero : NodeIndex
  one : NodeIndex
  deriving DecidableEq, Repr

/-- What the bus answered to the last access (20_memory.md R72, R74): the model's own field, see assumption log 4. -/
inductive BusResponse where
  | noneYet
  | readData (v : Word)
  | writeDone
  | readError (v : Word)
  | writeError
  deriving DecidableEq, Repr

/-- The state. Each field is a piece of INVENTORY.md's list; the last three are the host's side of the bus. -/
structure State where
  /-- PARAMS bits 5:0, COUNT_WIDTH (R37). -/
  countWidth : BitVec 6
  /-- CTRL bit 0 (R22). -/
  materialize : Bool
  /-- ARG (R28). -/
  arg : Word
  /-- STATUS.PHASE (R24). -/
  phase : Phase
  /-- STATUS.ERR (R26). -/
  err : ErrCode
  /-- ERRCMD (R29). -/
  errCmd : Word
  /-- ERRDETAIL bits 15:0 (R30). -/
  errDetail : BitVec 16
  /-- TOTAL (R32). -/
  total : Word
  /-- NSYM (R33). -/
  nsym : Word
  /-- ROOT bits 9:0 (R35). -/
  root : NodeIndex
  /-- CUR bits 9:0 (R36). -/
  cur : NodeIndex
  /-- BITCOUNT (R31). -/
  bitCount : BitVec 64
  /-- SYMCOUNT (R31). -/
  symCount : Word
  /-- FREQ[0..256] (R40); each entry a value of COUNT_WIDTH bits. -/
  freq : Vector (BitVec 32) 257
  /-- The allocated entries 0..NNODES-1 of NODE (R41); their number is NNODES (R34). -/
  nodes : List Node
  /-- CODE_LEN[0..256] (R42). -/
  codeLen : Vector (BitVec 9) 257
  /-- CODE_BITS[0..256] (R43). -/
  codeBits : Vector (BitVec 256) 257
  /-- The BIT_OUT trace, oldest first (R44). -/
  bitOut : List Bool
  /-- The BYTE_OUT trace, oldest first (R44). -/
  byteOut : List Byte
  /-- The host's bus accesses still to come, first one next (assumption log 2). -/
  pending : List BusAccess
  /-- The level of the reset input at each coming step, `true` asserted, released after the list's end (assumption log 3). -/
  resetIn : List Bool
  /-- The bus's answer to the last access (assumption log 4). -/
  response : BusResponse
  deriving DecidableEq, Repr

/-- The reset values of R50 in a block whose COUNT_WIDTH is `w`, with nothing pending on the host's side. -/
def State.resetWith (w : BitVec 6) : State where
  countWidth := w
  materialize := true
  arg := 0#32
  phase := .fill
  err := .none
  errCmd := 0#32
  errDetail := 0#16
  total := 0#32
  nsym := 0#32
  root := Config.nil
  cur := Config.nil
  bitCount := 0#64
  symCount := 0#32
  freq := Vector.replicate 257 0#32
  nodes := []
  codeLen := Vector.replicate 257 0#9
  codeBits := Vector.replicate 257 0#256
  bitOut := []
  byteOut := []
  pending := []
  resetIn := []
  response := .noneYet

/-- The machine right after reset (R50, R270), at the reference COUNT_WIDTH of 32 (00_scope.md R8, assumption log 1). -/
def State.reset : State := State.resetWith Config.referenceCountWidth

/-- The reasons a step could stop with a fault. There are none: every error of the spec is a next state (60_exceptions.md
R246), a bus error is a bus response (20_memory.md R74), and no command hangs (70_reset_and_hazards.md R281). Raised by
nobody; safe. -/
inductive Fault where
  deriving DecidableEq, Repr

/-- The reasons a step could be refused. -/
inductive Refusal where
  /-- Raised by `exec` for an instruction that has no meaning yet; safe. No arm of this model's `exec` raises it. -/
  | notModelled (mnemonic : String)
  deriving DecidableEq, Repr

/-- The outcome of a step of this machine. -/
abbrev Result : Type := Host.Outcome State Fault Refusal

end Sys2Proof.Machine
end

