-- ==== Sys2Proof/Machine/Flags.lean ====
section
/-! DEFINITION. The fields of STATUS: the codes of PHASE, DSTATE and ERR and how they are packed
(spec/10_state.md R23 to R26, 60_exceptions.md R241). -/

namespace Sys2Proof.Machine

/-- The value of PHASE (R24). -/
def Phase.code : Phase → BitVec 4
  | .fill => 0#4
  | .table => 1#4
  | .tree => 2#4
  | .codes => 3#4
  | .encoding => 4#4
  | .encDone => 5#4
  | .decoding => 6#4
  | .decDone => 7#4
  | .error => 15#4

/-- The code in STATUS.ERR (60_exceptions.md R241). -/
def ErrCode.code : ErrCode → BitVec 4
  | .none => 0#4
  | .corruptedStream => 1#4
  | .inconsistentTable => 2#4
  | .illegalCommand => 3#4
  | .sequence => 4#4
  | .badTable => 5#4
  | .countOverflow => 6#4

/-- The value of DSTATE (R25). -/
def DState.code : DState → BitVec 2
  | .root => 0#2
  | .descending => 1#2
  | .done => 2#2
  | .idle => 3#2

/-- DSTATE as a function of PHASE, CUR and ROOT (R25). -/
def State.dstate (s : State) : DState :=
  match s.phase with
  | .tree => if s.cur = s.root then .root else .descending
  | .codes => if s.cur = s.root then .root else .descending
  | .decoding => if s.cur = s.root then .root else .descending
  | .decDone => .done
  | .fill => .idle
  | .table => .idle
  | .encoding => .idle
  | .encDone => .idle
  | .error => .idle

/-- The STATUS word: PHASE in bits 3:0, DSTATE in 5:4, ERR in 11:8, every other bit 0 (R23). -/
def State.status (s : State) : Word :=
  s.phase.code.setWidth 32 ||| (s.dstate.code.setWidth 32 <<< 4) ||| (s.err.code.setWidth 32 <<< 8)

end Sys2Proof.Machine
end

