-- ==== Sys2Proof/Machine/Operands.lean ====
section
/-! DEFINITION. The operands as the meanings use them (spec/30_encoding.md R102): nothing is sign-extended, scaled or
shifted. -/

namespace Sys2Proof.Machine

/-- BYTE names the real symbol of the same value (R102). -/
abbrev byteIndex (b : Byte) : Nat := b.toNat

/-- SYM as an index; 257 to 511 are encodable and are no symbols (R102). -/
abbrev symIndex (s : Symbol) : Nat := s.toNat

/-- The index of PSEUDO_EOF in the symbol tables (00_scope.md R8). -/
abbrev eofIndex : Nat := 256

/-- LOAD_FREQ's count: the ARG register at the moment the command executes (R102, 10_state.md R28). -/
abbrev State.countOperand (s : State) : Nat := s.arg.toNat

end Sys2Proof.Machine
end

