-- ==== Sys2Proof/Machine/Ops.lean ====
section
/-! DEFINITION. The named operations over the registers and tables, error entry and its return (spec/60_exceptions.md R246,
R248), the legality table (R244), and the gate every command passes (R245). -/

namespace Sys2Proof.Machine

/-! ### Registers and tables -/

/-- NNODES, the number of allocated nodes (10_state.md R34). -/
def State.nnodes (s : State) : Word := BitVec.ofNat 32 s.nodes.length

/-- COUNT_WIDTH as a number (10_state.md R37). -/
def State.width (s : State) : Nat := s.countWidth.toNat

/-- FREQ[sym] (10_state.md R40); 0 where there is no such slot, as the window reads (20_memory.md R71). -/
def State.freqAt (s : State) (sym : Nat) : BitVec 32 := s.freq[sym]?.getD 0#32

/-- CODE_LEN[sym] (10_state.md R42); 0 where there is no such slot. -/
def State.codeLenAt (s : State) (sym : Nat) : BitVec 9 := s.codeLen[sym]?.getD 0#9

/-- CODE_BITS[sym] (10_state.md R43); 0 where there is no such slot. -/
def State.codeBitsAt (s : State) (sym : Nat) : BitVec 256 := s.codeBits[sym]?.getD 0#256

/-- What an unallocated node entry reads as: all-zero (10_state.md R41, 20_memory.md R85; assumption log 5). -/
def freeNode : Node where
  kind := .leaf
  sym := 0#9
  count := 0#32
  zero := 0#10
  one := 0#10

/-- NODE[i] (10_state.md R41). -/
def nodeAt (nodes : List Node) (i : Nat) : Node := nodes[i]?.getD freeNode

/-- NODE[i] for a node index (10_state.md R41). -/
def State.node (s : State) (i : NodeIndex) : Node := nodeAt s.nodes i.toNat

/-- A count as a slot of COUNT_WIDTH = `w` bits stores it (00_scope.md R11; assumption log 11). -/
def toCount (w n : Nat) : BitVec 32 := BitVec.ofNat 32 (n % 2 ^ w)

/-- The room kept for PSEUDO_EOF while it is absent: `(FREQ[256] == 0) ? 1 : 0` (41_frequency_counter.md R124). -/
def State.eofReserve (s : State) : Nat := if s.freqAt eofIndex = 0#32 then 1 else 0

/-- FREQ[sym] grows by `c`, and TOTAL with it; NSYM grows if the entry was absent (41_frequency_counter.md R121 to R123:
LOAD_FREQ and SEAL write an absent entry, whose count is 0). -/
def State.addCount (sym c : Nat) (s : State) : State :=
  { s with
    freq := s.freq.setIfInBounds sym (toCount s.width ((s.freqAt sym).toNat + c))
    total := BitVec.ofNat 32 (s.total.toNat + c)
    nsym := if s.freqAt sym = 0#32 then s.nsym + 1#32 else s.nsym }

/-- The tree of BUILD_TREE goes into the arena; CUR starts at its root (42_tree_builder.md R140). -/
def State.installTree (nodes : List Node) (root : NodeIndex) (s : State) : State :=
  { s with nodes := nodes, root := root, cur := root, phase := .tree }

/-- The code word of one symbol goes into the code table: path bit `j` at bit `j` (43_code_table_builder.md R160). -/
def State.recordCode (sym : Symbol) (path : List Bool) (s : State) : State :=
  { s with
    codeLen := s.codeLen.setIfInBounds sym.toNat (BitVec.ofNat 9 path.length)
    codeBits := s.codeBits.setIfInBounds sym.toNat (BitVec.ofNat 256 (bitsToNat path)) }

/-- The code word of a symbol, first bit first: bits 0 to CODE_LEN - 1 of CODE_BITS (10_state.md R43, 20_memory.md R80). -/
def State.codeWord (s : State) (sym : Nat) : List Bool :=
  (List.range (s.codeLenAt sym).toNat).map fun j => (s.codeBitsAt sym).getLsbD j

/-- `PHASE <- p` (10_state.md R24). -/
def State.enter (p : Phase) (s : State) : State := { s with phase := p }

/-- `CUR <- i` (45_decode.md R201). -/
def State.moveTo (i : NodeIndex) (s : State) : State := { s with cur := i }

/-- `SYMCOUNT <- (SYMCOUNT + 1) mod 2^32` (10_state.md R31). -/
def State.countSymbol (s : State) : State := { s with symCount := s.symCount + 1#32 }

/-- `BITCOUNT <- (BITCOUNT + 1) mod 2^64` (10_state.md R31). -/
def State.consumeBit (s : State) : State := { s with bitCount := s.bitCount + 1#64 }

/-! ### Output ports -/

/-- `emit_byte` (00_scope.md R12, 10_state.md R44). -/
def State.emitByte (v : Byte) (s : State) : State := { s with byteOut := s.byteOut ++ [v] }

/-- The code word of `sym` is produced: `emit_bit` for each of its bits in order (00_scope.md R12, 10_state.md R44) when MATERIALIZE is 1, and counted in BITCOUNT either way
(44_encode.md R180 to R182). -/
def State.produceCode (sym : Nat) (s : State) : State :=
  { s with
    bitOut := if s.materialize then s.bitOut ++ s.codeWord sym else s.bitOut
    bitCount := s.bitCount + (s.codeLenAt sym).setWidth 64 }

/-! ### Error entry and return -/

/-- Error entry, `raise E(detail)` in the command `cmd` (60_exceptions.md R246). -/
def State.raise (e : ErrCode) (detail : BitVec 16) (cmd : Word) (s : State) : State :=
  { s with err := e, errDetail := detail, errCmd := cmd, phase := .error }

/-- The return from an error, and the start of every session: what CLEAR writes (46_control.md R221, 60_exceptions.md R248). -/
def State.cleared (s : State) : State :=
  { s with
    phase := .fill
    err := .none
    errCmd := 0#32
    errDetail := 0#16
    total := 0#32
    nsym := 0#32
    root := Config.nil
    cur := Config.nil
    bitCount := 0#64
    symCount := 0#32
    freq := Vector.replicate 257 0#32
    nodes := []
    codeLen := Vector.replicate 257 0#9
    codeBits := Vector.replicate 257 0#256 }

/-! ### Legality and the gate -/

/-- The legality table (60_exceptions.md R244), the ERROR column apart. -/
def legalIn (i : Instr) (p : Phase) : Bool :=
  match i with
  | .nop => true
  | .clear => true
  | .count _ => p = .fill
  | .loadFreq _ => p = .fill
  | .sealTable => p = .fill
  | .buildTree => p = .table
  | .buildCodes => p = .tree
  | .encodeByte _ => p = .codes ∨ p = .encoding
  | .encodeEnd => p = .codes ∨ p = .encoding
  | .decodeBit _ => p = .tree ∨ p = .codes ∨ p = .decoding ∨ p = .decDone
  | .decodeEnd => p = .tree ∨ p = .codes ∨ p = .decoding ∨ p = .decDone

/-- Error entry from the rule of the instruction `i`; ERRCMD gets the full command word (10_state.md R29), which is `i`'s
one encoding (assumption log 7). -/
def raiseIn (i : Instr) (e : ErrCode) (detail : BitVec 16) (s : State) : Result :=
  .next (s.raise e detail (encode i))

/-- The checks before a command's own rule (60_exceptions.md R245): ignored in ERROR (R249), SEQUENCE with the PHASE as
detail where the command is not legal (R244), else `body`. -/
def gated (i : Instr) (s : State) (body : Result) : Result :=
  if s.phase = .error then .next s
  else if legalIn i s.phase then body
  else raiseIn i .sequence (s.phase.code.setWidth 16) s

end Sys2Proof.Machine
end

