-- ==== Sys2Proof/Machine/Codes.lean ====
section
/-! DEFINITION. The code-table generator family: BUILD_CODES (spec/43_code_table_builder.md). -/

namespace Sys2Proof.Machine

/-- `walk` (R160): the leaves below node `i`, each with its path, `path` being `i`'s own. The first argument bounds the depth;
the number of nodes is enough in a tree without cycles (assumption log 12). -/
def leafPaths (nodes : List Node) : Nat → NodeIndex → List Bool → List (Symbol × List Bool)
  | 0, _, _ => []
  | fuel + 1, i, path =>
    if i = Config.nil then []
    else
      let nd := nodeAt nodes i.toNat
      match nd.kind with
      | .leaf => [(nd.sym, path)]
      | .internal =>
        leafPaths nodes fuel nd.zero (path ++ [false]) ++ leafPaths nodes fuel nd.one (path ++ [true])

/-- The root-to-leaf paths of the whole tree (R160: `walk(ROOT, "")`). -/
def State.treePaths (s : State) : List (Symbol × List Bool) := leafPaths s.nodes s.nodes.length s.root []

/-- The code words written into CODE_LEN and CODE_BITS (R160, R161). -/
def State.recordCodes (paths : List (Symbol × List Bool)) (s : State) : State :=
  paths.foldl (fun t p => t.recordCode p.1 p.2) s

/-- BUILD_CODES (R160). -/
def execBuildCodes (s : State) : Result :=
  gated .buildCodes s <| .next ((s.recordCodes s.treePaths).enter .codes)

end Sys2Proof.Machine
end

