-- ==== Sys2Proof/Machine/Control.lean ====
section
/-! DEFINITION. The control commands: NOP, CLEAR (spec/46_control.md). Both are legal in every phase, ERROR included. -/

namespace Sys2Proof.Machine

/-- NOP (R220). -/
def execNop (s : State) : Result := .next s

/-- CLEAR (R221). -/
def execClear (s : State) : Result := .next s.cleared

end Sys2Proof.Machine
end

