-- ==== Sys2Proof/Machine/Decoder.lean ====
section
/-! DEFINITION. The decoder family: DECODE_BIT, DECODE_END (spec/45_decode.md). -/

namespace Sys2Proof.Machine

/-- The node the bit `t` leads to from CUR (R201). -/
def State.branch (t : Bool) (s : State) : NodeIndex := if t then (s.node s.cur).one else (s.node s.cur).zero

/-- The walk arrives at the node `nxt` (R201): one more bit consumed, and at a leaf its symbol emitted or decoding done. -/
def State.arrive (nxt : NodeIndex) (s : State) : State :=
  match (s.node nxt).kind with
  | .internal => (s.consumeBit.moveTo nxt).enter .decoding
  | .leaf =>
    if (s.node nxt).sym = Config.pseudoEof then (s.consumeBit.moveTo nxt).enter .decDone
    else ((s.consumeBit.emitByte ((s.node nxt).sym.setWidth 8)).countSymbol.moveTo s.root).enter .decoding

/-- DECODE_BIT (R200, R201); ignored once decoding is done (R205). -/
def execDecodeBit (t : Bool) (s : State) : Result :=
  gated (.decodeBit t) s <|
    if s.phase = .decDone then .next s
    else if s.branch t = Config.nil then raiseIn (.decodeBit t) .corruptedStream 2#16 s
    else .next (s.arrive (s.branch t))

/-- DECODE_END (R202). -/
def execDecodeEnd (s : State) : Result :=
  gated .decodeEnd s <|
    if s.phase = .decDone then .next s else raiseIn .decodeEnd .corruptedStream 1#16 s

end Sys2Proof.Machine
end

