-- ==== Sys2Proof/Machine/Encoder.lean ====
section
/-! DEFINITION. The encoder family: ENCODE, ENCODE_END (spec/44_encode.md). -/

namespace Sys2Proof.Machine

/-- ENCODE (R180). -/
def execEncodeByte (b : Byte) (s : State) : Result :=
  gated (.encodeByte b) s <|
    if s.codeLenAt (byteIndex b) = 0#9 then raiseIn (.encodeByte b) .inconsistentTable 0#16 s
    else .next ((s.produceCode (byteIndex b)).countSymbol.enter .encoding)

/-- ENCODE_END (R182). -/
def execEncodeEnd (s : State) : Result :=
  gated .encodeEnd s <| .next ((s.produceCode eofIndex).enter .encDone)

end Sys2Proof.Machine
end

