-- ==== Sys2Proof/Machine/Frequency.lean ====
section
/-! DEFINITION. The frequency counter family: COUNT, LOAD_FREQ, SEAL (spec/41_frequency_counter.md). -/

namespace Sys2Proof.Machine

/-- The count bound (R124): TOTAL, `c` more, and `res` kept for PSEUDO_EOF exceed CMAX. -/
def State.overflows (s : State) (c res : Nat) : Bool := decide (s.total.toNat + c + res > Config.cmax s.width)

/-- COUNT (R121). -/
def execCount (b : Byte) (s : State) : Result :=
  gated (.count b) s <|
    if s.overflows 1 s.eofReserve then raiseIn (.count b) .countOverflow 0#16 s
    else .next (s.addCount (byteIndex b) 1)

/-- LOAD_FREQ, its checks in the order of R122. -/
def execLoadFreq (sym : Symbol) (s : State) : Result :=
  let i := symIndex sym
  let c := s.countOperand
  gated (.loadFreq sym) s <|
    if i > 256 then raiseIn (.loadFreq sym) .badTable 2#16 s
    else if c = 0 then raiseIn (.loadFreq sym) .badTable 1#16 s
    else if i = 256 ∧ c ≠ 1 then raiseIn (.loadFreq sym) .badTable 4#16 s
    else if s.freqAt i ≠ 0#32 then raiseIn (.loadFreq sym) .badTable 3#16 s
    else if s.overflows c (if i = 256 then 0 else s.eofReserve) then raiseIn (.loadFreq sym) .countOverflow 0#16 s
    else .next (s.addCount i c)

/-- SEAL (R123). -/
def execSealTable (s : State) : Result :=
  gated .sealTable s <|
    if s.freqAt eofIndex = 0#32 then .next ((s.addCount eofIndex 1).enter .table)
    else .next (s.enter .table)

end Sys2Proof.Machine
end

