-- ==== Sys2Proof/Machine/Tree.lean ====
section
/-! DEFINITION. The tree builder family: BUILD_TREE (spec/42_tree_builder.md). -/

namespace Sys2Proof.Machine

/-- A leaf of the symbol with index `sym` (R140, R141). -/
def leafNode (sym : Nat) (count : BitVec 32) : Node where
  kind := .leaf
  sym := BitVec.ofNat 9 sym
  count := count
  zero := Config.nil
  one := Config.nil

/-- One leaf for each nonzero count of the list, in ascending symbol order, the list's first count being symbol `sym`'s
(R141). -/
def leavesFrom : List (BitVec 32) → Nat → List Node
  | [], _ => []
  | c :: rest, sym => if c = 0#32 then leavesFrom rest (sym + 1) else leafNode sym c :: leavesFrom rest (sym + 1)

/-- The priority order on node indices: by (count, index), lexicographically (R144). -/
def before (nodes : List Node) (i j : Nat) : Bool :=
  let ci := (nodeAt nodes i).count.toNat
  let cj := (nodeAt nodes j).count.toNat
  decide (ci < cj) || (decide (ci = cj) && decide (i < j))

/-- The least element of Q under the priority order (R144). -/
def least (nodes : List Node) : List Nat → Option Nat
  | [] => none
  | i :: rest =>
    match least nodes rest with
    | none => some i
    | some j => some (if before nodes i j then i else j)

/-- The least element of Q, and Q without it (R140: `Q <- Q \ {A}`). -/
def takeLeast (nodes : List Node) (q : List Nat) : Option (Nat × List Nat) :=
  (least nodes q).map fun i => (i, q.erase i)

/-- The internal node of a merge: zero-branch the first removed, one-branch the second, count their sum (R142). -/
def mergedNode (w : Nat) (nodes : List Node) (a b : Nat) : Node where
  kind := .internal
  sym := Config.internalSym
  count := toCount w ((nodeAt nodes a).count.toNat + (nodeAt nodes b).count.toNat)
  zero := BitVec.ofNat 10 a
  one := BitVec.ofNat 10 b

/-- The merge loop, `while |Q| >= 2` (R140, R142); a new node takes the next free index. The first argument bounds the
number of merges, and |Q| is enough. -/
def mergeLoop (w : Nat) : Nat → List Node → List Nat → List Node
  | 0, nodes, _ => nodes
  | fuel + 1, nodes, q =>
    match takeLeast nodes q with
    | none => nodes
    | some (a, q1) =>
      match takeLeast nodes q1 with
      | none => nodes
      | some (b, q2) => mergeLoop w fuel (nodes ++ [mergedNode w nodes a b]) (q2 ++ [nodes.length])

/-- The synthetic root over a lone leaf: zero-branch the leaf, one-branch NIL (R145). -/
def syntheticRoot (leaf : Node) : Node where
  kind := .internal
  sym := Config.internalSym
  count := leaf.count
  zero := 0#10
  one := Config.nil

/-- The arena BUILD_TREE makes of a frequency table (R140). -/
def buildArena (w : Nat) (freq : Vector (BitVec 32) 257) : List Node :=
  match leavesFrom freq.toList 0 with
  | [leaf] => [leaf, syntheticRoot leaf]
  | leaves => mergeLoop w leaves.length leaves (List.range leaves.length)

/-- ROOT: the last node created (R140, R145); NIL for an empty arena, which no sealed table gives (assumption log 6). -/
def arenaRoot (nodes : List Node) : NodeIndex := BitVec.ofNat 10 nodes.length - 1#10

/-- BUILD_TREE (R140). -/
def execBuildTree (s : State) : Result :=
  gated .buildTree s <|
    let nodes := buildArena s.width s.freq
    .next (s.installTree nodes (arenaRoot nodes))

end Sys2Proof.Machine
end

