-- ==== Sys2Proof/Machine/Dispatch.lean ====
section
/-! DEFINITION. One arm per command: what the command does to the state. -/

namespace Sys2Proof.Machine

def exec (i : Instr) (s : State) : Host.Outcome State Fault Refusal :=
  match i with
  | .nop => Sys2Proof.Machine.execNop s
  | .clear => Sys2Proof.Machine.execClear s
  | .count b => Sys2Proof.Machine.execCount b s
  | .loadFreq sym => Sys2Proof.Machine.execLoadFreq sym s
  | .sealTable => Sys2Proof.Machine.execSealTable s
  | .buildTree => Sys2Proof.Machine.execBuildTree s
  | .buildCodes => Sys2Proof.Machine.execBuildCodes s
  | .encodeByte b => Sys2Proof.Machine.execEncodeByte b s
  | .encodeEnd => Sys2Proof.Machine.execEncodeEnd s
  | .decodeBit t => Sys2Proof.Machine.execDecodeBit t s
  | .decodeEnd => Sys2Proof.Machine.execDecodeEnd s

end Sys2Proof.Machine
end

