-- ==== Sys2Proof/Machine/Bus.lean ====
section
/-! DEFINITION. The host's side: the register space and its windows (spec/20_memory.md R71, R85), reads and writes (R72 to
R75), a command write (60_exceptions.md R245), reset (70_reset_and_hazards.md R270), and one step of the machine. -/

namespace Sys2Proof.Machine

/-! ### What an offset reads as -/

/-- The value of a node's KIND bit (10_state.md R41). -/
def NodeKind.code : NodeKind → Word
  | .leaf => 0#32
  | .internal => 1#32

/-- NODE_A of an entry (R85). -/
def Node.wordA (n : Node) : Word :=
  (n.kind.code <<< 31) ||| (n.sym.setWidth 32 <<< 20) ||| (n.one.setWidth 32 <<< 10) ||| n.zero.setWidth 32

/-- NODE_A(i) (R85); 0 at and beyond NNODES. -/
def State.nodeA (s : State) (i : Nat) : Word := if i < s.nodes.length then (nodeAt s.nodes i).wordA else 0#32

/-- NODE_B(i) (R85); 0 at and beyond NNODES. -/
def State.nodeB (s : State) (i : Nat) : Word := if i < s.nodes.length then (nodeAt s.nodes i).count else 0#32

/-- Word `w` of CODE_BITS[sym], bits 32w+31 down to 32w (10_state.md R43). -/
def State.codeBitsWord (s : State) (sym w : Nat) : Word := (s.codeBitsAt sym).extractLsb' (32 * w) 32

/-- The registers below the windows (R71); an unmapped offset reads 0 (R75). -/
def State.readRegister (s : State) (offset : Nat) : Word :=
  match offset with
  | 0x0000 => Config.idValue
  | 0x0004 => (BitVec.ofBool s.materialize).setWidth 32
  | 0x0008 => s.status
  | 0x000C => 0#32
  | 0x0010 => s.arg
  | 0x0014 => s.errCmd
  | 0x0018 => s.errDetail.setWidth 32
  | 0x001C => s.total
  | 0x0020 => s.nsym
  | 0x0024 => s.nnodes
  | 0x0028 => s.root.setWidth 32
  | 0x002C => s.cur.setWidth 32
  | 0x0030 => s.bitCount.extractLsb' 0 32
  | 0x0034 => s.bitCount.extractLsb' 32 32
  | 0x0038 => s.symCount
  | 0x003C => s.countWidth.setWidth 32
  | _ => 0#32

/-- The word at an aligned offset (R71, R72). -/
def State.readWord (s : State) (a : Addr) : Word :=
  let n := a.toNat
  if n < 0x1000 then s.readRegister n
  else if n < 0x2000 then s.freqAt ((n - 0x1000) / 4)
  else if n < 0x3000 then (s.codeLenAt ((n - 0x2000) / 4)).setWidth 32
  else if n < 0x4000 then 0#32
  else if n < 0x8000 then s.codeBitsWord ((n - 0x4000) / 32) ((n - 0x4000) % 32 / 4)
  else if n < 0xA000 then (if n % 8 < 4 then s.nodeA ((n - 0x8000) / 8) else s.nodeB ((n - 0x8000) / 8))
  else 0#32

/-! ### Accesses -/

/-- Only aligned 4-byte accesses exist (R74). -/
def accessOk (a : Addr) (size : Nat) : Bool := decide (size = 4) && decide (a.toNat % 4 = 0)

/-- A command word written to CMD: decoded, then executed; an illegal word raises ILLEGAL_COMMAND, and is ignored in ERROR
(60_exceptions.md R245, R249). -/
def command (cmd : Word) (s : State) : Result :=
  match decode cmd with
  | .ok i => exec i s
  | .error r => if s.phase = .error then .next s else .next (s.raise .illegalCommand r.reason cmd)

/-- An aligned write of a word (R73). -/
def writeWord (a : Addr) (v : Word) (s : State) : Result :=
  if a = Config.ctrlOffset then .next { s with materialize := v.getLsbD 0 }
  else if a = Config.argOffset then .next { s with arg := v }
  else if a = Config.cmdOffset then command v s
  else .next s

/-- The bus answers an access. -/
def State.respond (r : BusResponse) (s : State) : State := { s with response := r }

/-- One bus access (R72 to R75). A bus error has no effect: nothing is stored or executed, and a read returns 0 (R74). -/
def access (x : BusAccess) (s : State) : Result :=
  match x with
  | .read a size =>
    if accessOk a size then .next (s.respond (.readData (s.readWord a)))
    else .next (s.respond (.readError 0#32))
  | .write a size v =>
    if accessOk a size then writeWord a v (s.respond .writeDone)
    else .next (s.respond .writeError)

/-! ### Reset and the step -/

/-- Reset is asserted during this step: every piece of state takes its reset value, and no access is accepted
(70_reset_and_hazards.md R270). What the host has still to do, and the reset input's coming levels, stay. -/
def State.underReset (s : State) : State :=
  { State.resetWith s.countWidth with pending := s.pending, resetIn := s.resetIn.tail }

/-- The host's next access is taken from what is pending, `rest` being left, and the reset input moves on. -/
def State.taking (rest : List BusAccess) (s : State) : State := { s with pending := rest, resetIn := s.resetIn.tail }

/-- One step: reset if its input is asserted; else the host's next access; else the block is idle and holds its state
(R270, 20_memory.md R81, 60_exceptions.md R254). -/
def busStep (s : State) : Result :=
  if s.resetIn.head? = some true then .next s.underReset
  else
    match s.pending with
    | [] => .next (s.taking [])
    | x :: rest => access x (s.taking rest)

/-- The host writes the command word `cmd` to CMD next, with reset released: one access more at the head of what is pending. -/
def State.withCommand (s : State) (cmd : Word) : State :=
  { s with pending := .write Config.cmdOffset 4 cmd :: s.pending, resetIn := false :: s.resetIn }

end Sys2Proof.Machine
end

