-- ==== Sys2Proof/Machine/Step.lean ====
section
/-! DEFINITION. One step of the machine, and the state in which a given command comes next. -/

namespace Sys2Proof.Machine

/-- One step: one bus access of the host, or reset, or idling (spec/70_reset_and_hazards.md R280). -/
def step (s : State) : Host.Outcome State Fault Refusal := busStep s

/-- The host's next access is the write of the command word `w` to CMD (assumption log 2). -/
def State.withFetchWord (s : State) (nbits w : Nat) : State := s.withCommand (BitVec.ofNat 32 (w % 2 ^ nbits))

end Sys2Proof.Machine
end

