-- ==== Sys2Proof/Machine/HostProgram.lean ====
section
/-! DEFINITION. What the host writes: the assembler's command lines (spec/30_encoding.md R107), host program lines (R108),
the pseudo-instructions (R109), and the container's sequences (46_control.md R224 to R227), as the bus accesses they
stand for. Their text is read in HostText.lean. -/

namespace Sys2Proof.Machine

/-! ### Command lines (R107) -/

/-- The instruction of a command line; none where the operand is missing, superfluous or out of range. -/
def AsmCommand.instr (c : AsmCommand) : Option Instr :=
  if c.wellFormed then
    match c.mnemonic, c.operand with
    | .NOP, _ => some .nop
    | .CLEAR, _ => some .clear
    | .COUNT, b => some (.count (BitVec.ofNat 8 (b.getD 0)))
    | .LOAD_FREQ, s => some (.loadFreq (BitVec.ofNat 9 (s.getD 0)))
    | .SEAL, _ => some .sealTable
    | .BUILD_TREE, _ => some .buildTree
    | .BUILD_CODES, _ => some .buildCodes
    | .ENCODE, b => some (.encodeByte (BitVec.ofNat 8 (b.getD 0)))
    | .ENCODE_END, _ => some .encodeEnd
    | .DECODE_BIT, t => some (.decodeBit (t == some 1))
    | .DECODE_END, _ => some .decodeEnd
  else none

/-- The word a command line assembles to. -/
def assemble (c : AsmCommand) : Option Word := (AsmCommand.instr c).map encode

/-! ### Host program lines (R108) -/

/-- The offset of a register or window element (20_memory.md R71). -/
def RegName.offset : RegName → Nat
  | .id => 0x0000
  | .ctrl => 0x0004
  | .status => 0x0008
  | .cmd => 0x000C
  | .arg => 0x0010
  | .errcmd => 0x0014
  | .errdetail => 0x0018
  | .total => 0x001C
  | .nsym => 0x0020
  | .nnodes => 0x0024
  | .root => 0x0028
  | .cur => 0x002C
  | .bitcountLo => 0x0030
  | .bitcountHi => 0x0034
  | .symcount => 0x0038
  | .params => 0x003C
  | .freq s => 0x1000 + 4 * s
  | .codeLen s => 0x2000 + 4 * s
  | .codeBits s w => 0x4000 + 32 * s + 4 * w
  | .nodeA i => 0x8000 + 8 * i
  | .nodeB i => 0x8000 + 8 * i + 4

/-- The address of a register or window element. -/
def RegName.addr (r : RegName) : Addr := BitVec.ofNat 16 (RegName.offset r)

/-- The host writes a register. -/
def writeReg (r : RegName) (v : Word) : BusAccess := .write (RegName.addr r) 4 v

/-- The host reads a register. -/
def readReg (r : RegName) : BusAccess := .read (RegName.addr r) 4

/-- The host issues a command: a bare command line means `WR CMD, <word>` (R107). -/
def issue (i : Instr) : BusAccess := writeReg .cmd (encode i)

/-- `LOADF s, c` (R109). -/
def loadF (s : Symbol) (c : Word) : List BusAccess := [writeReg .arg c, issue (.loadFreq s)]

/-- `COMPRESS "str"` (R109). -/
def compressSequence (str : List Byte) : List BusAccess :=
  [issue .clear] ++ str.map (fun b => issue (.count b)) ++ [issue .sealTable, issue .buildTree, issue .buildCodes] ++
    str.map (fun b => issue (.encodeByte b)) ++ [issue .encodeEnd]

/-- `DECOMPRESS` of a header and a body (R109; 46_control.md R227). -/
def decompressSequence (header : List (Symbol × Word)) (bits : List Bool) : List BusAccess :=
  [issue .clear] ++ header.flatMap (fun p => loadF p.1 p.2) ++ [issue .sealTable, issue .buildTree] ++
    bits.map (fun t => issue (.decodeBit t)) ++ [issue .decodeEnd]

/-- The header read-out: the host reads the FREQ window (46_control.md R226). -/
def headerReads : List BusAccess := (List.range 257).map fun s => readReg (.freq s)

/-- The container's compress sequence, the header read after BUILD_CODES (46_control.md R225). -/
def containerCompress (str : List Byte) : List BusAccess :=
  [issue .clear] ++ str.map (fun b => issue (.count b)) ++ [issue .sealTable, issue .buildTree, issue .buildCodes] ++
    headerReads ++ str.map (fun b => issue (.encodeByte b)) ++ [issue .encodeEnd]

/-- The header: the pairs (s, FREQ[s]) with FREQ[s] ≠ 0, in ascending order (46_control.md R226). -/
def State.header (s : State) : List (Symbol × Word) :=
  (List.range 257).filterMap fun sym =>
    if s.freqAt sym = 0#32 then none else some (BitVec.ofNat 9 sym, s.freqAt sym)

/-- The bus accesses a host program line stands for; none where the line is rejected (R107 to R109). EXPECT is a read whose
value a test compares; it is no bus operation of its own (R108). -/
def HostLine.expand (l : HostLine) : Option (List BusAccess) :=
  if l.wellFormed then
    match l with
    | .wr r v => some [writeReg r (BitVec.ofNat 32 v)]
    | .rd r => some [readReg r]
    | .expect r _ => some [readReg r]
    | .command c => (AsmCommand.instr c).map fun i => [issue i]
    | .loadF s c => some (loadF (BitVec.ofNat 9 s) (BitVec.ofNat 32 c))
    | .counts str => some (str.map fun b => issue (.count b))
    | .encodes str => some (str.map fun b => issue (.encodeByte b))
    | .decodes bits => some (bits.map fun t => issue (.decodeBit t))
    | .setMat m => some [writeReg .ctrl (BitVec.ofNat 32 m)]
    | .compress str => some (compressSequence str)
    | .decompress header bits =>
      some (decompressSequence (header.map fun p => (BitVec.ofNat 9 p.1, BitVec.ofNat 32 p.2)) bits)
  else none

/-- What an EXPECT line asserts of the state at which it stands: its read answers the expected value (R108). -/
def State.meetsExpect (s : State) (r : RegName) (v : Nat) : Bool := decide (s.readWord (RegName.addr r) = BitVec.ofNat 32 v)

/-- A host program: a finite list of bus accesses (70_reset_and_hazards.md R286), given as its lines. -/
def expandProgram : List HostLine → Option (List BusAccess)
  | [] => some []
  | l :: rest => (HostLine.expand l).bind fun xs => (expandProgram rest).map fun ys => xs ++ ys

/-- The machine with a host program still to be performed, before anything already pending. -/
def State.withProgram (s : State) (xs : List BusAccess) : State := { s with pending := xs ++ s.pending }

end Sys2Proof.Machine
end

