-- ==== Sys2Proof/Safety.lean ====
section
/-! DEFINITION. What counts as a good state and a complete run, in the terms the claims use: the invariants by phase
(spec/10_state.md R26, R46), the end of a run (70_reset_and_hazards.md R285, R286), walks down the tree, the children of
an arena, and runs of several commands or accesses. -/

namespace Sys2Proof.Machine

/-! ### The frequency table as a whole -/

/-- Σ FREQ[s] over s = 0..256 (R32). -/
def State.freqSum (s : State) : Nat := (s.freq.toList.map BitVec.toNat).sum

/-- #{s : FREQ[s] ≠ 0} (R33). -/
def State.freqCount (s : State) : Nat := s.freq.toList.countP fun c => c != 0#32

/-- The invariants of the counts (R46, first list; R8 for COUNT_WIDTH). They hold in ERROR too, where the values are those
before the failing command. -/
structure State.CountInv (s : State) : Prop where
  width : 1 ≤ s.width ∧ s.width ≤ 32
  total : s.total.toNat = s.freqSum
  nsym : s.nsym.toNat = s.freqCount
  eof : s.freqAt 256 = 0#32 ∨ s.freqAt 256 = 1#32
  bound : s.total.toNat + (if s.freqAt 256 = 0#32 then 1 else 0) ≤ Config.cmax s.width

/-- ERR ≠ 0 exactly in ERROR (R26); ERRCMD and ERRDETAIL are 0 while there is no error (R29, R30). -/
structure State.ErrInv (s : State) : Prop where
  err : s.err ≠ .none ↔ s.phase = .error
  quiet : s.err = .none → s.errCmd = 0#32 ∧ s.errDetail = 0#16

/-! ### Phases -/

/-- FILL or TABLE: no tree yet. -/
def Phase.beforeTree (p : Phase) : Bool := p = .fill ∨ p = .table

/-- TREE and every later phase. -/
def Phase.hasTree (p : Phase) : Bool :=
  p = .tree ∨ p = .codes ∨ p = .encoding ∨ p = .encDone ∨ p = .decoding ∨ p = .decDone

/-- The phases a session enters only after BUILD_CODES. -/
def Phase.hasCodes (p : Phase) : Bool := p = .codes ∨ p = .encoding ∨ p = .encDone

/-- The phases in which the decoder may stand inside the tree. -/
def Phase.mayDescend (p : Phase) : Bool := p = .tree ∨ p = .codes ∨ p = .decoding

/-! ### The invariants by phase (R46) -/

/-- The code table is empty. -/
def State.NoCodes (s : State) : Prop := s.codeLen = Vector.replicate 257 0#9 ∧ s.codeBits = Vector.replicate 257 0#256

/-- The state with an empty code table. -/
def State.withoutCodes (s : State) : State :=
  { s with codeLen := Vector.replicate 257 0#9, codeBits := Vector.replicate 257 0#256 }

/-- The code table is the one 43_code_table_builder.md R161 gives for the tree in the arena. -/
def State.TreeCodes (s : State) : Prop :=
  s.codeLen = (s.withoutCodes.recordCodes s.treePaths).codeLen ∧
    s.codeBits = (s.withoutCodes.recordCodes s.treePaths).codeBits

/-- The invariants between commands (R46). `codeTable` holds in every phase: in DECODING and DEC_DONE it is R46's clause on the
loop-back, and in ERROR it says of the code table what held before the failing command (60_exceptions.md R247). -/
structure State.Inv (s : State) : Prop where
  count : s.CountInv
  err : s.ErrInv
  noTree : s.phase.beforeTree = true → s.nodes = [] ∧ s.root = Config.nil ∧ s.cur = Config.nil ∧ s.NoCodes ∧
    s.bitCount = 0#64 ∧ s.symCount = 0#32
  sealed : s.phase ≠ .fill → s.phase ≠ .error → s.freqAt 256 = 1#32
  tree : s.phase.hasTree = true → s.nodes = buildArena s.width s.freq ∧ s.root = arenaRoot s.nodes
  codes : s.phase.hasCodes = true → s.TreeCodes
  noCodes : s.phase = .tree → s.NoCodes
  codeTable : s.NoCodes ∨
    (s.TreeCodes ∧ s.nodes = buildArena s.width s.freq ∧ s.root = arenaRoot s.nodes ∧ s.freqAt 256 = 1#32)
  cur : s.phase.mayDescend = true → s.cur = s.root ∨ (s.node s.cur).kind = .internal
  curDone : s.phase = .decDone → (s.node s.cur).kind = .leaf ∧ (s.node s.cur).sym = Config.pseudoEof

/-! ### The end of a run (R285, R286) -/

/-- The host's last access has completed: the run has ended. -/
def State.runEnded (s : State) : Prop := s.pending = []

/-- A compress run is complete iff it ends with PHASE = ENC_DONE. -/
def State.compressComplete (s : State) : Prop := s.runEnded ∧ s.phase = .encDone

/-- A decompress run is complete iff it ends with PHASE = DEC_DONE. -/
def State.decompressComplete (s : State) : Prop := s.runEnded ∧ s.phase = .decDone

/-- A run has failed iff it ends with PHASE = ERROR. -/
def State.runFailed (s : State) : Prop := s.runEnded ∧ s.phase = .error

/-! ### Trees -/

/-- The node a bit string leads to from node `i`: 0 into the zero-branch, 1 into the one-branch (43_code_table_builder.md R161);
none where it leaves the tree. -/
def descend (nodes : List Node) : List Bool → NodeIndex → Option NodeIndex
  | [], i => some i
  | t :: rest, i =>
    let nd := nodeAt nodes i.toNat
    match nd.kind with
    | .leaf => none
    | .internal =>
      let nxt := if t then nd.one else nd.zero
      if nxt = Config.nil then none else descend nodes rest nxt

/-- Node `i` is a child of node `k`. -/
def isChildOf (nodes : List Node) (i k : Nat) : Prop :=
  (nodeAt nodes k).kind = .internal ∧ ((nodeAt nodes k).zero.toNat = i ∨ (nodeAt nodes k).one.toNat = i)

/-- The priority order of the merge, (count, index) lexicographically (42_tree_builder.md R144), as a proposition. -/
def precedes (nodes : List Node) (i j : Nat) : Prop :=
  (nodeAt nodes i).count.toNat < (nodeAt nodes j).count.toNat ∨
    ((nodeAt nodes i).count.toNat = (nodeAt nodes j).count.toNat ∧ i < j)

/-! ### Runs -/

/-- Several commands, one after the other. -/
def execAll : List Instr → State → Result
  | [], s => .next s
  | i :: rest, s =>
    match exec i s with
    | .next t => execAll rest t
    | .fault r => .fault r
    | .refused r => .refused r

/-- Several bus accesses, one after the other. -/
def accessAll : List BusAccess → State → Result
  | [], s => .next s
  | x :: rest, s =>
    match access x s with
    | .next t => accessAll rest t
    | .fault r => .fault r
    | .refused r => .refused r

/-- The commands that encode a byte sequence and close the body (46_control.md R225, steps 7 and 8). -/
def encodeCommands (str : List Byte) : List Instr := str.map .encodeByte ++ [.encodeEnd]

/-- The commands that deliver a body bit by bit (46_control.md R227, step 5). -/
def decodeCommands (bits : List Bool) : List Instr := bits.map .decodeBit

/-- The encoded body of a byte sequence under the state's code table: its code words in order, then PSEUDO_EOF's
(44_encode.md R183). -/
def State.body (s : State) (str : List Byte) : List Bool :=
  str.flatMap (fun b => s.codeWord b.toNat) ++ s.codeWord 256

end Sys2Proof.Machine
end

