-- ==== Sys2Proof/Certificates/Slice0/Obligations.lean ====
section
/-! DEFINITION. The statements for the provers. Each docstring names the rule of spec/ it formalises. A command's next state
is stated with its frame as `t = { s with … }`: every register, table, trace and field of the host's side that is not
named there is unchanged. -/

open Sys2Proof Sys2Proof.Machine

/-! ### Encoding -/

/-- Decoding an encoded instruction gives it back, for every instruction and every operand (R100 to R103). -/
def Obligations.DecodeOfEncodeIsTheInstruction : Prop :=
  ∀ i : Instr, i.wellFormed = true → decode (encode i) = .ok i

/-- Every command word has one meaning: the word that decodes to an instruction is its encoding (R100 to R103). -/
def Obligations.EncodeOfDecodeIsTheWord : Prop :=
  ∀ (w : Word) (i : Instr), decode w = .ok i → encode i = w

/-- Words written out from R101 and R103, one for each format and each kind of illegal word. -/
def Obligations.WordsOfTheMapDecode : Prop :=
  decode 0x00000000#32 = .ok .nop ∧ decode 0x02000061#32 = .ok (.count 0x61#8) ∧
    decode 0x03000100#32 = .ok (.loadFreq 0x100#9) ∧ decode 0x070000FF#32 = .ok (.encodeByte 0xFF#8) ∧
    decode 0x09000001#32 = .ok (.decodeBit true) ∧ decode 0x0A000000#32 = .ok .decodeEnd ∧
    decode 0x0B000000#32 = .error .reservedOpcode ∧ decode 0x02000161#32 = .error .reservedBit

/-- R103: a word matches at most one row of the map; a word that matches a row decodes to that row's command, and a word that
matches none is illegal. -/
def Obligations.WordsDecodeByTheOneMatchingRow : Prop :=
  ∀ w : Word,
    opcodeMap.countP (fun r => r.matches w) ≤ 1 ∧
    (∀ r ∈ opcodeMap, r.matches w = true →
      ∃ i, decode w = .ok i ∧ i.mnemonic = r.mnemonic ∧ i.format = r.format) ∧
    ((∀ r ∈ opcodeMap, r.matches w = false) → ∃ e, decode w = .error e)

/-- R104: which words are illegal and for which reason; outside ERROR an illegal word raises ILLEGAL_COMMAND with it. -/
def Obligations.IllegalWordsRaiseTheirReason : Prop :=
  ∀ w : Word,
    (decode w = .error .reservedOpcode ↔ 0x0A < (w >>> 24).toNat) ∧
    (decode w = .error .reservedBit ↔
      ∃ r ∈ opcodeMap, w >>> 24 = r.matchWord >>> 24 ∧ w &&& 0x00FFFFFF#32 &&& ~~~r.format.operandMask ≠ 0#32) ∧
    ∀ s : State, s.phase ≠ .error →
      (decode w = .error .reservedOpcode → command w s = .next (s.raise .illegalCommand 1#16 w)) ∧
      (decode w = .error .reservedBit → command w s = .next (s.raise .illegalCommand 2#16 w))

/-! ### Frequency counter -/

/-- COUNT (R121, with the bound of R124): one byte counted, overflow, and SEQUENCE outside FILL. -/
def Obligations.CountCountsOneByte : Prop :=
  ∀ (s : State) (b : Byte),
    (s.CountInv → s.phase = .fill →
      s.total.toNat + 1 + (if s.freqAt 256 = 0#32 then 1 else 0) ≤ Config.cmax s.width →
      ∃ t, exec (.count b) s = .next t ∧
        (t.freqAt b.toNat).toNat = (s.freqAt b.toNat).toNat + 1 ∧
        (∀ c, c ≠ b.toNat → t.freqAt c = s.freqAt c) ∧
        t.total.toNat = s.total.toNat + 1 ∧
        t.nsym.toNat = s.nsym.toNat + (if s.freqAt b.toNat = 0#32 then 1 else 0) ∧
        t = { s with freq := t.freq, total := t.total, nsym := t.nsym }) ∧
    (s.phase = .fill → Config.cmax s.width < s.total.toNat + 1 + (if s.freqAt 256 = 0#32 then 1 else 0) →
      exec (.count b) s = .next (s.raise .countOverflow 0#16 (0x02000000#32 ||| b.setWidth 32))) ∧
    (s.phase ≠ .fill → s.phase ≠ .error →
      exec (.count b) s = .next (s.raise .sequence (s.phase.code.setWidth 16) (0x02000000#32 ||| b.setWidth 32)))

/-- LOAD_FREQ (R122): the checks in the rule's order, then the pair loaded, and SEQUENCE outside FILL. -/
def Obligations.LoadFreqChecksThenLoads : Prop :=
  ∀ (s : State) (sym : Symbol),
    let i := sym.toNat
    let c := s.arg.toNat
    let res := if i = 256 ∨ s.freqAt 256 ≠ 0#32 then 0 else 1
    let cmd := 0x03000000#32 ||| sym.setWidth 32
    (s.phase = .fill → 256 < i → exec (.loadFreq sym) s = .next (s.raise .badTable 2#16 cmd)) ∧
    (s.phase = .fill → i ≤ 256 → c = 0 → exec (.loadFreq sym) s = .next (s.raise .badTable 1#16 cmd)) ∧
    (s.phase = .fill → i = 256 → c ≠ 0 → c ≠ 1 → exec (.loadFreq sym) s = .next (s.raise .badTable 4#16 cmd)) ∧
    (s.phase = .fill → i ≤ 256 → c ≠ 0 → (i = 256 → c = 1) → s.freqAt i ≠ 0#32 →
      exec (.loadFreq sym) s = .next (s.raise .badTable 3#16 cmd)) ∧
    (s.phase = .fill → i ≤ 256 → c ≠ 0 → (i = 256 → c = 1) → s.freqAt i = 0#32 →
      Config.cmax s.width < s.total.toNat + c + res →
      exec (.loadFreq sym) s = .next (s.raise .countOverflow 0#16 cmd)) ∧
    (s.CountInv → s.phase = .fill → i ≤ 256 → c ≠ 0 → (i = 256 → c = 1) → s.freqAt i = 0#32 →
      s.total.toNat + c + res ≤ Config.cmax s.width →
      ∃ t, exec (.loadFreq sym) s = .next t ∧
        t.freqAt i = s.arg ∧
        (∀ k, k ≠ i → t.freqAt k = s.freqAt k) ∧
        t.nsym.toNat = s.nsym.toNat + 1 ∧
        t.total.toNat = s.total.toNat + c ∧
        t = { s with freq := t.freq, total := t.total, nsym := t.nsym }) ∧
    (s.phase ≠ .fill → s.phase ≠ .error →
      exec (.loadFreq sym) s = .next (s.raise .sequence (s.phase.code.setWidth 16) cmd))

/-- SEAL (R123): PSEUDO_EOF appended if absent, PHASE = TABLE, and SEQUENCE outside FILL. -/
def Obligations.SealClosesTheTable : Prop :=
  ∀ s : State,
    (s.CountInv → s.phase = .fill → s.freqAt 256 = 0#32 →
      ∃ t, exec .sealTable s = .next t ∧
        t.freqAt 256 = 1#32 ∧
        (∀ c, c ≠ 256 → t.freqAt c = s.freqAt c) ∧
        t.nsym.toNat = s.nsym.toNat + 1 ∧
        t.total.toNat = s.total.toNat + 1 ∧
        t.phase = .table ∧
        t = { s with freq := t.freq, total := t.total, nsym := t.nsym, phase := t.phase }) ∧
    (s.phase = .fill → s.freqAt 256 ≠ 0#32 → exec .sealTable s = .next { s with phase := .table }) ∧
    (s.phase ≠ .fill → s.phase ≠ .error →
      exec .sealTable s = .next (s.raise .sequence (s.phase.code.setWidth 16) 0x04000000#32))

/-- R120: after a byte sequence is counted into an empty table and the table sealed, FREQ[v] is the number of times v was
counted, for every byte value, and PSEUDO_EOF has count 1. -/
def Obligations.CountsAreOccurrences : Prop :=
  ∀ (s : State) (str : List Byte), s.CountInv → s.phase = .fill → s.total = 0#32 →
    str.length + 1 ≤ Config.cmax s.width →
    ∃ t, execAll (str.map .count ++ [.sealTable]) s = .next t ∧
      (∀ v : Byte, (t.freqAt v.toNat).toNat = str.count v) ∧
      t.freqAt 256 = 1#32 ∧ t.total.toNat = str.length + 1 ∧ t.phase = .table

/-- R126: loading the header of a sealed table, its pairs in any order, and sealing gives the same table again. -/
def Obligations.HeaderReloadsInAnyOrder : Prop :=
  ∀ (s u : State) (pairs : List (Symbol × Word)),
    s.Inv → s.phase ≠ .fill → s.phase ≠ .error →
    u.Inv → u.phase = .fill → u.total = 0#32 → u.countWidth = s.countWidth →
    pairs.Perm s.header →
    ∃ v, accessAll (pairs.flatMap (fun p => loadF p.1 p.2) ++ [issue .sealTable]) u = .next v ∧
      v.freq = s.freq ∧ v.total = s.total ∧ v.nsym = s.nsym ∧ v.phase = .table

/-! ### Tree builder -/

/-- R140, R145: the single-entry table gets the synthetic root over the PSEUDO_EOF leaf. -/
def Obligations.SingleEntryTableGetsASyntheticRoot : Prop :=
  ∀ s : State, s.phase = .table → s.freqAt 256 = 1#32 → (∀ c, c < 256 → s.freqAt c = 0#32) →
    exec .buildTree s = .next
      { s with
        nodes := [⟨.leaf, 256#9, 1#32, 0x3FF#10, 0x3FF#10⟩, ⟨.internal, 257#9, 1#32, 0#10, 0x3FF#10⟩]
        root := 1#10
        cur := 1#10
        phase := .tree }

/-- R143: a table of n ≥ 2 entries gets n - 1 internal nodes at the indices n to 2n - 2, NNODES = 2n - 1 and ROOT = 2n - 2. -/
def Obligations.TreeOfSeveralEntriesHasItsShape : Prop :=
  ∀ s : State, s.CountInv → s.phase = .table → 2 ≤ s.nsym.toNat →
    ∃ t, exec .buildTree s = .next t ∧
      t.nnodes.toNat = 2 * s.nsym.toNat - 1 ∧
      t.root.toNat = 2 * s.nsym.toNat - 2 ∧
      (∀ k, k < 2 * s.nsym.toNat - 1 → ((nodeAt t.nodes k).kind = .internal ↔ s.nsym.toNat ≤ k)) ∧
      t.cur = t.root ∧ t.phase = .tree ∧
      t = { s with nodes := t.nodes, root := t.root, cur := t.cur, phase := t.phase }

/-- R141: one leaf for each entry, at the indices 0 to n - 1 in ascending symbol order, with the entry's count and no
children. -/
def Obligations.LeavesFollowTheSymbols : Prop :=
  ∀ s t : State, s.CountInv → s.phase = .table → 1 ≤ s.nsym.toNat → exec .buildTree s = .next t →
    t.nodes.take s.nsym.toNat =
      ((List.range 257).filter (fun sym => s.freqAt sym != 0#32)).map
        (fun sym => ⟨.leaf, BitVec.ofNat 9 sym, s.freqAt sym, 0x3FF#10, 0x3FF#10⟩)

/-- R142, R144: every merge takes the two least of the nodes not yet taken, by (count, index), the first as zero-branch and the
second as one-branch, and its node's count is their sum. -/
def Obligations.MergesTakeTheTwoLeast : Prop :=
  ∀ s t : State, s.CountInv → s.phase = .table → 2 ≤ s.nsym.toNat → exec .buildTree s = .next t →
    ∀ k, s.nsym.toNat ≤ k → k < t.nodes.length →
      let nd := nodeAt t.nodes k
      let a := nd.zero.toNat
      let b := nd.one.toNat
      let untaken := fun i => i < k ∧ ∀ j, j < k → ¬ isChildOf t.nodes i j
      nd.sym = 257#9 ∧
      untaken a ∧ untaken b ∧ a ≠ b ∧
      nd.count.toNat = (nodeAt t.nodes a).count.toNat + (nodeAt t.nodes b).count.toNat ∧
      precedes t.nodes a b ∧
      ∀ i, untaken i → i ≠ a → i ≠ b → precedes t.nodes b i

/-- R146 (d): every node but ROOT has exactly one parent, with a higher index, so there is no sharing and no cycle; ROOT has
none. -/
def Obligations.EveryNodeButTheRootHasOneParent : Prop :=
  ∀ s t : State, s.CountInv → s.phase = .table → 1 ≤ s.nsym.toNat → exec .buildTree s = .next t →
    (∀ i, i < t.nodes.length → i ≠ t.root.toNat → ∃ k, i < k ∧ k < t.nodes.length ∧ isChildOf t.nodes i k ∧
      ∀ j, j < t.nodes.length → isChildOf t.nodes i j → j = k) ∧
    (∀ k, k < t.nodes.length → ¬ isChildOf t.nodes t.root.toNat k) ∧
    (∀ k, k < t.nodes.length → (nodeAt t.nodes k).kind = .internal →
      (nodeAt t.nodes k).zero ≠ (nodeAt t.nodes k).one)

/-- R146 (c), and (b) for the synthetic root: ROOT's count is TOTAL, no node's count exceeds it. -/
def Obligations.RootCountIsTheTotal : Prop :=
  ∀ s t : State, s.CountInv → s.phase = .table → 1 ≤ s.nsym.toNat → exec .buildTree s = .next t →
    (nodeAt t.nodes t.root.toNat).count = s.total ∧
    ∀ k, k < t.nodes.length → (nodeAt t.nodes k).count.toNat ≤ s.total.toNat

/-- R146 (f): with n ≥ 2 entries every leaf's depth lies between 1 and n - 1, which is at most 256 (for n = 1 see assumption
log 21). -/
def Obligations.LeafDepthIsBounded : Prop :=
  ∀ s t : State, s.CountInv → s.phase = .table → 2 ≤ s.nsym.toNat → exec .buildTree s = .next t →
    ∀ (path : List Bool) (i : NodeIndex), descend t.nodes path t.root = some i →
      (nodeAt t.nodes i.toNat).kind = .leaf →
      1 ≤ path.length ∧ path.length ≤ s.nsym.toNat - 1 ∧ path.length ≤ 256

/-- R147: BUILD_TREE is a function of FREQ alone. -/
def Obligations.TreeDependsOnTheTableAlone : Prop :=
  ∀ s s' t t' : State, s.CountInv → s'.CountInv → s.phase = .table → s'.phase = .table → s.freq = s'.freq →
    exec .buildTree s = .next t → exec .buildTree s' = .next t' →
    t.nodes = t'.nodes ∧ t.root = t'.root ∧ t.nnodes = t'.nnodes

/-! ### Code-table generator -/

/-- R160, R161: every leaf's code word is its path from ROOT, path bit j at bit j, zero beyond; a symbol not in the table has
no code word. -/
def Obligations.CodeWordsAreTheLeafPaths : Prop :=
  ∀ s : State, s.Inv → s.phase = .tree →
    ∃ t, exec .buildCodes s = .next t ∧
      (∀ (path : List Bool) (i : NodeIndex), descend s.nodes path s.root = some i →
        (s.node i).kind = .leaf →
        (t.codeLenAt (s.node i).sym.toNat).toNat = path.length ∧
        ∀ j, (t.codeBitsAt (s.node i).sym.toNat).getLsbD j = path.getD j false) ∧
      (∀ sym, sym < 257 → s.freqAt sym ≠ 0#32 →
        ∃ path i, descend s.nodes path s.root = some i ∧ (s.node i).kind = .leaf ∧ (s.node i).sym.toNat = sym) ∧
      (∀ sym, sym < 257 → s.freqAt sym = 0#32 → t.codeLenAt sym = 0#9 ∧ t.codeBitsAt sym = 0#256) ∧
      t.phase = .codes ∧
      t = { s with codeLen := t.codeLen, codeBits := t.codeBits, phase := t.phase }

/-- R163: the set of code words is prefix-free, in every phase, ERROR included. -/
def Obligations.CodeWordsArePrefixFree : Prop :=
  ∀ s : State, s.Inv →
    ∀ x y, x < 257 → y < 257 → x ≠ y → s.codeLenAt x ≠ 0#9 → s.codeLenAt y ≠ 0#9 →
      ¬ s.codeWord x <+: s.codeWord y

/-- R164: the Kraft sum of the code words, in units of 2^-256, is 1 for two entries or more and 1/2 for the single entry: in
CODES, ENCODING and ENC_DONE, and in every other phase in which the code table is not empty. -/
def Obligations.KraftSumIsFull : Prop :=
  ∀ s : State, s.Inv → s.phase.hasCodes = true ∨ ¬ s.NoCodes →
    ((List.range 257).map fun sym =>
      if s.codeLenAt sym = 0#9 then 0 else 2 ^ (256 - (s.codeLenAt sym).toNat)).sum =
      if s.nsym = 1#32 then 2 ^ 255 else 2 ^ 256

/-- R165: exactly the symbols of the table have a code word, PSEUDO_EOF among them, and their number is NSYM: in CODES, ENCODING
and ENC_DONE, and in every other phase in which the code table is not empty. Encoding a byte that was never counted is
INCONSISTENT_TABLE. -/
def Obligations.CodedSymbolsAreTheEntries : Prop :=
  ∀ s : State, s.Inv → s.phase.hasCodes = true ∨ ¬ s.NoCodes →
    (∀ sym, sym < 257 → (s.codeLenAt sym ≠ 0#9 ↔ s.freqAt sym ≠ 0#32)) ∧
    (List.range 257).countP (fun sym => s.codeLenAt sym != 0#9) = s.nsym.toNat ∧
    1 ≤ (s.codeLenAt 256).toNat ∧
    ∀ b : Byte, s.freqAt b.toNat = 0#32 → s.phase = .codes ∨ s.phase = .encoding →
      exec (.encodeByte b) s = .next (s.raise .inconsistentTable 0#16 (0x07000000#32 ||| b.setWidth 32))

/-! ### Encoder -/

/-- ENCODE (R180): the code word's bits 0 to L - 1 sent in that order when MATERIALIZE is 1, the counters moved, or
INCONSISTENT_TABLE with nothing sent, and SEQUENCE outside CODES and ENCODING. -/
def Obligations.EncodeSendsTheCodeWord : Prop :=
  ∀ (s : State) (b : Byte),
    let len := (s.codeLenAt b.toNat).toNat
    let cmd := 0x07000000#32 ||| b.setWidth 32
    (s.phase = .codes ∨ s.phase = .encoding → len ≠ 0 →
      ∃ t, exec (.encodeByte b) s = .next t ∧
        (s.materialize = true → t.bitOut = s.bitOut ++
          (List.range len).map (fun j => (s.codeBitsAt b.toNat).getLsbD j)) ∧
        (s.materialize = false → t.bitOut = s.bitOut) ∧
        t.bitCount.toNat = (s.bitCount.toNat + len) % 2 ^ 64 ∧
        t.symCount.toNat = (s.symCount.toNat + 1) % 2 ^ 32 ∧
        t.phase = .encoding ∧
        t = { s with bitOut := t.bitOut, bitCount := t.bitCount, symCount := t.symCount, phase := t.phase }) ∧
    (s.phase = .codes ∨ s.phase = .encoding → len = 0 →
      exec (.encodeByte b) s = .next (s.raise .inconsistentTable 0#16 cmd)) ∧
    (s.phase ≠ .codes → s.phase ≠ .encoding → s.phase ≠ .error →
      exec (.encodeByte b) s = .next (s.raise .sequence (s.phase.code.setWidth 16) cmd))

/-- ENCODE_END (R182): the PSEUDO_EOF code word sent and counted, SYMCOUNT unchanged, PHASE = ENC_DONE, and SEQUENCE outside
CODES and ENCODING. -/
def Obligations.EncodeEndSendsTheEofCodeWord : Prop :=
  ∀ s : State,
    let len := (s.codeLenAt 256).toNat
    (s.phase = .codes ∨ s.phase = .encoding →
      ∃ t, exec .encodeEnd s = .next t ∧
        (s.materialize = true → t.bitOut = s.bitOut ++
          (List.range len).map (fun j => (s.codeBitsAt 256).getLsbD j)) ∧
        (s.materialize = false → t.bitOut = s.bitOut) ∧
        t.bitCount.toNat = (s.bitCount.toNat + len) % 2 ^ 64 ∧
        t.phase = .encDone ∧
        t = { s with bitOut := t.bitOut, bitCount := t.bitCount, phase := t.phase }) ∧
    (s.phase ≠ .codes → s.phase ≠ .encoding → s.phase ≠ .error →
      exec .encodeEnd s = .next (s.raise .sequence (s.phase.code.setWidth 16) 0x08000000#32))

/-- R181: MATERIALIZE decides only what is sent to BIT_OUT; every other effect of every command is the same. -/
def Obligations.MaterializeDecidesOnlyWhatIsSent : Prop :=
  ∀ (i : Instr) (s t : State), exec i s = .next t →
    ∃ t', exec i { s with materialize := !s.materialize } = .next t' ∧
      t' = { t with materialize := !s.materialize, bitOut := t'.bitOut } ∧
      (s.materialize = false → t.bitOut = s.bitOut)

/-- R183: the bit-length law, and the body sent, for the bytes of a sequence that all have code words. -/
def Obligations.BodyIsTheCodeWordsInOrder : Prop :=
  ∀ (s : State) (str : List Byte), s.phase = .codes ∨ s.phase = .encoding →
    (∀ b ∈ str, s.codeLenAt b.toNat ≠ 0#9) →
    ∃ t, execAll (encodeCommands str) s = .next t ∧
      t.phase = .encDone ∧
      t.bitCount = s.bitCount +
        BitVec.ofNat 64 ((str.map fun b => (s.codeLenAt b.toNat).toNat).sum + (s.codeLenAt 256).toNat) ∧
      t.symCount = s.symCount + BitVec.ofNat 32 str.length ∧
      (s.materialize = true → t.bitOut = s.bitOut ++ str.flatMap (fun b => s.codeWord b.toNat) ++ s.codeWord 256) ∧
      (s.materialize = false → t.bitOut = s.bitOut)

/-! ### Decoder -/

/-- DECODE_BIT (R201), one iteration of the walk in TREE, CODES or DECODING; in DEC_DONE it is ignored (R205), and outside
these phases it raises SEQUENCE (R200). -/
def Obligations.DecodeBitWalksOneStep : Prop :=
  ∀ (s : State) (t : Bool),
    let nxt := if t then (s.node s.cur).one else (s.node s.cur).zero
    let cmd := 0x09000000#32 ||| (if t then 1#32 else 0#32)
    (s.phase.mayDescend = true → nxt = 0x3FF#10 →
      exec (.decodeBit t) s = .next (s.raise .corruptedStream 2#16 cmd)) ∧
    (s.phase.mayDescend = true → nxt ≠ 0x3FF#10 → (s.node nxt).kind = .internal →
      exec (.decodeBit t) s = .next { s with bitCount := s.bitCount + 1#64, cur := nxt, phase := .decoding }) ∧
    (s.phase.mayDescend = true → nxt ≠ 0x3FF#10 → (s.node nxt).kind = .leaf → (s.node nxt).sym = 256#9 →
      exec (.decodeBit t) s = .next { s with bitCount := s.bitCount + 1#64, cur := nxt, phase := .decDone }) ∧
    (∀ b : Byte, s.phase.mayDescend = true → nxt ≠ 0x3FF#10 → (s.node nxt).kind = .leaf →
      (s.node nxt).sym.toNat = b.toNat →
      exec (.decodeBit t) s = .next
        { s with
          bitCount := s.bitCount + 1#64
          byteOut := s.byteOut ++ [b]
          symCount := s.symCount + 1#32
          cur := s.root
          phase := .decoding }) ∧
    (s.phase = .decDone → exec (.decodeBit t) s = .next s) ∧
    (s.phase = .fill ∨ s.phase = .table ∨ s.phase = .encoding ∨ s.phase = .encDone →
      exec (.decodeBit t) s = .next (s.raise .sequence (s.phase.code.setWidth 16) cmd))

/-- DECODE_END (R202): nothing in DEC_DONE, CORRUPTED_STREAM detail 1 in TREE, CODES and DECODING wherever CUR stands, and
SEQUENCE in the other phases. -/
def Obligations.DecodeEndDetectsExhaustion : Prop :=
  ∀ s : State,
    (s.phase = .decDone → exec .decodeEnd s = .next s) ∧
    (s.phase.mayDescend = true → exec .decodeEnd s = .next (s.raise .corruptedStream 1#16 0x0A000000#32)) ∧
    (s.phase = .fill ∨ s.phase = .table ∨ s.phase = .encoding ∨ s.phase = .encDone →
      exec .decodeEnd s = .next (s.raise .sequence (s.phase.code.setWidth 16) 0x0A000000#32))

/-- The heart of the round trip (R204's argument): from ROOT, the bits of a real symbol's code word emit that byte and lead
back to ROOT. -/
def Obligations.CodeWordDecodesToItsByte : Prop :=
  ∀ (s : State) (b : Byte), s.Inv → s.phase.mayDescend = true → s.TreeCodes → s.cur = s.root →
    s.codeLenAt b.toNat ≠ 0#9 →
    execAll (decodeCommands (s.codeWord b.toNat)) s = .next
      { s with
        bitCount := s.bitCount + (s.codeLenAt b.toNat).setWidth 64
        byteOut := s.byteOut ++ [b]
        symCount := s.symCount + 1#32
        phase := .decoding }

/-- R204: the body a compress session sends for a byte sequence, delivered bit by bit to a session that holds the same table,
decodes to exactly that sequence and ends in DEC_DONE, where DECODE_END changes nothing. -/
def Obligations.EncodedBodyDecodesBack : Prop :=
  ∀ (s u : State) (str : List Byte), s.Inv → s.phase = .codes → s.materialize = true →
    (∀ b ∈ str, s.freqAt b.toNat ≠ 0#32) →
    u.Inv → u.phase = .tree ∨ u.phase = .codes → u.cur = u.root → u.freq = s.freq →
    ∃ t body v, execAll (encodeCommands str) s = .next t ∧ t.phase = .encDone ∧ t.bitOut = s.bitOut ++ body ∧
      execAll (decodeCommands body) u = .next v ∧ v.phase = .decDone ∧
      v.byteOut = u.byteOut ++ str ∧
      v.bitCount = u.bitCount + BitVec.ofNat 64 body.length ∧
      v.symCount = u.symCount + BitVec.ofNat 32 str.length ∧
      exec .decodeEnd v = .next v

/-- R206: take the body a compress session sends for a byte sequence, and deliver any proper prefix of it, followed by DECODE_END,
to a session that holds the same table, decoding from TREE or from CODES: it ends in ERROR with CORRUPTED_STREAM, detail 1. -/
def Obligations.TruncationIsDetected : Prop :=
  ∀ (s t u : State) (str : List Byte) (part rest : List Bool), s.Inv → s.phase = .codes → s.materialize = true →
    (∀ b ∈ str, s.freqAt b.toNat ≠ 0#32) →
    execAll (encodeCommands str) s = .next t → t.bitOut = s.bitOut ++ (part ++ rest) → rest ≠ [] →
    u.Inv → u.phase = .tree ∨ u.phase = .codes → u.cur = u.root → u.freq = s.freq →
    ∃ v, execAll (decodeCommands part ++ [.decodeEnd]) u = .next v ∧
      v.phase = .error ∧ v.err = .corruptedStream ∧ v.errDetail = 1#16 ∧ v.errCmd = 0x0A000000#32

/-! ### Control -/

/-- NOP (R220): nothing changes, in any phase. -/
def Obligations.NopChangesNothing : Prop := ∀ s : State, exec .nop s = .next s

/-- CLEAR (R221), in every phase: every register and window reads as after reset, but CTRL, ARG and PARAMS, which are unchanged
as the two traces and the host's side are. -/
def Obligations.ClearStartsANewSession : Prop :=
  ∀ s : State, ∃ t, exec .clear s = .next t ∧
    (∀ a : Addr, a ≠ 0x0004#16 → a ≠ 0x0010#16 → a ≠ 0x003C#16 → t.readWord a = State.reset.readWord a) ∧
    (∀ a : Addr, a = 0x0004#16 ∨ a = 0x0010#16 ∨ a = 0x003C#16 → t.readWord a = s.readWord a) ∧
    t.phase = .fill ∧ t.bitOut = s.bitOut ∧ t.byteOut = s.byteOut ∧
    t.pending = s.pending ∧ t.resetIn = s.resetIn ∧ t.response = s.response

/-! ### Errors -/

/-- Error entry as the host sees it (R246): STATUS.ERR, ERRDETAIL, ERRCMD and PHASE = ERROR; every other offset reads as
before. -/
def Obligations.ErrorEntryWritesFourFields : Prop :=
  ∀ (s : State) (e : ErrCode) (detail : BitVec 16) (cmd : Word),
    let t := s.raise e detail cmd
    (t.readWord 0x0008#16).extractLsb' 8 4 = e.code ∧
    (t.readWord 0x0008#16).extractLsb' 0 4 = 15#4 ∧
    t.readWord 0x0018#16 = detail.setWidth 32 ∧
    t.readWord 0x0014#16 = cmd ∧
    (∀ a : Addr, a ≠ 0x0008#16 → a ≠ 0x0018#16 → a ≠ 0x0014#16 → t.readWord a = s.readWord a) ∧
    t = { s with err := t.err, errDetail := t.errDetail, errCmd := t.errCmd, phase := t.phase }

/-- R247: errors are precise. A command word that leads into ERROR changes nothing but ERR, ERRDETAIL, ERRCMD and PHASE. -/
def Obligations.ErrorsArePrecise : Prop :=
  ∀ (w : Word) (s t : State), s.phase ≠ .error → command w s = .next t → t.phase = .error →
    t = { s with err := t.err, errDetail := t.errDetail, errCmd := t.errCmd, phase := .error } ∧ t.errCmd = w ∧
      t.err ≠ .none

/-- R249: in ERROR every word but CLEAR is ignored, legal or not; bus reads and CTRL and ARG writes work as ever. -/
def Obligations.ErrorIgnoresAllButClear : Prop :=
  ∀ s : State, s.phase = .error →
    (∀ w : Word, w ≠ 0x01000000#32 → command w s = .next s) ∧
    (∀ a : Addr, a.toNat % 4 = 0 → access (.read a 4) s = .next { s with response := .readData (s.readWord a) }) ∧
    (∀ v : Word, access (.write 0x0004#16 4 v) s =
      .next { s with materialize := v.getLsbD 0, response := .writeDone }) ∧
    (∀ v : Word, access (.write 0x0010#16 4 v) s = .next { s with arg := v, response := .writeDone })

/-- R248: only CLEAR and reset leave ERROR, and both lead to FILL. -/
def Obligations.OnlyClearAndResetLeaveError : Prop :=
  ∀ s t : State, s.phase = .error → step s = .next t → t.phase ≠ .error →
    t.phase = .fill ∧
    (s.resetIn.head? = some true ∨ ∃ rest, s.pending = .write 0x000C#16 4 0x01000000#32 :: rest)

/-- R244: the legality table. A command in a phase the table does not give it raises SEQUENCE with PHASE as detail; in a phase
the table gives it, it does not; in ERROR only CLEAR acts. -/
def Obligations.LegalityTable : Prop :=
  ∀ (i : Instr) (s : State),
    let phases : List Phase := match i.mnemonic with
      | .NOP => [.fill, .table, .tree, .codes, .encoding, .encDone, .decoding, .decDone]
      | .CLEAR => [.fill, .table, .tree, .codes, .encoding, .encDone, .decoding, .decDone]
      | .COUNT => [.fill]
      | .LOAD_FREQ => [.fill]
      | .SEAL => [.fill]
      | .BUILD_TREE => [.table]
      | .BUILD_CODES => [.tree]
      | .ENCODE => [.codes, .encoding]
      | .ENCODE_END => [.codes, .encoding]
      | .DECODE_BIT => [.tree, .codes, .decoding, .decDone]
      | .DECODE_END => [.tree, .codes, .decoding, .decDone]
    (s.phase ≠ .error → s.phase ∉ phases →
      exec i s = .next (s.raise .sequence (s.phase.code.setWidth 16) (encode i))) ∧
    (s.phase ∈ phases → ∀ t, exec i s = .next t → t.err = .sequence → s.err = .sequence) ∧
    (s.phase = .error → exec i s = if i.mnemonic = .CLEAR then .next s.cleared else .next s)

/-! ### Whole-machine rules -/

/-- R24, column "entered by": the phase changes to each of its values only by the command named there (or reset, for FILL; any
error, for ERROR). -/
def Obligations.PhasesAreEnteredByTheirCommands : Prop :=
  ∀ s t : State, step s = .next t → t.phase ≠ s.phase → s.resetIn.head? ≠ some true →
    ∃ w rest, s.pending = .write 0x000C#16 4 w :: rest ∧
      match t.phase with
      | .fill => decode w = .ok .clear
      | .table => decode w = .ok .sealTable
      | .tree => decode w = .ok .buildTree
      | .codes => decode w = .ok .buildCodes
      | .encoding => ∃ b, decode w = .ok (.encodeByte b)
      | .encDone => decode w = .ok .encodeEnd
      | .decoding => ∃ b, decode w = .ok (.decodeBit b)
      | .decDone => ∃ b, decode w = .ok (.decodeBit b)
      | .error => t.errCmd = w ∧ t.err ≠ .none

/-- Which command may write which register, table or trace (the "State written" lines of R121 to R123, R140, R160, R180, R182,
R200, R202, R220, R221): every other one is left as it was. -/
def Obligations.CommandsWriteOnlyTheirOwnState : Prop :=
  ∀ (i : Instr) (s t : State), exec i s = .next t →
    (i.mnemonic ∉ [Mnemonic.COUNT, .LOAD_FREQ, .SEAL, .CLEAR] →
      t.freq = s.freq ∧ t.total = s.total ∧ t.nsym = s.nsym) ∧
    (i.mnemonic ∉ [Mnemonic.BUILD_TREE, .CLEAR] → t.nodes = s.nodes ∧ t.root = s.root) ∧
    (i.mnemonic ∉ [Mnemonic.BUILD_TREE, .DECODE_BIT, .CLEAR] → t.cur = s.cur) ∧
    (i.mnemonic ∉ [Mnemonic.BUILD_CODES, .CLEAR] → t.codeLen = s.codeLen ∧ t.codeBits = s.codeBits) ∧
    (i.mnemonic ∉ [Mnemonic.ENCODE, .ENCODE_END] → t.bitOut = s.bitOut) ∧
    (i.mnemonic ∉ [Mnemonic.DECODE_BIT] → t.byteOut = s.byteOut) ∧
    (i.mnemonic ∉ [Mnemonic.ENCODE, .ENCODE_END, .DECODE_BIT, .CLEAR] → t.bitCount = s.bitCount) ∧
    (i.mnemonic ∉ [Mnemonic.ENCODE, .DECODE_BIT, .CLEAR] → t.symCount = s.symCount) ∧
    t.arg = s.arg ∧ t.materialize = s.materialize ∧ t.countWidth = s.countWidth ∧
    t.pending = s.pending ∧ t.resetIn = s.resetIn ∧ t.response = s.response

/-- R44: the traces are append-only: no access, not even a CLEAR, removes or changes an element already sent. -/
def Obligations.TracesAreAppendOnly : Prop :=
  ∀ s t : State, s.resetIn.head? ≠ some true → step s = .next t →
    s.bitOut <+: t.bitOut ∧ s.byteOut <+: t.byteOut

/-- R21, R22, R28, R37: ID and PARAMS never change; CTRL and ARG change only by a write to them or by reset. -/
def Obligations.HostRegistersChangeOnlyByTheirWrites : Prop :=
  ∀ s t : State, step s = .next t →
    t.readWord 0x0000#16 = 0x48554646#32 ∧
    t.countWidth = s.countWidth ∧
    (s.resetIn.head? ≠ some true → t.materialize ≠ s.materialize →
      ∃ v rest, s.pending = .write 0x0004#16 4 v :: rest ∧ t.materialize = v.getLsbD 0) ∧
    (s.resetIn.head? ≠ some true → t.arg ≠ s.arg →
      ∃ rest, s.pending = .write 0x0010#16 4 t.arg :: rest)

/-- R281: no command can hang, the output sinks being assumed to accept every bit and byte (the model's choice, assumption log
8; R281 names the sink that never accepts as its one exception). Every step answers a next state. -/
def Obligations.EveryStepAnswersANextState : Prop := ∀ s : State, ∃ t, step s = .next t

/-- R46 with R26: the invariants between commands are kept by every step, whatever the host does. -/
def Obligations.InvariantsAreKeptByEveryStep : Prop :=
  ∀ s t : State, s.Inv → step s = .next t → t.Inv

/-- The invariants hold after reset, for every COUNT_WIDTH of R8. -/
def Obligations.InvariantsHoldAfterReset : Prop :=
  ∀ w : BitVec 6, 1 ≤ w.toNat → w.toNat ≤ 32 → (State.resetWith w).Inv

/-! ### The step, reset and the bus -/

/-- A command word that decodes runs as its instruction, the access being taken from what is pending (R73, R245). The
queue and the response are the model's own (assumption log 2, 3, 4). -/
def Obligations.StepRunsTheDecodedCommand : Prop :=
  ∀ (s : State) (w : Word) (rest : List BusAccess) (i : Instr),
    s.resetIn.head? ≠ some true → s.pending = .write 0x000C#16 4 w :: rest → decode w = .ok i →
    step s = exec i { s with pending := rest, resetIn := s.resetIn.tail, response := .writeDone }

/-- R270: while reset is asserted no access is accepted, and every register and window takes its reset value, the traces
empty. PARAMS keeps COUNT_WIDTH. -/
def Obligations.ResetGivesTheResetState : Prop :=
  ∀ s : State, s.resetIn.head? = some true →
    ∃ t, step s = .next t ∧ t.pending = s.pending ∧
      (∀ a : Addr, a ≠ 0x003C#16 → t.readWord a = State.reset.readWord a) ∧
      t.readWord 0x003C#16 = s.readWord 0x003C#16 ∧
      t.bitOut = [] ∧ t.byteOut = []

/-- The reset values of R50 as the host reads them, with COUNT_WIDTH 32 (the model's choice of instance, assumption log 1). -/
def Obligations.ResetRegistersRead : Prop :=
  State.reset.readWord 0x0000#16 = 0x48554646#32 ∧ State.reset.readWord 0x0004#16 = 1#32 ∧
    State.reset.readWord 0x0008#16 = 0x30#32 ∧ State.reset.readWord 0x0010#16 = 0#32 ∧
    State.reset.readWord 0x0028#16 = 0x3FF#32 ∧ State.reset.readWord 0x002C#16 = 0x3FF#32 ∧
    State.reset.readWord 0x003C#16 = 32#32 ∧
    ∀ a : Addr, 0x0040 ≤ a.toNat → State.reset.readWord a = 0#32

/-- R72, R74: a read answers the word of R71 and changes nothing; a read that is not an aligned 4-byte one answers a bus error
and 0. The queue and the response are the model's own (assumption log 2, 4). -/
def Obligations.ReadsHaveNoSideEffect : Prop :=
  ∀ (s : State) (a : Addr) (size : Nat) (rest : List BusAccess),
    s.resetIn.head? ≠ some true → s.pending = .read a size :: rest →
    ∃ t, step s = .next t ∧
      t = { s with pending := rest, resetIn := s.resetIn.tail, response := t.response } ∧
      (size = 4 ∧ a.toNat % 4 = 0 → t.response = .readData (s.readWord a)) ∧
      (¬ (size = 4 ∧ a.toNat % 4 = 0) → t.response = .readError 0#32)

/-- R73, R74, R75: a write acts by its offset: CTRL takes bit 0, ARG all 32 bits, CMD executes the word; a write to any other
offset, and one that is not an aligned 4-byte write, changes nothing. -/
def Obligations.WritesActByOffset : Prop :=
  ∀ (s : State) (a : Addr) (size : Nat) (v : Word),
    (size = 4 → a = 0x0004#16 →
      access (.write a size v) s = .next { s with materialize := v.getLsbD 0, response := .writeDone }) ∧
    (size = 4 → a = 0x0010#16 →
      access (.write a size v) s = .next { s with arg := v, response := .writeDone }) ∧
    (size = 4 → a = 0x000C#16 →
      access (.write a size v) s = command v { s with response := .writeDone }) ∧
    (size = 4 → a.toNat % 4 = 0 → a ≠ 0x0004#16 → a ≠ 0x0010#16 → a ≠ 0x000C#16 →
      access (.write a size v) s = .next { s with response := .writeDone }) ∧
    (¬ (size = 4 ∧ a.toNat % 4 = 0) → access (.write a size v) s = .next { s with response := .writeError })

/-- R71: the register space map, with its windows and unmapped ranges (R75). -/
def Obligations.RegisterSpaceMap : Prop :=
  ∀ s : State,
    (s.readWord 0x0000#16 = 0x48554646#32 ∧ s.readWord 0x0004#16 = (if s.materialize then 1#32 else 0#32) ∧
      s.readWord 0x0008#16 = s.status ∧ s.readWord 0x000C#16 = 0#32 ∧ s.readWord 0x0010#16 = s.arg ∧
      s.readWord 0x0014#16 = s.errCmd ∧ (s.readWord 0x0018#16).toNat = s.errDetail.toNat ∧
      s.readWord 0x001C#16 = s.total ∧ s.readWord 0x0020#16 = s.nsym ∧
      (s.readWord 0x0024#16).toNat = s.nodes.length % 2 ^ 32 ∧
      (s.readWord 0x0028#16).toNat = s.root.toNat ∧ (s.readWord 0x002C#16).toNat = s.cur.toNat ∧
      (s.readWord 0x0034#16) ++ (s.readWord 0x0030#16) = s.bitCount ∧ s.readWord 0x0038#16 = s.symCount ∧
      (s.readWord 0x003C#16).toNat = s.countWidth.toNat) ∧
    (∀ k, k ≤ 1023 → s.readWord (BitVec.ofNat 16 (0x1000 + 4 * k)) = if k ≤ 256 then s.freqAt k else 0#32) ∧
    (∀ k, k ≤ 1023 → (s.readWord (BitVec.ofNat 16 (0x2000 + 4 * k))).toNat =
      if k ≤ 256 then (s.codeLenAt k).toNat else 0) ∧
    (∀ k w, k ≤ 511 → w ≤ 7 → ∀ j, j < 32 → (s.readWord (BitVec.ofNat 16 (0x4000 + 32 * k + 4 * w))).getLsbD j =
      if k ≤ 256 then (s.codeBitsAt k).getLsbD (32 * w + j) else false) ∧
    (∀ i, i ≤ 1023 → s.readWord (BitVec.ofNat 16 (0x8000 + 8 * i)) = s.nodeA i ∧
      s.readWord (BitVec.ofNat 16 (0x8000 + 8 * i + 4)) = s.nodeB i) ∧
    (∀ a : Addr, (0x0040 ≤ a.toNat ∧ a.toNat < 0x1000) ∨ (0x3000 ≤ a.toNat ∧ a.toNat < 0x4000) ∨ 0xA000 ≤ a.toNat →
      s.readWord a = 0#32)

/-- R85: the node window words, field by field; 0 at and beyond NNODES. -/
def Obligations.NodeWindowWords : Prop :=
  ∀ (s : State) (i : Nat),
    (i < s.nodes.length →
      (s.nodeA i).extractLsb' 31 1 = (if (nodeAt s.nodes i).kind = .internal then 1#1 else 0#1) ∧
      (s.nodeA i).extractLsb' 29 2 = 0#2 ∧
      (s.nodeA i).extractLsb' 20 9 = (nodeAt s.nodes i).sym ∧
      (s.nodeA i).extractLsb' 10 10 = (nodeAt s.nodes i).one ∧
      (s.nodeA i).extractLsb' 0 10 = (nodeAt s.nodes i).zero ∧
      s.nodeB i = (nodeAt s.nodes i).count) ∧
    (s.nodes.length ≤ i → s.nodeA i = 0#32 ∧ s.nodeB i = 0#32)

/-- R23 to R25 and R241: the fields of STATUS, with the number of every phase and of every error, and DSTATE from PHASE, CUR and
ROOT. -/
def Obligations.StatusFields : Prop :=
  ∀ s : State,
    s.status.extractLsb' 0 4 =
      (match s.phase with
       | .fill => 0#4 | .table => 1#4 | .tree => 2#4 | .codes => 3#4 | .encoding => 4#4 | .encDone => 5#4
       | .decoding => 6#4 | .decDone => 7#4 | .error => 15#4) ∧
    s.status.extractLsb' 4 2 =
      (if s.phase = .tree ∨ s.phase = .codes ∨ s.phase = .decoding then (if s.cur = s.root then 0#2 else 1#2)
       else if s.phase = .decDone then 2#2 else 3#2) ∧
    s.status.extractLsb' 6 2 = 0#2 ∧
    s.status.extractLsb' 8 4 =
      (match s.err with
       | .none => 0#4 | .corruptedStream => 1#4 | .inconsistentTable => 2#4 | .illegalCommand => 3#4 | .sequence => 4#4
       | .badTable => 5#4 | .countOverflow => 6#4) ∧
    s.status.extractLsb' 12 20 = 0#20

/-! ### The assembler -/

/-- R107: what each written command encodes to, with the range of its operand; a command line whose operand is missing,
superfluous or out of range is rejected, never truncated; and the word decodes to that mnemonic with that operand. -/
def Obligations.AssemblerNeverTruncates : Prop :=
  ∀ c : AsmCommand,
    assemble c =
      (match c.mnemonic, c.operand with
       | .NOP, none => some 0x00000000#32
       | .CLEAR, none => some 0x01000000#32
       | .COUNT, some b => if b ≤ 255 then some (0x02000000#32 ||| BitVec.ofNat 32 b) else none
       | .LOAD_FREQ, some s => if s ≤ 511 then some (0x03000000#32 ||| BitVec.ofNat 32 s) else none
       | .SEAL, none => some 0x04000000#32
       | .BUILD_TREE, none => some 0x05000000#32
       | .BUILD_CODES, none => some 0x06000000#32
       | .ENCODE, some b => if b ≤ 255 then some (0x07000000#32 ||| BitVec.ofNat 32 b) else none
       | .ENCODE_END, none => some 0x08000000#32
       | .DECODE_BIT, some t => if t = 0 ∨ t = 1 then some (0x09000000#32 ||| BitVec.ofNat 32 t) else none
       | .DECODE_END, none => some 0x0A000000#32
       | _, _ => none) ∧
    ∀ w, assemble c = some w →
      ∃ i, decode w = .ok i ∧ i.mnemonic = c.mnemonic ∧ i.operandValue = c.operand.getD 0
end

