-- ==== Sys2Proof/Laws/State.lean ====
section
/-! SUPPORT. For each named update of the state, what each field is after it: one lemma per field, true by rfl. -/

namespace Sys2Proof.Machine

variable (s : State)

/-! ### `addCount` -/

@[simp] theorem State.addCount_countWidth (sym c : Nat) : (s.addCount sym c).countWidth = s.countWidth := rfl
@[simp] theorem State.addCount_materialize (sym c : Nat) : (s.addCount sym c).materialize = s.materialize := rfl
@[simp] theorem State.addCount_arg (sym c : Nat) : (s.addCount sym c).arg = s.arg := rfl
@[simp] theorem State.addCount_phase (sym c : Nat) : (s.addCount sym c).phase = s.phase := rfl
@[simp] theorem State.addCount_err (sym c : Nat) : (s.addCount sym c).err = s.err := rfl
@[simp] theorem State.addCount_errCmd (sym c : Nat) : (s.addCount sym c).errCmd = s.errCmd := rfl
@[simp] theorem State.addCount_errDetail (sym c : Nat) : (s.addCount sym c).errDetail = s.errDetail := rfl
@[simp] theorem State.addCount_root (sym c : Nat) : (s.addCount sym c).root = s.root := rfl
@[simp] theorem State.addCount_cur (sym c : Nat) : (s.addCount sym c).cur = s.cur := rfl
@[simp] theorem State.addCount_bitCount (sym c : Nat) : (s.addCount sym c).bitCount = s.bitCount := rfl
@[simp] theorem State.addCount_symCount (sym c : Nat) : (s.addCount sym c).symCount = s.symCount := rfl
@[simp] theorem State.addCount_nodes (sym c : Nat) : (s.addCount sym c).nodes = s.nodes := rfl
@[simp] theorem State.addCount_codeLen (sym c : Nat) : (s.addCount sym c).codeLen = s.codeLen := rfl
@[simp] theorem State.addCount_codeBits (sym c : Nat) : (s.addCount sym c).codeBits = s.codeBits := rfl
@[simp] theorem State.addCount_bitOut (sym c : Nat) : (s.addCount sym c).bitOut = s.bitOut := rfl
@[simp] theorem State.addCount_byteOut (sym c : Nat) : (s.addCount sym c).byteOut = s.byteOut := rfl
@[simp] theorem State.addCount_pending (sym c : Nat) : (s.addCount sym c).pending = s.pending := rfl
@[simp] theorem State.addCount_resetIn (sym c : Nat) : (s.addCount sym c).resetIn = s.resetIn := rfl
@[simp] theorem State.addCount_response (sym c : Nat) : (s.addCount sym c).response = s.response := rfl

/-! ### `installTree` -/

@[simp] theorem State.installTree_countWidth (ns : List Node) (r : NodeIndex) : (s.installTree ns r).countWidth = s.countWidth := rfl
@[simp] theorem State.installTree_materialize (ns : List Node) (r : NodeIndex) : (s.installTree ns r).materialize = s.materialize := rfl
@[simp] theorem State.installTree_arg (ns : List Node) (r : NodeIndex) : (s.installTree ns r).arg = s.arg := rfl
@[simp] theorem State.installTree_phase (ns : List Node) (r : NodeIndex) : (s.installTree ns r).phase = .tree := rfl
@[simp] theorem State.installTree_err (ns : List Node) (r : NodeIndex) : (s.installTree ns r).err = s.err := rfl
@[simp] theorem State.installTree_errCmd (ns : List Node) (r : NodeIndex) : (s.installTree ns r).errCmd = s.errCmd := rfl
@[simp] theorem State.installTree_errDetail (ns : List Node) (r : NodeIndex) : (s.installTree ns r).errDetail = s.errDetail := rfl
@[simp] theorem State.installTree_total (ns : List Node) (r : NodeIndex) : (s.installTree ns r).total = s.total := rfl
@[simp] theorem State.installTree_nsym (ns : List Node) (r : NodeIndex) : (s.installTree ns r).nsym = s.nsym := rfl
@[simp] theorem State.installTree_root (ns : List Node) (r : NodeIndex) : (s.installTree ns r).root = r := rfl
@[simp] theorem State.installTree_cur (ns : List Node) (r : NodeIndex) : (s.installTree ns r).cur = r := rfl
@[simp] theorem State.installTree_bitCount (ns : List Node) (r : NodeIndex) : (s.installTree ns r).bitCount = s.bitCount := rfl
@[simp] theorem State.installTree_symCount (ns : List Node) (r : NodeIndex) : (s.installTree ns r).symCount = s.symCount := rfl
@[simp] theorem State.installTree_freq (ns : List Node) (r : NodeIndex) : (s.installTree ns r).freq = s.freq := rfl
@[simp] theorem State.installTree_nodes (ns : List Node) (r : NodeIndex) : (s.installTree ns r).nodes = ns := rfl
@[simp] theorem State.installTree_codeLen (ns : List Node) (r : NodeIndex) : (s.installTree ns r).codeLen = s.codeLen := rfl
@[simp] theorem State.installTree_codeBits (ns : List Node) (r : NodeIndex) : (s.installTree ns r).codeBits = s.codeBits := rfl
@[simp] theorem State.installTree_bitOut (ns : List Node) (r : NodeIndex) : (s.installTree ns r).bitOut = s.bitOut := rfl
@[simp] theorem State.installTree_byteOut (ns : List Node) (r : NodeIndex) : (s.installTree ns r).byteOut = s.byteOut := rfl
@[simp] theorem State.installTree_pending (ns : List Node) (r : NodeIndex) : (s.installTree ns r).pending = s.pending := rfl
@[simp] theorem State.installTree_resetIn (ns : List Node) (r : NodeIndex) : (s.installTree ns r).resetIn = s.resetIn := rfl
@[simp] theorem State.installTree_response (ns : List Node) (r : NodeIndex) : (s.installTree ns r).response = s.response := rfl

/-! ### `recordCode` -/

@[simp] theorem State.recordCode_countWidth (sym : Symbol) (path : List Bool) : (s.recordCode sym path).countWidth = s.countWidth := rfl
@[simp] theorem State.recordCode_materialize (sym : Symbol) (path : List Bool) : (s.recordCode sym path).materialize = s.materialize := rfl
@[simp] theorem State.recordCode_arg (sym : Symbol) (path : List Bool) : (s.recordCode sym path).arg = s.arg := rfl
@[simp] theorem State.recordCode_phase (sym : Symbol) (path : List Bool) : (s.recordCode sym path).phase = s.phase := rfl
@[simp] theorem State.recordCode_err (sym : Symbol) (path : List Bool) : (s.recordCode sym path).err = s.err := rfl
@[simp] theorem State.recordCode_errCmd (sym : Symbol) (path : List Bool) : (s.recordCode sym path).errCmd = s.errCmd := rfl
@[simp] theorem State.recordCode_errDetail (sym : Symbol) (path : List Bool) : (s.recordCode sym path).errDetail = s.errDetail := rfl
@[simp] theorem State.recordCode_total (sym : Symbol) (path : List Bool) : (s.recordCode sym path).total = s.total := rfl
@[simp] theorem State.recordCode_nsym (sym : Symbol) (path : List Bool) : (s.recordCode sym path).nsym = s.nsym := rfl
@[simp] theorem State.recordCode_root (sym : Symbol) (path : List Bool) : (s.recordCode sym path).root = s.root := rfl
@[simp] theorem State.recordCode_cur (sym : Symbol) (path : List Bool) : (s.recordCode sym path).cur = s.cur := rfl
@[simp] theorem State.recordCode_bitCount (sym : Symbol) (path : List Bool) : (s.recordCode sym path).bitCount = s.bitCount := rfl
@[simp] theorem State.recordCode_symCount (sym : Symbol) (path : List Bool) : (s.recordCode sym path).symCount = s.symCount := rfl
@[simp] theorem State.recordCode_freq (sym : Symbol) (path : List Bool) : (s.recordCode sym path).freq = s.freq := rfl
@[simp] theorem State.recordCode_nodes (sym : Symbol) (path : List Bool) : (s.recordCode sym path).nodes = s.nodes := rfl
@[simp] theorem State.recordCode_bitOut (sym : Symbol) (path : List Bool) : (s.recordCode sym path).bitOut = s.bitOut := rfl
@[simp] theorem State.recordCode_byteOut (sym : Symbol) (path : List Bool) : (s.recordCode sym path).byteOut = s.byteOut := rfl
@[simp] theorem State.recordCode_pending (sym : Symbol) (path : List Bool) : (s.recordCode sym path).pending = s.pending := rfl
@[simp] theorem State.recordCode_resetIn (sym : Symbol) (path : List Bool) : (s.recordCode sym path).resetIn = s.resetIn := rfl
@[simp] theorem State.recordCode_response (sym : Symbol) (path : List Bool) : (s.recordCode sym path).response = s.response := rfl

/-! ### `enter` -/

@[simp] theorem State.enter_countWidth (p : Phase) : (s.enter p).countWidth = s.countWidth := rfl
@[simp] theorem State.enter_materialize (p : Phase) : (s.enter p).materialize = s.materialize := rfl
@[simp] theorem State.enter_arg (p : Phase) : (s.enter p).arg = s.arg := rfl
@[simp] theorem State.enter_phase (p : Phase) : (s.enter p).phase = p := rfl
@[simp] theorem State.enter_err (p : Phase) : (s.enter p).err = s.err := rfl
@[simp] theorem State.enter_errCmd (p : Phase) : (s.enter p).errCmd = s.errCmd := rfl
@[simp] theorem State.enter_errDetail (p : Phase) : (s.enter p).errDetail = s.errDetail := rfl
@[simp] theorem State.enter_total (p : Phase) : (s.enter p).total = s.total := rfl
@[simp] theorem State.enter_nsym (p : Phase) : (s.enter p).nsym = s.nsym := rfl
@[simp] theorem State.enter_root (p : Phase) : (s.enter p).root = s.root := rfl
@[simp] theorem State.enter_cur (p : Phase) : (s.enter p).cur = s.cur := rfl
@[simp] theorem State.enter_bitCount (p : Phase) : (s.enter p).bitCount = s.bitCount := rfl
@[simp] theorem State.enter_symCount (p : Phase) : (s.enter p).symCount = s.symCount := rfl
@[simp] theorem State.enter_freq (p : Phase) : (s.enter p).freq = s.freq := rfl
@[simp] theorem State.enter_nodes (p : Phase) : (s.enter p).nodes = s.nodes := rfl
@[simp] theorem State.enter_codeLen (p : Phase) : (s.enter p).codeLen = s.codeLen := rfl
@[simp] theorem State.enter_codeBits (p : Phase) : (s.enter p).codeBits = s.codeBits := rfl
@[simp] theorem State.enter_bitOut (p : Phase) : (s.enter p).bitOut = s.bitOut := rfl
@[simp] theorem State.enter_byteOut (p : Phase) : (s.enter p).byteOut = s.byteOut := rfl
@[simp] theorem State.enter_pending (p : Phase) : (s.enter p).pending = s.pending := rfl
@[simp] theorem State.enter_resetIn (p : Phase) : (s.enter p).resetIn = s.resetIn := rfl
@[simp] theorem State.enter_response (p : Phase) : (s.enter p).response = s.response := rfl

/-! ### `moveTo` -/

@[simp] theorem State.moveTo_countWidth (i : NodeIndex) : (s.moveTo i).countWidth = s.countWidth := rfl
@[simp] theorem State.moveTo_materialize (i : NodeIndex) : (s.moveTo i).materialize = s.materialize := rfl
@[simp] theorem State.moveTo_arg (i : NodeIndex) : (s.moveTo i).arg = s.arg := rfl
@[simp] theorem State.moveTo_phase (i : NodeIndex) : (s.moveTo i).phase = s.phase := rfl
@[simp] theorem State.moveTo_err (i : NodeIndex) : (s.moveTo i).err = s.err := rfl
@[simp] theorem State.moveTo_errCmd (i : NodeIndex) : (s.moveTo i).errCmd = s.errCmd := rfl
@[simp] theorem State.moveTo_errDetail (i : NodeIndex) : (s.moveTo i).errDetail = s.errDetail := rfl
@[simp] theorem State.moveTo_total (i : NodeIndex) : (s.moveTo i).total = s.total := rfl
@[simp] theorem State.moveTo_nsym (i : NodeIndex) : (s.moveTo i).nsym = s.nsym := rfl
@[simp] theorem State.moveTo_root (i : NodeIndex) : (s.moveTo i).root = s.root := rfl
@[simp] theorem State.moveTo_cur (i : NodeIndex) : (s.moveTo i).cur = i := rfl
@[simp] theorem State.moveTo_bitCount (i : NodeIndex) : (s.moveTo i).bitCount = s.bitCount := rfl
@[simp] theorem State.moveTo_symCount (i : NodeIndex) : (s.moveTo i).symCount = s.symCount := rfl
@[simp] theorem State.moveTo_freq (i : NodeIndex) : (s.moveTo i).freq = s.freq := rfl
@[simp] theorem State.moveTo_nodes (i : NodeIndex) : (s.moveTo i).nodes = s.nodes := rfl
@[simp] theorem State.moveTo_codeLen (i : NodeIndex) : (s.moveTo i).codeLen = s.codeLen := rfl
@[simp] theorem State.moveTo_codeBits (i : NodeIndex) : (s.moveTo i).codeBits = s.codeBits := rfl
@[simp] theorem State.moveTo_bitOut (i : NodeIndex) : (s.moveTo i).bitOut = s.bitOut := rfl
@[simp] theorem State.moveTo_byteOut (i : NodeIndex) : (s.moveTo i).byteOut = s.byteOut := rfl
@[simp] theorem State.moveTo_pending (i : NodeIndex) : (s.moveTo i).pending = s.pending := rfl
@[simp] theorem State.moveTo_resetIn (i : NodeIndex) : (s.moveTo i).resetIn = s.resetIn := rfl
@[simp] theorem State.moveTo_response (i : NodeIndex) : (s.moveTo i).response = s.response := rfl

/-! ### `countSymbol` -/

@[simp] theorem State.countSymbol_countWidth : (s.countSymbol).countWidth = s.countWidth := rfl
@[simp] theorem State.countSymbol_materialize : (s.countSymbol).materialize = s.materialize := rfl
@[simp] theorem State.countSymbol_arg : (s.countSymbol).arg = s.arg := rfl
@[simp] theorem State.countSymbol_phase : (s.countSymbol).phase = s.phase := rfl
@[simp] theorem State.countSymbol_err : (s.countSymbol).err = s.err := rfl
@[simp] theorem State.countSymbol_errCmd : (s.countSymbol).errCmd = s.errCmd := rfl
@[simp] theorem State.countSymbol_errDetail : (s.countSymbol).errDetail = s.errDetail := rfl
@[simp] theorem State.countSymbol_total : (s.countSymbol).total = s.total := rfl
@[simp] theorem State.countSymbol_nsym : (s.countSymbol).nsym = s.nsym := rfl
@[simp] theorem State.countSymbol_root : (s.countSymbol).root = s.root := rfl
@[simp] theorem State.countSymbol_cur : (s.countSymbol).cur = s.cur := rfl
@[simp] theorem State.countSymbol_bitCount : (s.countSymbol).bitCount = s.bitCount := rfl
@[simp] theorem State.countSymbol_symCount : (s.countSymbol).symCount = s.symCount + 1#32 := rfl
@[simp] theorem State.countSymbol_freq : (s.countSymbol).freq = s.freq := rfl
@[simp] theorem State.countSymbol_nodes : (s.countSymbol).nodes = s.nodes := rfl
@[simp] theorem State.countSymbol_codeLen : (s.countSymbol).codeLen = s.codeLen := rfl
@[simp] theorem State.countSymbol_codeBits : (s.countSymbol).codeBits = s.codeBits := rfl
@[simp] theorem State.countSymbol_bitOut : (s.countSymbol).bitOut = s.bitOut := rfl
@[simp] theorem State.countSymbol_byteOut : (s.countSymbol).byteOut = s.byteOut := rfl
@[simp] theorem State.countSymbol_pending : (s.countSymbol).pending = s.pending := rfl
@[simp] theorem State.countSymbol_resetIn : (s.countSymbol).resetIn = s.resetIn := rfl
@[simp] theorem State.countSymbol_response : (s.countSymbol).response = s.response := rfl

/-! ### `consumeBit` -/

@[simp] theorem State.consumeBit_countWidth : (s.consumeBit).countWidth = s.countWidth := rfl
@[simp] theorem State.consumeBit_materialize : (s.consumeBit).materialize = s.materialize := rfl
@[simp] theorem State.consumeBit_arg : (s.consumeBit).arg = s.arg := rfl
@[simp] theorem State.consumeBit_phase : (s.consumeBit).phase = s.phase := rfl
@[simp] theorem State.consumeBit_err : (s.consumeBit).err = s.err := rfl
@[simp] theorem State.consumeBit_errCmd : (s.consumeBit).errCmd = s.errCmd := rfl
@[simp] theorem State.consumeBit_errDetail : (s.consumeBit).errDetail = s.errDetail := rfl
@[simp] theorem State.consumeBit_total : (s.consumeBit).total = s.total := rfl
@[simp] theorem State.consumeBit_nsym : (s.consumeBit).nsym = s.nsym := rfl
@[simp] theorem State.consumeBit_root : (s.consumeBit).root = s.root := rfl
@[simp] theorem State.consumeBit_cur : (s.consumeBit).cur = s.cur := rfl
@[simp] theorem State.consumeBit_bitCount : (s.consumeBit).bitCount = s.bitCount + 1#64 := rfl
@[simp] theorem State.consumeBit_symCount : (s.consumeBit).symCount = s.symCount := rfl
@[simp] theorem State.consumeBit_freq : (s.consumeBit).freq = s.freq := rfl
@[simp] theorem State.consumeBit_nodes : (s.consumeBit).nodes = s.nodes := rfl
@[simp] theorem State.consumeBit_codeLen : (s.consumeBit).codeLen = s.codeLen := rfl
@[simp] theorem State.consumeBit_codeBits : (s.consumeBit).codeBits = s.codeBits := rfl
@[simp] theorem State.consumeBit_bitOut : (s.consumeBit).bitOut = s.bitOut := rfl
@[simp] theorem State.consumeBit_byteOut : (s.consumeBit).byteOut = s.byteOut := rfl
@[simp] theorem State.consumeBit_pending : (s.consumeBit).pending = s.pending := rfl
@[simp] theorem State.consumeBit_resetIn : (s.consumeBit).resetIn = s.resetIn := rfl
@[simp] theorem State.consumeBit_response : (s.consumeBit).response = s.response := rfl

/-! ### `respond` -/

@[simp] theorem State.respond_countWidth (r : BusResponse) : (s.respond r).countWidth = s.countWidth := rfl
@[simp] theorem State.respond_materialize (r : BusResponse) : (s.respond r).materialize = s.materialize := rfl
@[simp] theorem State.respond_arg (r : BusResponse) : (s.respond r).arg = s.arg := rfl
@[simp] theorem State.respond_phase (r : BusResponse) : (s.respond r).phase = s.phase := rfl
@[simp] theorem State.respond_err (r : BusResponse) : (s.respond r).err = s.err := rfl
@[simp] theorem State.respond_errCmd (r : BusResponse) : (s.respond r).errCmd = s.errCmd := rfl
@[simp] theorem State.respond_errDetail (r : BusResponse) : (s.respond r).errDetail = s.errDetail := rfl
@[simp] theorem State.respond_total (r : BusResponse) : (s.respond r).total = s.total := rfl
@[simp] theorem State.respond_nsym (r : BusResponse) : (s.respond r).nsym = s.nsym := rfl
@[simp] theorem State.respond_root (r : BusResponse) : (s.respond r).root = s.root := rfl
@[simp] theorem State.respond_cur (r : BusResponse) : (s.respond r).cur = s.cur := rfl
@[simp] theorem State.respond_bitCount (r : BusResponse) : (s.respond r).bitCount = s.bitCount := rfl
@[simp] theorem State.respond_symCount (r : BusResponse) : (s.respond r).symCount = s.symCount := rfl
@[simp] theorem State.respond_freq (r : BusResponse) : (s.respond r).freq = s.freq := rfl
@[simp] theorem State.respond_nodes (r : BusResponse) : (s.respond r).nodes = s.nodes := rfl
@[simp] theorem State.respond_codeLen (r : BusResponse) : (s.respond r).codeLen = s.codeLen := rfl
@[simp] theorem State.respond_codeBits (r : BusResponse) : (s.respond r).codeBits = s.codeBits := rfl
@[simp] theorem State.respond_bitOut (r : BusResponse) : (s.respond r).bitOut = s.bitOut := rfl
@[simp] theorem State.respond_byteOut (r : BusResponse) : (s.respond r).byteOut = s.byteOut := rfl
@[simp] theorem State.respond_pending (r : BusResponse) : (s.respond r).pending = s.pending := rfl
@[simp] theorem State.respond_resetIn (r : BusResponse) : (s.respond r).resetIn = s.resetIn := rfl
@[simp] theorem State.respond_response (r : BusResponse) : (s.respond r).response = r := rfl

/-! ### `taking` -/

@[simp] theorem State.taking_countWidth (rest : List BusAccess) : (s.taking rest).countWidth = s.countWidth := rfl
@[simp] theorem State.taking_materialize (rest : List BusAccess) : (s.taking rest).materialize = s.materialize := rfl
@[simp] theorem State.taking_arg (rest : List BusAccess) : (s.taking rest).arg = s.arg := rfl
@[simp] theorem State.taking_phase (rest : List BusAccess) : (s.taking rest).phase = s.phase := rfl
@[simp] theorem State.taking_err (rest : List BusAccess) : (s.taking rest).err = s.err := rfl
@[simp] theorem State.taking_errCmd (rest : List BusAccess) : (s.taking rest).errCmd = s.errCmd := rfl
@[simp] theorem State.taking_errDetail (rest : List BusAccess) : (s.taking rest).errDetail = s.errDetail := rfl
@[simp] theorem State.taking_total (rest : List BusAccess) : (s.taking rest).total = s.total := rfl
@[simp] theorem State.taking_nsym (rest : List BusAccess) : (s.taking rest).nsym = s.nsym := rfl
@[simp] theorem State.taking_root (rest : List BusAccess) : (s.taking rest).root = s.root := rfl
@[simp] theorem State.taking_cur (rest : List BusAccess) : (s.taking rest).cur = s.cur := rfl
@[simp] theorem State.taking_bitCount (rest : List BusAccess) : (s.taking rest).bitCount = s.bitCount := rfl
@[simp] theorem State.taking_symCount (rest : List BusAccess) : (s.taking rest).symCount = s.symCount := rfl
@[simp] theorem State.taking_freq (rest : List BusAccess) : (s.taking rest).freq = s.freq := rfl
@[simp] theorem State.taking_nodes (rest : List BusAccess) : (s.taking rest).nodes = s.nodes := rfl
@[simp] theorem State.taking_codeLen (rest : List BusAccess) : (s.taking rest).codeLen = s.codeLen := rfl
@[simp] theorem State.taking_codeBits (rest : List BusAccess) : (s.taking rest).codeBits = s.codeBits := rfl
@[simp] theorem State.taking_bitOut (rest : List BusAccess) : (s.taking rest).bitOut = s.bitOut := rfl
@[simp] theorem State.taking_byteOut (rest : List BusAccess) : (s.taking rest).byteOut = s.byteOut := rfl
@[simp] theorem State.taking_pending (rest : List BusAccess) : (s.taking rest).pending = rest := rfl
@[simp] theorem State.taking_resetIn (rest : List BusAccess) : (s.taking rest).resetIn = s.resetIn.tail := rfl
@[simp] theorem State.taking_response (rest : List BusAccess) : (s.taking rest).response = s.response := rfl

/-! ### `emitByte` -/

@[simp] theorem State.emitByte_countWidth (v : Byte) : (s.emitByte v).countWidth = s.countWidth := rfl
@[simp] theorem State.emitByte_materialize (v : Byte) : (s.emitByte v).materialize = s.materialize := rfl
@[simp] theorem State.emitByte_arg (v : Byte) : (s.emitByte v).arg = s.arg := rfl
@[simp] theorem State.emitByte_phase (v : Byte) : (s.emitByte v).phase = s.phase := rfl
@[simp] theorem State.emitByte_err (v : Byte) : (s.emitByte v).err = s.err := rfl
@[simp] theorem State.emitByte_errCmd (v : Byte) : (s.emitByte v).errCmd = s.errCmd := rfl
@[simp] theorem State.emitByte_errDetail (v : Byte) : (s.emitByte v).errDetail = s.errDetail := rfl
@[simp] theorem State.emitByte_total (v : Byte) : (s.emitByte v).total = s.total := rfl
@[simp] theorem State.emitByte_nsym (v : Byte) : (s.emitByte v).nsym = s.nsym := rfl
@[simp] theorem State.emitByte_root (v : Byte) : (s.emitByte v).root = s.root := rfl
@[simp] theorem State.emitByte_cur (v : Byte) : (s.emitByte v).cur = s.cur := rfl
@[simp] theorem State.emitByte_bitCount (v : Byte) : (s.emitByte v).bitCount = s.bitCount := rfl
@[simp] theorem State.emitByte_symCount (v : Byte) : (s.emitByte v).symCount = s.symCount := rfl
@[simp] theorem State.emitByte_freq (v : Byte) : (s.emitByte v).freq = s.freq := rfl
@[simp] theorem State.emitByte_nodes (v : Byte) : (s.emitByte v).nodes = s.nodes := rfl
@[simp] theorem State.emitByte_codeLen (v : Byte) : (s.emitByte v).codeLen = s.codeLen := rfl
@[simp] theorem State.emitByte_codeBits (v : Byte) : (s.emitByte v).codeBits = s.codeBits := rfl
@[simp] theorem State.emitByte_bitOut (v : Byte) : (s.emitByte v).bitOut = s.bitOut := rfl
@[simp] theorem State.emitByte_byteOut (v : Byte) : (s.emitByte v).byteOut = s.byteOut ++ [v] := rfl
@[simp] theorem State.emitByte_pending (v : Byte) : (s.emitByte v).pending = s.pending := rfl
@[simp] theorem State.emitByte_resetIn (v : Byte) : (s.emitByte v).resetIn = s.resetIn := rfl
@[simp] theorem State.emitByte_response (v : Byte) : (s.emitByte v).response = s.response := rfl

/-! ### `produceCode` -/

@[simp] theorem State.produceCode_countWidth (sym : Nat) : (s.produceCode sym).countWidth = s.countWidth := rfl
@[simp] theorem State.produceCode_materialize (sym : Nat) : (s.produceCode sym).materialize = s.materialize := rfl
@[simp] theorem State.produceCode_arg (sym : Nat) : (s.produceCode sym).arg = s.arg := rfl
@[simp] theorem State.produceCode_phase (sym : Nat) : (s.produceCode sym).phase = s.phase := rfl
@[simp] theorem State.produceCode_err (sym : Nat) : (s.produceCode sym).err = s.err := rfl
@[simp] theorem State.produceCode_errCmd (sym : Nat) : (s.produceCode sym).errCmd = s.errCmd := rfl
@[simp] theorem State.produceCode_errDetail (sym : Nat) : (s.produceCode sym).errDetail = s.errDetail := rfl
@[simp] theorem State.produceCode_total (sym : Nat) : (s.produceCode sym).total = s.total := rfl
@[simp] theorem State.produceCode_nsym (sym : Nat) : (s.produceCode sym).nsym = s.nsym := rfl
@[simp] theorem State.produceCode_root (sym : Nat) : (s.produceCode sym).root = s.root := rfl
@[simp] theorem State.produceCode_cur (sym : Nat) : (s.produceCode sym).cur = s.cur := rfl
@[simp] theorem State.produceCode_bitCount (sym : Nat) : (s.produceCode sym).bitCount = s.bitCount + (s.codeLenAt sym).setWidth 64 := rfl
@[simp] theorem State.produceCode_symCount (sym : Nat) : (s.produceCode sym).symCount = s.symCount := rfl
@[simp] theorem State.produceCode_freq (sym : Nat) : (s.produceCode sym).freq = s.freq := rfl
@[simp] theorem State.produceCode_nodes (sym : Nat) : (s.produceCode sym).nodes = s.nodes := rfl
@[simp] theorem State.produceCode_codeLen (sym : Nat) : (s.produceCode sym).codeLen = s.codeLen := rfl
@[simp] theorem State.produceCode_codeBits (sym : Nat) : (s.produceCode sym).codeBits = s.codeBits := rfl
@[simp] theorem State.produceCode_bitOut (sym : Nat) : (s.produceCode sym).bitOut = if s.materialize then s.bitOut ++ s.codeWord sym else s.bitOut := rfl
@[simp] theorem State.produceCode_byteOut (sym : Nat) : (s.produceCode sym).byteOut = s.byteOut := rfl
@[simp] theorem State.produceCode_pending (sym : Nat) : (s.produceCode sym).pending = s.pending := rfl
@[simp] theorem State.produceCode_resetIn (sym : Nat) : (s.produceCode sym).resetIn = s.resetIn := rfl
@[simp] theorem State.produceCode_response (sym : Nat) : (s.produceCode sym).response = s.response := rfl

/-! ### `raise` -/

@[simp] theorem State.raise_countWidth (e : ErrCode) (d : BitVec 16) (w : Word) : (s.raise e d w).countWidth = s.countWidth := rfl
@[simp] theorem State.raise_materialize (e : ErrCode) (d : BitVec 16) (w : Word) : (s.raise e d w).materialize = s.materialize := rfl
@[simp] theorem State.raise_arg (e : ErrCode) (d : BitVec 16) (w : Word) : (s.raise e d w).arg = s.arg := rfl
@[simp] theorem State.raise_phase (e : ErrCode) (d : BitVec 16) (w : Word) : (s.raise e d w).phase = .error := rfl
@[simp] theorem State.raise_err (e : ErrCode) (d : BitVec 16) (w : Word) : (s.raise e d w).err = e := rfl
@[simp] theorem State.raise_errCmd (e : ErrCode) (d : BitVec 16) (w : Word) : (s.raise e d w).errCmd = w := rfl
@[simp] theorem State.raise_errDetail (e : ErrCode) (d : BitVec 16) (w : Word) : (s.raise e d w).errDetail = d := rfl
@[simp] theorem State.raise_total (e : ErrCode) (d : BitVec 16) (w : Word) : (s.raise e d w).total = s.total := rfl
@[simp] theorem State.raise_nsym (e : ErrCode) (d : BitVec 16) (w : Word) : (s.raise e d w).nsym = s.nsym := rfl
@[simp] theorem State.raise_root (e : ErrCode) (d : BitVec 16) (w : Word) : (s.raise e d w).root = s.root := rfl
@[simp] theorem State.raise_cur (e : ErrCode) (d : BitVec 16) (w : Word) : (s.raise e d w).cur = s.cur := rfl
@[simp] theorem State.raise_bitCount (e : ErrCode) (d : BitVec 16) (w : Word) : (s.raise e d w).bitCount = s.bitCount := rfl
@[simp] theorem State.raise_symCount (e : ErrCode) (d : BitVec 16) (w : Word) : (s.raise e d w).symCount = s.symCount := rfl
@[simp] theorem State.raise_freq (e : ErrCode) (d : BitVec 16) (w : Word) : (s.raise e d w).freq = s.freq := rfl
@[simp] theorem State.raise_nodes (e : ErrCode) (d : BitVec 16) (w : Word) : (s.raise e d w).nodes = s.nodes := rfl
@[simp] theorem State.raise_codeLen (e : ErrCode) (d : BitVec 16) (w : Word) : (s.raise e d w).codeLen = s.codeLen := rfl
@[simp] theorem State.raise_codeBits (e : ErrCode) (d : BitVec 16) (w : Word) : (s.raise e d w).codeBits = s.codeBits := rfl
@[simp] theorem State.raise_bitOut (e : ErrCode) (d : BitVec 16) (w : Word) : (s.raise e d w).bitOut = s.bitOut := rfl
@[simp] theorem State.raise_byteOut (e : ErrCode) (d : BitVec 16) (w : Word) : (s.raise e d w).byteOut = s.byteOut := rfl
@[simp] theorem State.raise_pending (e : ErrCode) (d : BitVec 16) (w : Word) : (s.raise e d w).pending = s.pending := rfl
@[simp] theorem State.raise_resetIn (e : ErrCode) (d : BitVec 16) (w : Word) : (s.raise e d w).resetIn = s.resetIn := rfl
@[simp] theorem State.raise_response (e : ErrCode) (d : BitVec 16) (w : Word) : (s.raise e d w).response = s.response := rfl

/-! ### `cleared` -/

@[simp] theorem State.cleared_countWidth : (s.cleared).countWidth = s.countWidth := rfl
@[simp] theorem State.cleared_materialize : (s.cleared).materialize = s.materialize := rfl
@[simp] theorem State.cleared_arg : (s.cleared).arg = s.arg := rfl
@[simp] theorem State.cleared_phase : (s.cleared).phase = .fill := rfl
@[simp] theorem State.cleared_err : (s.cleared).err = .none := rfl
@[simp] theorem State.cleared_errCmd : (s.cleared).errCmd = 0#32 := rfl
@[simp] theorem State.cleared_errDetail : (s.cleared).errDetail = 0#16 := rfl
@[simp] theorem State.cleared_total : (s.cleared).total = 0#32 := rfl
@[simp] theorem State.cleared_nsym : (s.cleared).nsym = 0#32 := rfl
@[simp] theorem State.cleared_root : (s.cleared).root = Config.nil := rfl
@[simp] theorem State.cleared_cur : (s.cleared).cur = Config.nil := rfl
@[simp] theorem State.cleared_bitCount : (s.cleared).bitCount = 0#64 := rfl
@[simp] theorem State.cleared_symCount : (s.cleared).symCount = 0#32 := rfl
@[simp] theorem State.cleared_freq : (s.cleared).freq = Vector.replicate 257 0#32 := rfl
@[simp] theorem State.cleared_nodes : (s.cleared).nodes = [] := rfl
@[simp] theorem State.cleared_codeLen : (s.cleared).codeLen = Vector.replicate 257 0#9 := rfl
@[simp] theorem State.cleared_codeBits : (s.cleared).codeBits = Vector.replicate 257 0#256 := rfl
@[simp] theorem State.cleared_bitOut : (s.cleared).bitOut = s.bitOut := rfl
@[simp] theorem State.cleared_byteOut : (s.cleared).byteOut = s.byteOut := rfl
@[simp] theorem State.cleared_pending : (s.cleared).pending = s.pending := rfl
@[simp] theorem State.cleared_resetIn : (s.cleared).resetIn = s.resetIn := rfl
@[simp] theorem State.cleared_response : (s.cleared).response = s.response := rfl

/-! ### `underReset` -/

@[simp] theorem State.underReset_countWidth : (s.underReset).countWidth = s.countWidth := rfl
@[simp] theorem State.underReset_materialize : (s.underReset).materialize = (State.resetWith s.countWidth).materialize := rfl
@[simp] theorem State.underReset_arg : (s.underReset).arg = (State.resetWith s.countWidth).arg := rfl
@[simp] theorem State.underReset_phase : (s.underReset).phase = (State.resetWith s.countWidth).phase := rfl
@[simp] theorem State.underReset_err : (s.underReset).err = (State.resetWith s.countWidth).err := rfl
@[simp] theorem State.underReset_errCmd : (s.underReset).errCmd = (State.resetWith s.countWidth).errCmd := rfl
@[simp] theorem State.underReset_errDetail : (s.underReset).errDetail = (State.resetWith s.countWidth).errDetail := rfl
@[simp] theorem State.underReset_total : (s.underReset).total = (State.resetWith s.countWidth).total := rfl
@[simp] theorem State.underReset_nsym : (s.underReset).nsym = (State.resetWith s.countWidth).nsym := rfl
@[simp] theorem State.underReset_root : (s.underReset).root = (State.resetWith s.countWidth).root := rfl
@[simp] theorem State.underReset_cur : (s.underReset).cur = (State.resetWith s.countWidth).cur := rfl
@[simp] theorem State.underReset_bitCount : (s.underReset).bitCount = (State.resetWith s.countWidth).bitCount := rfl
@[simp] theorem State.underReset_symCount : (s.underReset).symCount = (State.resetWith s.countWidth).symCount := rfl
@[simp] theorem State.underReset_freq : (s.underReset).freq = (State.resetWith s.countWidth).freq := rfl
@[simp] theorem State.underReset_nodes : (s.underReset).nodes = (State.resetWith s.countWidth).nodes := rfl
@[simp] theorem State.underReset_codeLen : (s.underReset).codeLen = (State.resetWith s.countWidth).codeLen := rfl
@[simp] theorem State.underReset_codeBits : (s.underReset).codeBits = (State.resetWith s.countWidth).codeBits := rfl
@[simp] theorem State.underReset_bitOut : (s.underReset).bitOut = (State.resetWith s.countWidth).bitOut := rfl
@[simp] theorem State.underReset_byteOut : (s.underReset).byteOut = (State.resetWith s.countWidth).byteOut := rfl
@[simp] theorem State.underReset_pending : (s.underReset).pending = s.pending := rfl
@[simp] theorem State.underReset_resetIn : (s.underReset).resetIn = s.resetIn.tail := rfl
@[simp] theorem State.underReset_response : (s.underReset).response = (State.resetWith s.countWidth).response := rfl

/-! ### `withCommand` -/

@[simp] theorem State.withCommand_countWidth (w : Word) : (s.withCommand w).countWidth = s.countWidth := rfl
@[simp] theorem State.withCommand_materialize (w : Word) : (s.withCommand w).materialize = s.materialize := rfl
@[simp] theorem State.withCommand_arg (w : Word) : (s.withCommand w).arg = s.arg := rfl
@[simp] theorem State.withCommand_phase (w : Word) : (s.withCommand w).phase = s.phase := rfl
@[simp] theorem State.withCommand_err (w : Word) : (s.withCommand w).err = s.err := rfl
@[simp] theorem State.withCommand_errCmd (w : Word) : (s.withCommand w).errCmd = s.errCmd := rfl
@[simp] theorem State.withCommand_errDetail (w : Word) : (s.withCommand w).errDetail = s.errDetail := rfl
@[simp] theorem State.withCommand_total (w : Word) : (s.withCommand w).total = s.total := rfl
@[simp] theorem State.withCommand_nsym (w : Word) : (s.withCommand w).nsym = s.nsym := rfl
@[simp] theorem State.withCommand_root (w : Word) : (s.withCommand w).root = s.root := rfl
@[simp] theorem State.withCommand_cur (w : Word) : (s.withCommand w).cur = s.cur := rfl
@[simp] theorem State.withCommand_bitCount (w : Word) : (s.withCommand w).bitCount = s.bitCount := rfl
@[simp] theorem State.withCommand_symCount (w : Word) : (s.withCommand w).symCount = s.symCount := rfl
@[simp] theorem State.withCommand_freq (w : Word) : (s.withCommand w).freq = s.freq := rfl
@[simp] theorem State.withCommand_nodes (w : Word) : (s.withCommand w).nodes = s.nodes := rfl
@[simp] theorem State.withCommand_codeLen (w : Word) : (s.withCommand w).codeLen = s.codeLen := rfl
@[simp] theorem State.withCommand_codeBits (w : Word) : (s.withCommand w).codeBits = s.codeBits := rfl
@[simp] theorem State.withCommand_bitOut (w : Word) : (s.withCommand w).bitOut = s.bitOut := rfl
@[simp] theorem State.withCommand_byteOut (w : Word) : (s.withCommand w).byteOut = s.byteOut := rfl
@[simp] theorem State.withCommand_pending (w : Word) : (s.withCommand w).pending = .write Config.cmdOffset 4 w :: s.pending := rfl
@[simp] theorem State.withCommand_resetIn (w : Word) : (s.withCommand w).resetIn = false :: s.resetIn := rfl
@[simp] theorem State.withCommand_response (w : Word) : (s.withCommand w).response = s.response := rfl

@[simp] theorem State.addCount_freq (sym c : Nat) : (s.addCount sym c).freq =
    s.freq.setIfInBounds sym (toCount s.width ((s.freqAt sym).toNat + c)) := rfl
@[simp] theorem State.addCount_total (sym c : Nat) : (s.addCount sym c).total = BitVec.ofNat 32 (s.total.toNat + c) := rfl
@[simp] theorem State.addCount_nsym (sym c : Nat) : (s.addCount sym c).nsym =
    if s.freqAt sym = 0#32 then s.nsym + 1#32 else s.nsym := rfl
@[simp] theorem State.recordCode_codeLen (sym : Symbol) (path : List Bool) : (s.recordCode sym path).codeLen =
    s.codeLen.setIfInBounds sym.toNat (BitVec.ofNat 9 path.length) := rfl
@[simp] theorem State.recordCode_codeBits (sym : Symbol) (path : List Bool) : (s.recordCode sym path).codeBits =
    s.codeBits.setIfInBounds sym.toNat (BitVec.ofNat 256 (bitsToNat path)) := rfl

end Sys2Proof.Machine
end

