-- ==== Sys2Proof/Laws/Ops.lean ====
section
/-! SUPPORT. One lemma or a few for each shared operation, saying once what it does: table reads after table writes, counts
that fit, the gate, and for each command the cases of its next state. -/

namespace Sys2Proof.Machine

/-! ### Counts -/

theorem toCount_toNat {w n : Nat} (hw : w ≤ 32) (h : n ≤ Config.cmax w) : (toCount w n).toNat = n := by
  have h1 : 0 < 2 ^ w := Nat.two_pow_pos w
  have h2 : 2 ^ w ≤ 2 ^ 32 := Nat.pow_le_pow_right (by decide) hw
  unfold Config.cmax at h
  simp only [toCount, BitVec.toNat_ofNat]
  rw [Nat.mod_eq_of_lt (a := n) (by omega), Nat.mod_eq_of_lt (by omega)]

theorem cmax_lt {w : Nat} (hw : w ≤ 32) : Config.cmax w < 2 ^ 32 := by
  have h1 : 0 < 2 ^ w := Nat.two_pow_pos w
  have h2 : 2 ^ w ≤ 2 ^ 32 := Nat.pow_le_pow_right (by decide) hw
  unfold Config.cmax
  omega

/-! ### Table reads and writes -/

theorem State.freqAt_of_ge (s : State) {k : Nat} (h : 257 ≤ k) : s.freqAt k = 0#32 := by
  simp [State.freqAt, Vector.getElem?_eq_none h]

theorem State.codeLenAt_of_ge (s : State) {k : Nat} (h : 257 ≤ k) : s.codeLenAt k = 0#9 := by
  simp [State.codeLenAt, Vector.getElem?_eq_none h]

theorem State.codeBitsAt_of_ge (s : State) {k : Nat} (h : 257 ≤ k) : s.codeBitsAt k = 0#256 := by
  simp [State.codeBitsAt, Vector.getElem?_eq_none h]

theorem State.freqAt_addCount_self (s : State) {sym : Nat} (c : Nat) (h : sym < 257) :
    (s.addCount sym c).freqAt sym = toCount s.width ((s.freqAt sym).toNat + c) := by
  simp [State.freqAt, State.addCount, h]

theorem State.freqAt_addCount_ne (s : State) {sym k : Nat} (c : Nat) (h : k ≠ sym) :
    (s.addCount sym c).freqAt k = s.freqAt k := by
  simp [State.freqAt, State.addCount, Ne.symm h]

theorem State.codeLenAt_recordCode_self (s : State) (sym : Symbol) (path : List Bool) (h : sym.toNat < 257) :
    (s.recordCode sym path).codeLenAt sym.toNat = BitVec.ofNat 9 path.length := by
  simp [State.codeLenAt, h]

theorem State.codeLenAt_recordCode_ne (s : State) {sym : Symbol} (path : List Bool) {k : Nat} (h : k ≠ sym.toNat) :
    (s.recordCode sym path).codeLenAt k = s.codeLenAt k := by
  simp [State.codeLenAt, Ne.symm h]

theorem State.codeBitsAt_recordCode_self (s : State) (sym : Symbol) (path : List Bool) (h : sym.toNat < 257) :
    (s.recordCode sym path).codeBitsAt sym.toNat = BitVec.ofNat 256 (bitsToNat path) := by
  simp [State.codeBitsAt, h]

theorem State.codeBitsAt_recordCode_ne (s : State) {sym : Symbol} (path : List Bool) {k : Nat} (h : k ≠ sym.toNat) :
    (s.recordCode sym path).codeBitsAt k = s.codeBitsAt k := by
  simp [State.codeBitsAt, Ne.symm h]

/-- A list's sum with one element replaced. -/
theorem sum_set_nat (l : List Nat) (i x : Nat) (h : i < l.length) : (l.set i x).sum + l[i] = l.sum + x := by
  induction l generalizing i with
  | nil => simp at h
  | cons y ys ih =>
    cases i with
    | zero => simp; omega
    | succ i => simp at h ⊢; have := ih i h; omega

theorem State.freqAt_eq_getElem (s : State) {k : Nat} (h : k < 257) : s.freqAt k = s.freq[k] := by
  simp [State.freqAt, h]

/-- Σ FREQ with one entry replaced. -/
theorem State.freqSum_set (s : State) {k : Nat} (x : BitVec 32) (h : k < 257) :
    { s with freq := s.freq.setIfInBounds k x }.freqSum + (s.freqAt k).toNat = s.freqSum + x.toNat := by
  have := sum_set_nat (s.freq.toList.map BitVec.toNat) k x.toNat (by simpa using h)
  simpa [State.freqSum, Vector.toList_setIfInBounds, State.freqAt_eq_getElem s h, List.map_set] using this

/-- No entry of FREQ exceeds Σ FREQ. -/
theorem State.freqAt_le_freqSum (s : State) (k : Nat) : (s.freqAt k).toNat ≤ s.freqSum := by
  by_cases h : k < 257
  · rw [s.freqAt_eq_getElem h]
    exact List.le_sum_of_mem (List.mem_map.mpr ⟨_, by simp [Vector.mem_toList_iff], rfl⟩)
  · rw [s.freqAt_of_ge (by omega)]; simp

/-- The number of entries with one entry replaced. -/
theorem State.freqCount_set (s : State) {k : Nat} (x : BitVec 32) (h : k < 257) :
    { s with freq := s.freq.setIfInBounds k x }.freqCount + (if s.freqAt k = 0#32 then 0 else 1) =
      s.freqCount + (if x = 0#32 then 0 else 1) := by
  have hk : k < s.freq.toList.length := by simpa using h
  have h1 := List.countP_set (p := fun c : BitVec 32 => c != 0#32) (a := x) hk
  have h2 : (s.freq.toList)[k] = s.freqAt k := by simp [s.freqAt_eq_getElem h]
  have h3 : (if (s.freqAt k != 0#32) = true then 1 else 0) ≤ s.freq.toList.countP fun c => c != 0#32 := by
    split
    · rename_i hp
      exact List.countP_pos_iff.mpr ⟨_, List.getElem_mem hk, by rw [h2]; exact hp⟩
    · omega
  simp only [State.freqCount, Vector.toList_setIfInBounds]
  rw [h1, h2]
  by_cases ha : s.freqAt k = 0#32 <;> by_cases hb : x = 0#32 <;> simp_all

theorem State.freqCount_le (s : State) : s.freqCount ≤ 257 := by
  have := List.countP_le_length (p := fun c : BitVec 32 => c != 0#32) (l := s.freq.toList)
  simpa [State.freqCount] using this

/-! ### The gate -/

theorem gated_error {i : Instr} {s : State} {body : Result} (h : s.phase = .error) : gated i s body = .next s := by
  simp [gated, h]

theorem gated_legal {i : Instr} {s : State} {body : Result} (h : s.phase ≠ .error) (hl : legalIn i s.phase = true) :
    gated i s body = body := by
  simp [gated, h, hl]

theorem gated_illegal {i : Instr} {s : State} {body : Result} (h : s.phase ≠ .error) (hl : legalIn i s.phase = false) :
    gated i s body = .next (s.raise .sequence (s.phase.code.setWidth 16) (encode i)) := by
  simp [gated, h, hl, raiseIn]

/-- What the gate lets happen: ignored in ERROR, SEQUENCE, or the command's own rule. -/
theorem gated_cases {i : Instr} {s t : State} {body : Result} (h : gated i s body = .next t) :
    (s.phase = .error ∧ t = s) ∨
    (s.phase ≠ .error ∧ legalIn i s.phase = false ∧
      t = s.raise .sequence (s.phase.code.setWidth 16) (encode i)) ∨
    (s.phase ≠ .error ∧ legalIn i s.phase = true ∧ body = .next t) := by
  by_cases he : s.phase = .error
  · rw [gated_error he] at h; cases h; exact .inl ⟨he, rfl⟩
  · cases hl : legalIn i s.phase
    · rw [gated_illegal he hl] at h; cases h; exact .inr (.inl ⟨he, rfl, rfl⟩)
    · rw [gated_legal he hl] at h; exact .inr (.inr ⟨he, rfl, h⟩)

/-! ### What each command's own rule can answer -/

/-- The effects a command may have, its errors apart: what `exec` answers when it is legal and raises nothing. -/
inductive Effect (s : State) : Instr → State → Prop
  | nop : Effect s .nop s
  | clear : Effect s .clear s.cleared
  | count (b : Byte) (hp : s.phase = .fill) (hb : s.total.toNat + 1 + s.eofReserve ≤ Config.cmax s.width) :
    Effect s (.count b) (s.addCount b.toNat 1)
  | loadFreq (sym : Symbol) (hp : s.phase = .fill) (hs : sym.toNat ≤ 256) (hc : s.arg.toNat ≠ 0)
    (he : sym.toNat = 256 → s.arg.toNat = 1) (ha : s.freqAt sym.toNat = 0#32)
    (hb : s.total.toNat + s.arg.toNat + (if sym.toNat = 256 then 0 else s.eofReserve) ≤ Config.cmax s.width) :
    Effect s (.loadFreq sym) (s.addCount sym.toNat s.arg.toNat)
  | sealAdds (hp : s.phase = .fill) (ha : s.freqAt 256 = 0#32) : Effect s .sealTable ((s.addCount 256 1).enter .table)
  | sealKeeps (hp : s.phase = .fill) (ha : s.freqAt 256 ≠ 0#32) : Effect s .sealTable (s.enter .table)
  | buildTree (hp : s.phase = .table) :
    Effect s .buildTree (s.installTree (buildArena s.width s.freq) (arenaRoot (buildArena s.width s.freq)))
  | buildCodes (hp : s.phase = .tree) : Effect s .buildCodes ((s.recordCodes s.treePaths).enter .codes)
  | encodeByte (b : Byte) (hp : s.phase = .codes ∨ s.phase = .encoding) (hl : s.codeLenAt b.toNat ≠ 0#9) :
    Effect s (.encodeByte b) ((s.produceCode b.toNat).countSymbol.enter .encoding)
  | encodeEnd (hp : s.phase = .codes ∨ s.phase = .encoding) :
    Effect s .encodeEnd ((s.produceCode 256).enter .encDone)
  | decodeIgnored (t : Bool) (hp : s.phase = .decDone) : Effect s (.decodeBit t) s
  | decodeBit (t : Bool) (hp : s.phase.mayDescend = true) (hn : s.branch t ≠ Config.nil) :
    Effect s (.decodeBit t) (s.arrive (s.branch t))
  | decodeEnd (hp : s.phase = .decDone) : Effect s .decodeEnd s

theorem overflows_false {s : State} {c r : Nat} : s.overflows c r = false ↔ s.total.toNat + c + r ≤ Config.cmax s.width := by
  simp [State.overflows]

/-- The inversion lemma of `exec`: the command is ignored in ERROR, raises an error, or has its effect. -/
theorem exec_cases {i : Instr} {s t : State} (h : exec i s = .next t) :
    (s.phase = .error ∧ t = s) ∨
    (s.phase ≠ .error ∧ ∃ e d, e ≠ .none ∧ t = s.raise e d (encode i)) ∨
    Effect s i t := by
  cases i with
  | nop => cases h; exact .inr (.inr .nop)
  | clear => cases h; exact .inr (.inr .clear)
  | count b =>
    obtain ⟨he, rfl⟩ | ⟨he, -, rfl⟩ | ⟨he, hl, hb⟩ := gated_cases h
    · exact .inl ⟨he, rfl⟩
    · exact .inr (.inl ⟨he, _, _, by decide, rfl⟩)
    · split at hb
      · cases hb; exact .inr (.inl ⟨he, _, _, by decide, rfl⟩)
      · rename_i ho
        cases hb
        exact .inr (.inr (.count b (by simpa [legalIn] using hl) (overflows_false.mp (by simpa using ho))))
  | loadFreq sym =>
    obtain ⟨he, rfl⟩ | ⟨he, -, rfl⟩ | ⟨he, hl, hb⟩ := gated_cases h
    · exact .inl ⟨he, rfl⟩
    · exact .inr (.inl ⟨he, _, _, by decide, rfl⟩)
    · replace hb : (if sym.toNat > 256 then _ else _) = _ := hb
      by_cases h1 : sym.toNat > 256
      · rw [if_pos h1] at hb; cases hb; exact .inr (.inl ⟨he, _, _, by decide, rfl⟩)
      by_cases h2 : s.arg.toNat = 0
      · rw [if_neg h1, if_pos h2] at hb; cases hb; exact .inr (.inl ⟨he, _, _, by decide, rfl⟩)
      by_cases h3 : sym.toNat = 256 ∧ s.arg.toNat ≠ 1
      · rw [if_neg h1, if_neg h2, if_pos h3] at hb; cases hb; exact .inr (.inl ⟨he, _, _, by decide, rfl⟩)
      by_cases h4 : s.freqAt sym.toNat ≠ 0#32
      · rw [if_neg h1, if_neg h2, if_neg h3, if_pos h4] at hb; cases hb; exact .inr (.inl ⟨he, _, _, by decide, rfl⟩)
      rw [if_neg h1, if_neg h2, if_neg h3, if_neg h4] at hb
      cases h5 : s.overflows s.arg.toNat (if sym.toNat = 256 then 0 else s.eofReserve)
      · rw [h5] at hb
        cases hb
        refine .inr (.inr (.loadFreq sym (by simpa [legalIn] using hl) (by omega) h2 (fun hs => ?_) (by simpa using h4)
          (overflows_false.mp h5)))
        by_contra hc
        exact h3 ⟨hs, hc⟩
      · rw [h5] at hb; cases hb; exact .inr (.inl ⟨he, _, _, by decide, rfl⟩)
  | sealTable =>
    obtain ⟨he, rfl⟩ | ⟨he, -, rfl⟩ | ⟨he, hl, hb⟩ := gated_cases h
    · exact .inl ⟨he, rfl⟩
    · exact .inr (.inl ⟨he, _, _, by decide, rfl⟩)
    · have hp : s.phase = .fill := by simpa [legalIn] using hl
      split at hb
      · rename_i ha; cases hb; exact .inr (.inr (.sealAdds hp ha))
      · rename_i ha; cases hb; exact .inr (.inr (.sealKeeps hp ha))
  | buildTree =>
    obtain ⟨he, rfl⟩ | ⟨he, -, rfl⟩ | ⟨he, hl, hb⟩ := gated_cases h
    · exact .inl ⟨he, rfl⟩
    · exact .inr (.inl ⟨he, _, _, by decide, rfl⟩)
    · cases hb; exact .inr (.inr (.buildTree (by simpa [legalIn] using hl)))
  | buildCodes =>
    obtain ⟨he, rfl⟩ | ⟨he, -, rfl⟩ | ⟨he, hl, hb⟩ := gated_cases h
    · exact .inl ⟨he, rfl⟩
    · exact .inr (.inl ⟨he, _, _, by decide, rfl⟩)
    · cases hb; exact .inr (.inr (.buildCodes (by simpa [legalIn] using hl)))
  | encodeByte b =>
    obtain ⟨he, rfl⟩ | ⟨he, -, rfl⟩ | ⟨he, hl, hb⟩ := gated_cases h
    · exact .inl ⟨he, rfl⟩
    · exact .inr (.inl ⟨he, _, _, by decide, rfl⟩)
    · split at hb
      · cases hb; exact .inr (.inl ⟨he, _, _, by decide, rfl⟩)
      · rename_i hn; cases hb; exact .inr (.inr (.encodeByte b (by simpa [legalIn] using hl) hn))
  | encodeEnd =>
    obtain ⟨he, rfl⟩ | ⟨he, -, rfl⟩ | ⟨he, hl, hb⟩ := gated_cases h
    · exact .inl ⟨he, rfl⟩
    · exact .inr (.inl ⟨he, _, _, by decide, rfl⟩)
    · cases hb; exact .inr (.inr (.encodeEnd (by simpa [legalIn] using hl)))
  | decodeBit b =>
    obtain ⟨he, rfl⟩ | ⟨he, -, rfl⟩ | ⟨he, hl, hb⟩ := gated_cases h
    · exact .inl ⟨he, rfl⟩
    · exact .inr (.inl ⟨he, _, _, by decide, rfl⟩)
    · split at hb
      · rename_i hp; cases hb; exact .inr (.inr (.decodeIgnored b hp))
      · split at hb
        · cases hb; exact .inr (.inl ⟨he, _, _, by decide, rfl⟩)
        · rename_i hd hn
          cases hb
          refine .inr (.inr (.decodeBit b ?_ hn))
          revert hl hd; cases s.phase <;> simp [legalIn, Phase.mayDescend]
  | decodeEnd =>
    obtain ⟨he, rfl⟩ | ⟨he, -, rfl⟩ | ⟨he, hl, hb⟩ := gated_cases h
    · exact .inl ⟨he, rfl⟩
    · exact .inr (.inl ⟨he, _, _, by decide, rfl⟩)
    · split at hb
      · rename_i hp; cases hb; exact .inr (.inr (.decodeEnd hp))
      · cases hb; exact .inr (.inl ⟨he, _, _, by decide, rfl⟩)

/-- The three cases of an arrival at a node (45_decode.md R201). -/
theorem State.arrive_cases (s : State) (n : NodeIndex) :
    ((s.node n).kind = .internal ∧ s.arrive n = (s.consumeBit.moveTo n).enter .decoding) ∨
    ((s.node n).kind = .leaf ∧ (s.node n).sym = Config.pseudoEof ∧
      s.arrive n = (s.consumeBit.moveTo n).enter .decDone) ∨
    ((s.node n).kind = .leaf ∧ (s.node n).sym ≠ Config.pseudoEof ∧
      s.arrive n =
        ((s.consumeBit.emitByte ((s.node n).sym.setWidth 8)).countSymbol.moveTo s.root).enter .decoding) := by
  cases hk : (s.node n).kind with
  | internal => exact .inl ⟨rfl, by simp only [State.arrive, hk]⟩
  | leaf =>
    by_cases hs : (s.node n).sym = Config.pseudoEof
    · exact .inr (.inl ⟨rfl, hs, by simp only [State.arrive, hk, hs, if_true]⟩)
    · exact .inr (.inr ⟨rfl, hs, by simp only [State.arrive, hk, hs, if_false]⟩)

/-- `recordCodes` writes CODE_LEN and CODE_BITS only. -/
theorem State.recordCodes_frame (paths : List (Symbol × List Bool)) (s : State) :
    s.recordCodes paths =
      { s with codeLen := (s.recordCodes paths).codeLen, codeBits := (s.recordCodes paths).codeBits } := by
  induction paths generalizing s with
  | nil => rfl
  | cons p ps ih =>
    have h := ih (s.recordCode p.1 p.2)
    simp only [State.recordCodes, List.foldl_cons] at h ⊢
    rw [h]; rfl

end Sys2Proof.Machine
end

