-- ==== Sys2Proof/Laws/Codes.lean ====
section
/-! SUPPORT. The code-table generator's parts: the bit string as a number, and what the walk lists. -/

namespace Sys2Proof.Machine

/-- Bit `j` of a bit string's number is its element `j`. -/
theorem testBit_bitsToNat (l : List Bool) (j : Nat) : (bitsToNat l).testBit j = l.getD j false := by
  induction l generalizing j with
  | nil => simp [bitsToNat]
  | cons b rest ih =>
    cases j with
    | zero => cases b <;> simp [bitsToNat, Nat.testBit_zero, Nat.add_mod]
    | succ j =>
      rw [bitsToNat, Nat.testBit_succ, show (b.toNat + 2 * bitsToNat rest) / 2 = bitsToNat rest by
        cases b <;> (simp; try omega), ih]
      simp

/-- A path that fits is recorded as it is. -/
theorem State.codeWord_recordCode_self (s : State) (sym : Symbol) (path : List Bool) (hs : sym.toNat < 257)
    (hp : path.length ≤ 256) : (s.recordCode sym path).codeWord sym.toNat = path := by
  apply List.ext_getElem
  · simp only [State.codeWord, s.codeLenAt_recordCode_self sym path hs, List.length_map, List.length_range,
      BitVec.toNat_ofNat]
    omega
  · intro j h1 h2
    simp only [State.codeWord, s.codeBitsAt_recordCode_self sym path hs, List.getElem_map, List.getElem_range,
      BitVec.getLsbD_ofNat, testBit_bitsToNat, show j < 256 by omega, decide_true, Bool.true_and]
    simp [h2]

/-- Whatever the walk lists is a leaf below its node, with the bits that lead there after the node's own path. -/
theorem mem_leafPaths {nodes : List Node} {fuel : Nat} {i : NodeIndex} {path p : List Bool} {sym : Symbol}
    (h : (sym, p) ∈ leafPaths nodes fuel i path) :
    ∃ tail j, p = path ++ tail ∧ tail.length < fuel ∧ descend nodes tail i = some j ∧
      (nodeAt nodes j.toNat).kind = .leaf ∧ (nodeAt nodes j.toNat).sym = sym := by
  induction fuel generalizing i path with
  | zero => simp [leafPaths] at h
  | succ fuel ih =>
    rw [leafPaths] at h
    split at h
    · simp at h
    · dsimp only at h
      split at h
      · rename_i hk
        obtain ⟨rfl, rfl⟩ : sym = _ ∧ p = path := by simpa using h
        exact ⟨[], i, by simp, by simp, rfl, hk, rfl⟩
      · rename_i hk
        have hnil : ∀ (n : NodeIndex) (q : List Bool), (sym, p) ∈ leafPaths nodes fuel n q → n ≠ Config.nil := by
          rintro n q hm rfl
          cases fuel <;> simp [leafPaths] at hm
        rcases List.mem_append.mp h with h | h
        · obtain ⟨tail, j, rfl, hl, hd, hj⟩ := ih h
          exact ⟨false :: tail, j, by simp, by simpa using hl, by simp [descend, hk, hnil _ _ h, hd], hj⟩
        · obtain ⟨tail, j, rfl, hl, hd, hj⟩ := ih h
          exact ⟨true :: tail, j, by simp, by simpa using hl, by simp [descend, hk, hnil _ _ h, hd], hj⟩

/-- Every leaf within the fuel's depth is listed, with the bits that lead there after the node's own path. -/
theorem leafPaths_mem {nodes : List Node} {fuel : Nat} {i j : NodeIndex} {path tail : List Bool} (hi : i ≠ Config.nil)
    (hl : tail.length < fuel) (hd : descend nodes tail i = some j) (hj : (nodeAt nodes j.toNat).kind = .leaf) :
    ((nodeAt nodes j.toNat).sym, path ++ tail) ∈ leafPaths nodes fuel i path := by
  induction fuel generalizing i path tail with
  | zero => simp at hl
  | succ fuel ih =>
    rw [leafPaths, if_neg hi]
    cases tail with
    | nil =>
      cases hd
      simp [hj]
    | cons t rest =>
      rw [descend] at hd
      cases hk : (nodeAt nodes i.toNat).kind with
      | leaf => simp [hk] at hd
      | internal =>
        simp only [hk] at hd ⊢
        have step : ∀ n q, (if n = Config.nil then none else descend nodes rest n) = some j →
            ((nodeAt nodes j.toNat).sym, q ++ rest) ∈ leafPaths nodes fuel n q := by
          intro n q h
          by_cases hn : n = Config.nil
          · rw [if_pos hn] at h; cases h
          · rw [if_neg hn] at h; exact ih hn (by simpa using hl) h
        cases t
        · exact List.mem_append_left _ (by simpa using step _ (path ++ [false]) hd)
        · exact List.mem_append_right _ (by simpa using step _ (path ++ [true]) hd)

end Sys2Proof.Machine
end

