-- ==== Sys2Proof/Laws/Encoding.lean ====
section
/-! SUPPORT. The fields of a command word: what passing the reserved-bit check says, and when two words that agree field by
field are equal. -/

namespace Sys2Proof

/-- What passing the reserved-bit check says. -/
theorem checkReserved_ok {fmt : Format} {w : Word} {i j : Instr} (h : checkReserved fmt w i = .ok j) :
    operandField w &&& ~~~fmt.operandMask = 0#32 ∧ j = i := by
  unfold checkReserved at h
  split at h
  · cases h; exact ⟨by assumption, rfl⟩
  · cases h

/-- What failing it says. -/
theorem checkReserved_error {fmt : Format} {w : Word} {i : Instr} {e : Illegal} (h : checkReserved fmt w i = .error e) :
    operandField w &&& ~~~fmt.operandMask ≠ 0#32 ∧ e = .reservedBit := by
  unfold checkReserved at h
  split at h
  · cases h
  · cases h; exact ⟨by assumption, rfl⟩

theorem opcodeOf_bit (w : Word) {j : Nat} (hj : j < 8) : (opcodeOf w).getLsbD j = w.getLsbD (24 + j) := by
  simp [opcodeOf, hj]

/-- A word whose reserved bits are clear is determined by its opcode and its operand bits. -/
theorem word_eq_of_fields {fmt : Format} {w v : Word} (hr : operandField w &&& ~~~fmt.operandMask = 0#32)
    (hv : ∀ j, j < 32 → v.getLsbD j =
      if j < 24 then (w.getLsbD j && fmt.operandMask.getLsbD j) else (opcodeOf w).getLsbD (j - 24)) : v = w := by
  apply BitVec.eq_of_getLsbD_eq
  intro j hj
  rw [hv j hj]
  split
  · rename_i h24
    have hm : (0x00FFFFFF#32).getLsbD j = true :=
      (by decide : ∀ k < 24, (0x00FFFFFF#32).getLsbD k = true) j h24
    have h := congrArg (·.getLsbD j) hr
    simp only [operandField, BitVec.getLsbD_and, BitVec.getLsbD_not, hm, hj] at h
    cases hw : w.getLsbD j <;> simp_all
  · rw [opcodeOf_bit w (by omega), show 24 + (j - 24) = j by omega]

end Sys2Proof
end

