-- ==== Sys2Proof/Laws/Invariants.lean ====
section
/-! SUPPORT. What the count operations keep of the invariants of the counts, and which fields each part of the invariants depends
on. -/

namespace Sys2Proof.Machine

/-- Adding to a count within the bound of R124 keeps the invariants of the counts. -/
theorem State.CountInv.addCount {s : State} {sym c : Nat} (h : s.CountInv) (hs : sym ≤ 256) (hc : 1 ≤ c) (h32 : c < 2^32)
    (hb : s.total.toNat + c + (if sym = 256 then 0 else s.eofReserve) ≤ Config.cmax s.width)
    (he : sym = 256 → c = 1 ∧ s.freqAt 256 = 0#32) : (s.addCount sym c).CountInv := by
  obtain ⟨⟨w1, w2⟩, a2, a3, a4, a5⟩ := h
  have hcm := cmax_lt w2
  have hsum := s.freqAt_le_freqSum sym
  have hle : (s.freqAt sym).toNat + c ≤ Config.cmax s.width := by
    split at hb <;> omega
  have htc := toCount_toNat w2 hle
  have hne : toCount s.width ((s.freqAt sym).toNat + c) ≠ 0#32 := by
    intro h0; rw [h0] at htc; simp at htc; omega
  have hset := s.freqSum_set (toCount s.width ((s.freqAt sym).toNat + c)) (show sym < 257 by omega)
  have hcnt := s.freqCount_set (toCount s.width ((s.freqAt sym).toNat + c)) (show sym < 257 by omega)
  rw [if_neg hne] at hcnt
  have hcl := s.freqCount_le
  have tot : (s.addCount sym c).total.toNat = s.total.toNat + c := by
    show (BitVec.ofNat 32 (s.total.toNat + c)).toNat = _
    rw [BitVec.toNat_ofNat, Nat.mod_eq_of_lt (by split at hb <;> omega)]
  refine ⟨⟨w1, w2⟩, ?_, ?_, ?_, ?_⟩
  · rw [tot]
    have : (s.addCount sym c).freqSum =
        ({ s with freq := s.freq.setIfInBounds sym (toCount s.width ((s.freqAt sym).toNat + c)) } : State).freqSum := rfl
    rw [this]; omega
  · have : (s.addCount sym c).freqCount =
        ({ s with freq := s.freq.setIfInBounds sym (toCount s.width ((s.freqAt sym).toNat + c)) } : State).freqCount := rfl
    rw [this]
    show (if s.freqAt sym = 0#32 then s.nsym + 1#32 else s.nsym).toNat = _
    split
    · rename_i h0; rw [if_pos h0] at hcnt; rw [BitVec.toNat_add]; simp; omega
    · rename_i h0; rw [if_neg h0] at hcnt; omega
  · by_cases h256 : sym = 256
    · subst h256
      obtain ⟨rfl, hz⟩ := he rfl
      rw [s.freqAt_addCount_self _ (by omega), hz]
      right
      apply BitVec.eq_of_toNat_eq
      rw [hz] at htc
      simpa using htc
    · rw [s.freqAt_addCount_ne _ (Ne.symm h256)]; exact a4
  · rw [tot]
    show _ ≤ Config.cmax s.width
    by_cases h256 : sym = 256
    · subst h256
      rw [s.freqAt_addCount_self _ (by omega), if_neg hne]
      simpa using hb
    · rw [s.freqAt_addCount_ne _ (Ne.symm h256)]
      simpa [State.eofReserve, eofIndex, h256] using hb

/-- The invariants of the counts depend on COUNT_WIDTH, FREQ, TOTAL and NSYM alone. -/
theorem State.CountInv.of_eq {s t : State} (h : s.CountInv) (hw : t.countWidth = s.countWidth) (hf : t.freq = s.freq)
    (ht : t.total = s.total) (hn : t.nsym = s.nsym) : t.CountInv := by
  obtain ⟨h1, h2, h3, h4, h5⟩ := h
  simp only [State.width, State.freqSum, State.freqCount, State.freqAt] at h1 h2 h3 h4 h5
  constructor <;> simp only [State.width, State.freqSum, State.freqCount, State.freqAt, hw, hf, ht, hn] <;> assumption

/-- The code words recorded depend on the code table before and the paths alone. -/
theorem State.recordCodes_congr (paths : List (Symbol × List Bool)) {s t : State} (hl : s.codeLen = t.codeLen)
    (hb : s.codeBits = t.codeBits) :
    (s.recordCodes paths).codeLen = (t.recordCodes paths).codeLen ∧
      (s.recordCodes paths).codeBits = (t.recordCodes paths).codeBits := by
  induction paths generalizing s t with
  | nil => exact ⟨hl, hb⟩
  | cons p ps ih =>
    exact ih (s := s.recordCode p.1 p.2) (t := t.recordCode p.1 p.2) (by simp [State.recordCode, hl])
      (by simp [State.recordCode, hb])

/-- An empty code table stays empty while CODE_LEN and CODE_BITS are kept. -/
theorem State.NoCodes.of_eq {s t : State} (h : s.NoCodes) (hl : t.codeLen = s.codeLen) (hb : t.codeBits = s.codeBits) :
    t.NoCodes := ⟨hl.trans h.1, hb.trans h.2⟩

/-- The tree's code table stays the tree's while NODE, ROOT, CODE_LEN and CODE_BITS are kept. -/
theorem State.TreeCodes.of_eq {s t : State} (h : s.TreeCodes) (hn : t.nodes = s.nodes) (hr : t.root = s.root)
    (hl : t.codeLen = s.codeLen) (hb : t.codeBits = s.codeBits) : t.TreeCodes := by
  have hp : t.treePaths = s.treePaths := by simp [State.treePaths, hn, hr]
  have hc := State.recordCodes_congr s.treePaths (s := t.withoutCodes) (t := s.withoutCodes) rfl rfl
  exact ⟨by rw [hp, hc.1, hl]; exact h.1, by rw [hp, hc.2, hb]; exact h.2⟩

/-- A code table with a code word is not empty. -/
theorem State.not_noCodes {s : State} {sym : Nat} (h : s.codeLenAt sym ≠ 0#9) : ¬ s.NoCodes := by
  intro hn
  refine h ?_
  by_cases hs : sym < 257 <;> simp [State.codeLenAt, hn.1, hs]

end Sys2Proof.Machine
end

