-- ==== Sys2Proof/Laws/PerInstr.lean ====
section
/-! SUPPORT. Statements made per instruction. `Encoded`: an instruction's word lies in its row of the opcode map, its operand
added to the row's match word, and the instruction is well formed (spec/30_encoding.md R101 to R103, R107). -/

namespace Sys2Proof.Laws

/-- The instruction is well formed, and its word is its row's match word with the operand in the low bits. -/
def Encoded.Statement (i : Instr) : Prop :=
  i.wellFormed = true ∧ ∃ r ∈ opcodeMap, r.mnemonic = i.mnemonic ∧ r.format = i.format ∧ r.matches (encode i) = true ∧
    (encode i).toNat = r.matchWord.toNat + i.operandValue

theorem Encoded.nop : Encoded.Statement .nop := by unfold Encoded.Statement; decide
theorem Encoded.clear : Encoded.Statement .clear := by unfold Encoded.Statement; decide

theorem Encoded.count (b : Byte) : Encoded.Statement (.count b) :=
  ⟨decide_eq_true b.isLt,
    ⟨.COUNT, .B, 0x02000000#32, 0xFFFFFF00#32⟩, by decide, rfl, rfl, by revert b; decide +kernel, by revert b; decide +kernel⟩

theorem Encoded.loadFreq (s : Symbol) : Encoded.Statement (.loadFreq s) :=
  ⟨decide_eq_true s.isLt,
    ⟨.LOAD_FREQ, .S, 0x03000000#32, 0xFFFFFE00#32⟩, by decide, rfl, rfl, by revert s; decide +kernel,
    by revert s; decide +kernel⟩

theorem Encoded.sealTable : Encoded.Statement .sealTable := by unfold Encoded.Statement; decide
theorem Encoded.buildTree : Encoded.Statement .buildTree := by unfold Encoded.Statement; decide
theorem Encoded.buildCodes : Encoded.Statement .buildCodes := by unfold Encoded.Statement; decide

theorem Encoded.encodeByte (b : Byte) : Encoded.Statement (.encodeByte b) :=
  ⟨decide_eq_true b.isLt,
    ⟨.ENCODE, .B, 0x07000000#32, 0xFFFFFF00#32⟩, by decide, rfl, rfl, by revert b; decide +kernel, by revert b; decide +kernel⟩

theorem Encoded.encodeEnd : Encoded.Statement .encodeEnd := by unfold Encoded.Statement; decide

theorem Encoded.decodeBit (t : Bool) : Encoded.Statement (.decodeBit t) := by
  unfold Encoded.Statement; cases t <;> decide

theorem Encoded.decodeEnd : Encoded.Statement .decodeEnd := by unfold Encoded.Statement; decide

end Sys2Proof.Laws
end

