-- ==== Sys2Proof/Laws/Step.lean ====
section
/-! SUPPORT. The inversion lemmas of a command word, a bus access and a step: if it answers a next state, then one of these
cases holds. -/

namespace Sys2Proof.Machine

/-- Every command answers a next state. -/
theorem exec_next (i : Instr) (s : State) : ∃ t, exec i s = .next t := by
  have hg : ∀ body : Result, (∃ t, body = .next t) → ∃ t, gated i s body = .next t := by
    intro body hb
    unfold gated raiseIn
    split
    · exact ⟨_, rfl⟩
    · split
      · exact hb
      · exact ⟨_, rfl⟩
  have hi : ∀ (c : Prop) [Decidable c] (a b : Result), (∃ t, a = .next t) → (∃ t, b = .next t) →
      ∃ t, (if c then a else b) = .next t := by
    intro c _ a b ha hb
    split
    · exact ha
    · exact hb
  cases i with
  | nop => exact ⟨_, rfl⟩
  | clear => exact ⟨_, rfl⟩
  | count b => exact hg _ (hi _ _ _ ⟨_, rfl⟩ ⟨_, rfl⟩)
  | loadFreq sym =>
    exact hg _ (hi _ _ _ ⟨_, rfl⟩ (hi _ _ _ ⟨_, rfl⟩ (hi _ _ _ ⟨_, rfl⟩ (hi _ _ _ ⟨_, rfl⟩
      (hi _ _ _ ⟨_, rfl⟩ ⟨_, rfl⟩)))))
  | sealTable => exact hg _ (hi _ _ _ ⟨_, rfl⟩ ⟨_, rfl⟩)
  | buildTree => exact hg _ ⟨_, rfl⟩
  | buildCodes => exact hg _ ⟨_, rfl⟩
  | encodeByte b => exact hg _ (hi _ _ _ ⟨_, rfl⟩ ⟨_, rfl⟩)
  | encodeEnd => exact hg _ ⟨_, rfl⟩
  | decodeBit t => exact hg _ (hi _ _ _ ⟨_, rfl⟩ (hi _ _ _ ⟨_, rfl⟩ ⟨_, rfl⟩))
  | decodeEnd => exact hg _ (hi _ _ _ ⟨_, rfl⟩ ⟨_, rfl⟩)

/-- A command word: it runs as its instruction, is ignored in ERROR, or raises ILLEGAL_COMMAND. -/
theorem command_cases {w : Word} {s t : State} (h : command w s = .next t) :
    (∃ i, decode w = .ok i ∧ exec i s = .next t) ∨
    (∃ r, decode w = .error r ∧
      ((s.phase = .error ∧ t = s) ∨ (s.phase ≠ .error ∧ t = s.raise .illegalCommand r.reason w))) := by
  unfold command at h
  split at h
  · exact .inl ⟨_, by assumption, h⟩
  · refine .inr ⟨_, by assumption, ?_⟩
    split at h
    · cases h; exact .inl ⟨by assumption, rfl⟩
    · cases h; exact .inr ⟨by assumption, rfl⟩

/-- A bus access: a command word, a write of CTRL or ARG, or nothing but the bus's answer. -/
theorem access_cases {x : BusAccess} {s t : State} (h : access x s = .next t) :
    (∃ w, x = .write Config.cmdOffset 4 w ∧ command w (s.respond .writeDone) = .next t) ∨
    (∃ v : Word, x = .write Config.ctrlOffset 4 v ∧ t = { s.respond .writeDone with materialize := v.getLsbD 0 }) ∨
    (∃ v : Word, x = .write Config.argOffset 4 v ∧ t = { s.respond .writeDone with arg := v }) ∨
    (∃ r, t = s.respond r) := by
  cases x with
  | read a size =>
    simp only [access] at h
    split at h <;> (cases h; exact .inr (.inr (.inr ⟨_, rfl⟩)))
  | write a size v =>
    simp only [access] at h
    split at h
    · rename_i hok
      have hs : size = 4 := by simp [accessOk] at hok; exact hok.1
      subst hs
      unfold writeWord at h
      split at h
      · rename_i ha; subst ha; cases h; exact .inr (.inl ⟨v, rfl, rfl⟩)
      split at h
      · rename_i ha; subst ha; cases h; exact .inr (.inr (.inl ⟨v, rfl, rfl⟩))
      split at h
      · rename_i ha; subst ha; exact .inl ⟨v, rfl, h⟩
      · cases h; exact .inr (.inr (.inr ⟨_, rfl⟩))
    · cases h; exact .inr (.inr (.inr ⟨_, rfl⟩))

/-- A step: reset, an idle block, or the host's next access. -/
theorem step_cases {s t : State} (h : step s = .next t) :
    (s.resetIn.head? = some true ∧ t = s.underReset) ∨
    (s.resetIn.head? ≠ some true ∧ s.pending = [] ∧ t = s.taking []) ∨
    (s.resetIn.head? ≠ some true ∧ ∃ x rest, s.pending = x :: rest ∧
      access x (s.taking rest) = .next t) := by
  unfold step busStep at h
  split at h
  · cases h; exact .inl ⟨by assumption, rfl⟩
  · split at h
    · cases h; exact .inr (.inl ⟨by assumption, by assumption, rfl⟩)
    · exact .inr (.inr ⟨by assumption, _, _, by assumption, h⟩)

end Sys2Proof.Machine
end

