-- ==== Sys2Proof/Laws/Tree.lean ====
section
/-! SUPPORT. The tree builder's parts: the leaves made from a table, the priority order, taking the least of Q, and what a merge
loop keeps of the nodes it starts from. -/

namespace Sys2Proof.Machine

/-! ### Leaves -/

/-- Every node of `leavesFrom` is the leaf of a nonzero count. -/
theorem mem_leavesFrom {l : List (BitVec 32)} {sym : Nat} {n : Node} :
    n ∈ leavesFrom l sym ↔ ∃ k, ∃ h : k < l.length, l[k] ≠ 0#32 ∧ n = leafNode (sym + k) l[k] := by
  induction l generalizing sym with
  | nil => simp [leavesFrom]
  | cons c rest ih =>
    have shift : (∃ k, ∃ h : k < rest.length, rest[k] ≠ 0#32 ∧ n = leafNode (sym + 1 + k) rest[k]) ↔
        ∃ k, ∃ h : k + 1 < (c :: rest).length, (c :: rest)[k + 1] ≠ 0#32 ∧ n = leafNode (sym + (k + 1)) (c :: rest)[k + 1] := by
      simp [Nat.add_assoc, Nat.add_comm 1]
    rw [leavesFrom]
    split
    · rename_i hc
      rw [ih, shift]
      constructor
      · rintro ⟨k, h⟩; exact ⟨k + 1, h⟩
      · rintro ⟨k, h, hn, he⟩
        cases k with
        | zero => exact absurd hc hn
        | succ k => exact ⟨k, h, hn, he⟩
    · rename_i hc
      rw [List.mem_cons, ih, shift]
      constructor
      · rintro (rfl | ⟨k, h⟩)
        · exact ⟨0, by simp, hc, rfl⟩
        · exact ⟨k + 1, h⟩
      · rintro ⟨k, h, hn, he⟩
        cases k with
        | zero => exact .inl he
        | succ k => exact .inr ⟨k, h, hn, he⟩

/-- There are as many leaves as nonzero counts. -/
theorem length_leavesFrom (l : List (BitVec 32)) (sym : Nat) :
    (leavesFrom l sym).length = l.countP fun c => c != 0#32 := by
  induction l generalizing sym with
  | nil => rfl
  | cons c rest ih =>
    rw [leavesFrom]
    split <;> simp_all

/-- The leaves are NSYM many, one for each entry. -/
theorem State.length_leaves (s : State) : (leavesFrom s.freq.toList 0).length = s.freqCount := length_leavesFrom _ _

/-! ### The priority order -/

theorem before_iff {nodes : List Node} {i j : Nat} : before nodes i j = true ↔ precedes nodes i j := by
  simp [before, precedes]

theorem precedes_trans {nodes : List Node} {i j k : Nat} (h : precedes nodes i j) (h' : precedes nodes j k) :
    precedes nodes i k := by
  unfold precedes at *; omega

theorem precedes_total {nodes : List Node} {i j : Nat} (h : i ≠ j) : precedes nodes i j ∨ precedes nodes j i := by
  unfold precedes; omega

/-- `least` gives a member of Q that precedes every other one. -/
theorem least_spec {nodes : List Node} {q : List Nat} {a : Nat} (h : least nodes q = some a) :
    a ∈ q ∧ ∀ i ∈ q, i ≠ a → precedes nodes a i := by
  induction q generalizing a with
  | nil => cases h
  | cons i rest ih =>
    rw [least] at h
    cases hl : least nodes rest with
    | none =>
      rw [hl] at h
      cases h
      have : rest = [] := by
        cases rest with
        | nil => rfl
        | cons j js => rw [least] at hl; split at hl <;> cases hl
      subst this
      simp
    | some j =>
      rw [hl] at h
      obtain ⟨hj, hmin⟩ := ih hl
      by_cases hb : before nodes i j = true
      · simp only [hb, if_true, Option.some.injEq] at h
        subst h
        have hij := before_iff.mp hb
        refine ⟨by simp, fun k hk hne => ?_⟩
        obtain rfl | hk := List.mem_cons.mp hk
        · exact absurd rfl hne
        · by_cases hkj : k = j
          · exact hkj ▸ hij
          · exact precedes_trans hij (hmin k hk hkj)
      · simp only [hb, Option.some.injEq] at h
        have h : j = a := h
        subst h
        refine ⟨by simp [hj], fun k hk hne => ?_⟩
        obtain rfl | hk := List.mem_cons.mp hk
        · exact (precedes_total hne).resolve_left fun hp => hb (before_iff.mpr hp)
        · exact hmin k hk hne

theorem least_isSome {nodes : List Node} {q : List Nat} (h : q ≠ []) : ∃ a, least nodes q = some a := by
  cases q with
  | nil => exact absurd rfl h
  | cons i rest => rw [least]; split <;> exact ⟨_, rfl⟩

/-- Taking the least of a Q that is not empty: its least element, and Q without it. -/
theorem takeLeast_spec {nodes : List Node} {q : List Nat} (h : q ≠ []) :
    ∃ a, takeLeast nodes q = some (a, q.erase a) ∧ a ∈ q ∧ ∀ i ∈ q, i ≠ a → precedes nodes a i := by
  obtain ⟨a, ha⟩ := least_isSome (nodes := nodes) h
  exact ⟨a, by simp [takeLeast, ha], least_spec ha⟩

/-! ### The merge loop -/

/-- One merge: with two elements or more, the two least are taken and their node is added last. -/
theorem mergeLoop_step {w fuel : Nat} {nodes : List Node} {q : List Nat} (h : 2 ≤ q.length) :
    ∃ a b, a ∈ q ∧ b ∈ q.erase a ∧
      (∀ i ∈ q, i ≠ a → precedes nodes a i) ∧ (∀ i ∈ q.erase a, i ≠ b → precedes nodes b i) ∧
      mergeLoop w (fuel + 1) nodes q =
        mergeLoop w fuel (nodes ++ [mergedNode w nodes a b]) ((q.erase a).erase b ++ [nodes.length]) := by
  obtain ⟨a, ha, haq, hamin⟩ := takeLeast_spec (nodes := nodes) (q := q) (by rintro rfl; simp at h)
  have hl := List.length_erase_of_mem haq
  obtain ⟨b, hb, hbq, hbmin⟩ := takeLeast_spec (nodes := nodes) (q := q.erase a) (by
    intro he; rw [he] at hl; simp at hl; omega)
  exact ⟨a, b, haq, hbq, hamin, hbmin, by rw [mergeLoop]; simp only [ha, hb]⟩

/-- With fewer than two elements the loop has ended. -/
theorem mergeLoop_end {w fuel : Nat} {nodes : List Node} {q : List Nat} (h : q.length ≤ 1) :
    mergeLoop w fuel nodes q = nodes := by
  cases fuel with
  | zero => rfl
  | succ fuel =>
    match q, h with
    | [], _ => rfl
    | [i], _ => simp [mergeLoop, takeLeast, least]

/-- The loop only adds nodes behind those it starts from. -/
theorem prefix_mergeLoop (w fuel : Nat) (nodes : List Node) (q : List Nat) : nodes <+: mergeLoop w fuel nodes q := by
  induction fuel generalizing nodes q with
  | zero => exact List.prefix_rfl
  | succ fuel ih =>
    by_cases h : 2 ≤ q.length
    · obtain ⟨a, b, -, -, -, -, he⟩ := mergeLoop_step (w := w) (fuel := fuel) (nodes := nodes) h
      rw [he]
      exact (List.prefix_append _ _).trans (ih _ _)
    · rw [mergeLoop_end (by omega)]

/-- With fuel enough the loop merges |Q| - 1 times. -/
theorem length_mergeLoop (w fuel : Nat) (nodes : List Node) (q : List Nat) (h : q.length ≤ fuel + 1) :
    (mergeLoop w fuel nodes q).length = nodes.length + (q.length - 1) := by
  induction fuel generalizing nodes q with
  | zero => rw [mergeLoop_end (by omega)]; omega
  | succ fuel ih =>
    by_cases h2 : 2 ≤ q.length
    · obtain ⟨a, b, ha, hb, -, -, he⟩ := mergeLoop_step (w := w) (fuel := fuel) (nodes := nodes) h2
      have h1 := List.length_erase_of_mem ha
      have h3 := List.length_erase_of_mem hb
      rw [he, ih _ _ (by simp; omega)]
      simp; omega
    · rw [mergeLoop_end (by omega)]; omega

end Sys2Proof.Machine
end

