-- ==== Sys2Proof/Machine/HostText.lean ====
section
/-! DEFINITION. The text of a host program, read line by line: command lines (spec/30_encoding.md R107), WR, RD and EXPECT
lines (R108), and pseudo-instructions (R109). A text is a list of characters. Where the rules leave spacing open, one or
more spaces separate and none may end a line (assumption log 14). -/

namespace Sys2Proof.Machine

/-! ### Operands (R107) -/

/-- The value of a digit in base 10 or 16. -/
def digitValue (base : Nat) (c : Char) : Option Nat :=
  let n := c.toNat
  let v := if 48 ≤ n ∧ n ≤ 57 then some (n - 48)
    else if 97 ≤ n ∧ n ≤ 102 then some (n - 87)
    else if 65 ≤ n ∧ n ≤ 70 then some (n - 55)
    else none
  v.filter fun d => decide (d < base)

/-- A number written in the base, its digits before this text being worth `acc`. -/
def readDigits (base : Nat) : List Char → Nat → Option Nat
  | [], acc => some acc
  | c :: rest, acc => (digitValue base c).bind fun d => readDigits base rest (base * acc + d)

/-- A decimal number, a hex number, or EOF for 256 (R107). -/
def readNumber (text : List Char) : Option Nat :=
  match text with
  | [] => none
  | ['E', 'O', 'F'] => some 256
  | '0' :: 'x' :: d :: rest => readDigits 16 (d :: rest) 0
  | _ => readDigits 10 text 0

/-- A character that can stand in a number or a name. -/
def wordChar (c : Char) : Bool := c.isAlphanum || c == '_'

/-- A number at the head of the text, and the text after it. -/
def takeNumber (text : List Char) : Option (Nat × List Char) :=
  (readNumber (text.takeWhile wordChar)).map fun v => (v, text.dropWhile wordChar)

/-- The byte value a character stands for; none for a character that is no byte (R107, R109). -/
def byteValue (c : Char) : Option Nat := if c.toNat ≤ 255 then some c.toNat else none

/-- An operand at the head of the text, a number or a character literal for its byte value (R107), and the text after it. -/
def takeOperand (text : List Char) : Option (Nat × List Char) :=
  match text with
  | q :: c :: q' :: rest =>
    if q.toNat = 39 ∧ q'.toNat = 39 then (byteValue c).map fun v => (v, rest) else takeNumber text
  | _ => takeNumber text

/-- An operand that ends its text. -/
def readOperand (text : List Char) : Option Nat :=
  (takeOperand text).bind fun p => if p.2 = [] then some p.1 else none

/-- The text after its leading spaces. -/
def skipSpaces (text : List Char) : List Char := text.dropWhile (· == ' ')

/-- The text after a comma and spaces. -/
def afterComma : List Char → Option (List Char)
  | ',' :: rest => some (skipSpaces rest)
  | _ => none

/-! ### Command lines (R107) -/

/-- A mnemonic as it is written. -/
def mnemonicName : Mnemonic → List Char
  | .NOP => ['N', 'O', 'P']
  | .CLEAR => ['C', 'L', 'E', 'A', 'R']
  | .COUNT => ['C', 'O', 'U', 'N', 'T']
  | .LOAD_FREQ => ['L', 'O', 'A', 'D', '_', 'F', 'R', 'E', 'Q']
  | .SEAL => ['S', 'E', 'A', 'L']
  | .BUILD_TREE => ['B', 'U', 'I', 'L', 'D', '_', 'T', 'R', 'E', 'E']
  | .BUILD_CODES => ['B', 'U', 'I', 'L', 'D', '_', 'C', 'O', 'D', 'E', 'S']
  | .ENCODE => ['E', 'N', 'C', 'O', 'D', 'E']
  | .ENCODE_END => ['E', 'N', 'C', 'O', 'D', 'E', '_', 'E', 'N', 'D']
  | .DECODE_BIT => ['D', 'E', 'C', 'O', 'D', 'E', '_', 'B', 'I', 'T']
  | .DECODE_END => ['D', 'E', 'C', 'O', 'D', 'E', '_', 'E', 'N', 'D']

/-- Every mnemonic. -/
def allMnemonics : List Mnemonic :=
  [.NOP, .CLEAR, .COUNT, .LOAD_FREQ, .SEAL, .BUILD_TREE, .BUILD_CODES, .ENCODE, .ENCODE_END, .DECODE_BIT, .DECODE_END]

/-- A command line: the mnemonic, then at most one operand (R107). -/
def readCommand (name rest : List Char) : Option AsmCommand :=
  (allMnemonics.find? fun m => mnemonicName m == name).bind fun m =>
    match rest with
    | [] => some ⟨m, none⟩
    | c :: cs => (readOperand (c :: cs)).map fun v => ⟨m, some v⟩

/-! ### Registers (R108) -/

/-- The registers of R71 by name. -/
def registerNames : List (List Char × RegName) :=
  [(['I', 'D'], .id),
   (['C', 'T', 'R', 'L'], .ctrl),
   (['S', 'T', 'A', 'T', 'U', 'S'], .status),
   (['C', 'M', 'D'], .cmd),
   (['A', 'R', 'G'], .arg),
   (['E', 'R', 'R', 'C', 'M', 'D'], .errcmd),
   (['E', 'R', 'R', 'D', 'E', 'T', 'A', 'I', 'L'], .errdetail),
   (['T', 'O', 'T', 'A', 'L'], .total),
   (['N', 'S', 'Y', 'M'], .nsym),
   (['N', 'N', 'O', 'D', 'E', 'S'], .nnodes),
   (['R', 'O', 'O', 'T'], .root),
   (['C', 'U', 'R'], .cur),
   (['B', 'I', 'T', 'C', 'O', 'U', 'N', 'T', '_', 'L', 'O'], .bitcountLo),
   (['B', 'I', 'T', 'C', 'O', 'U', 'N', 'T', '_', 'H', 'I'], .bitcountHi),
   (['S', 'Y', 'M', 'C', 'O', 'U', 'N', 'T'], .symcount),
   (['P', 'A', 'R', 'A', 'M', 'S'], .params)]

/-- The windows whose element is written with one index. -/
def windowNames : List (List Char × (Nat → RegName)) :=
  [(['F', 'R', 'E', 'Q'], .freq),
   (['C', 'O', 'D', 'E', '_', 'L', 'E', 'N'], .codeLen),
   (['N', 'O', 'D', 'E', '_', 'A'], .nodeA),
   (['N', 'O', 'D', 'E', '_', 'B'], .nodeB)]

/-- A register or window element at the head of the text, and the text after it. -/
def takeReg (text : List Char) : Option (RegName × List Char) :=
  let name := text.takeWhile wordChar
  match text.dropWhile wordChar with
  | '[' :: inside =>
    (takeOperand inside).bind fun p =>
      match p.2 with
      | ']' :: after =>
        if name = ['C', 'O', 'D', 'E', '_', 'B', 'I', 'T', 'S'] then
          match after with
          | '.' :: more => (takeOperand more).map fun w => (.codeBits p.1 w.1, w.2)
          | _ => none
        else (windowNames.find? fun r => r.1 == name).map fun r => (r.2 p.1, after)
      | _ => none
  | after => (registerNames.find? fun r => r.1 == name).map fun r => (r.2, after)

/-- `<reg>, <value>`. -/
def readRegValue (text : List Char) : Option (RegName × Nat) :=
  (takeReg text).bind fun r => (afterComma r.2).bind fun rest => (readOperand rest).map fun v => (r.1, v)

/-! ### Pseudo-instructions (R109) -/

/-- A quoted string that ends its text, without the quotes. -/
def readQuoted : List Char → Option (List Char)
  | [] => none
  | q :: rest =>
    if q.toNat = 34 ∧ (rest.dropWhile (·.toNat != 34)).map Char.toNat = [34] then some (rest.takeWhile (·.toNat != 34))
    else none

/-- The bytes the characters stand for. -/
def toBytes : List Char → Option (List Byte)
  | [] => some []
  | c :: rest => (byteValue c).bind fun v => (toBytes rest).map fun bs => BitVec.ofNat 8 v :: bs

/-- The bytes of a quoted string, each character standing for its byte value. -/
def readBytes (text : List Char) : Option (List Byte) := (readQuoted text).bind toBytes

/-- The bits of a quoted bit string. -/
def readBits (text : List Char) : Option (List Bool) :=
  (readQuoted text).bind fun cs => if cs.all fun c => c == '0' || c == '1' then some (cs.map (· == '1')) else none

/-- The pairs of a header, `(s1,c1),…,(sk,ck)` and the closing brace (code 125), and the text after it. The first argument
bounds their number. -/
def takePairs : Nat → List Char → Option (List (Nat × Nat) × List Char)
  | 0, _ => none
  | fuel + 1, text =>
    match text with
    | '(' :: t1 =>
      (takeOperand t1).bind fun s => (afterComma s.2).bind fun t2 => (takeOperand t2).bind fun c =>
        match c.2 with
        | ')' :: t3 =>
          match t3 with
          | [] => none
          | d :: t4 =>
            if d.toNat = 125 then some ([(s.1, c.1)], t4)
            else (afterComma t3).bind fun t5 => (takePairs fuel t5).map fun p => ((s.1, c.1) :: p.1, p.2)
        | _ => none
    | _ => none

/-- A header in braces (codes 123 and 125), and the text after it. -/
def takeHeader : List Char → Option (List (Nat × Nat) × List Char)
  | b :: e :: rest =>
    if b.toNat = 123 then (if e.toNat = 125 then some ([], rest) else takePairs rest.length (e :: rest)) else none
  | _ => none

/-! ### Lines and programs (R108) -/

/-- A line of a host program, as it is written. -/
def readLine (line : List Char) : Option HostLine :=
  let name := line.takeWhile (· != ' ')
  let rest := skipSpaces (line.dropWhile (· != ' '))
  if name = ['W', 'R'] then (readRegValue rest).map fun p => .wr p.1 p.2
  else if name = ['R', 'D'] then (takeReg rest).bind fun r => if r.2 = [] then some (.rd r.1) else none
  else if name = ['E', 'X', 'P', 'E', 'C', 'T'] then (readRegValue rest).map fun p => .expect p.1 p.2
  else if name = ['L', 'O', 'A', 'D', 'F'] then
    (takeOperand rest).bind fun s => (afterComma s.2).bind fun t => (readOperand t).map fun c => .loadF s.1 c
  else if name = ['C', 'O', 'U', 'N', 'T', 'S'] then (readBytes rest).map .counts
  else if name = ['E', 'N', 'C', 'O', 'D', 'E', 'S'] then (readBytes rest).map .encodes
  else if name = ['D', 'E', 'C', 'O', 'D', 'E', 'S'] then (readBits rest).map .decodes
  else if name = ['S', 'E', 'T', 'M', 'A', 'T'] then (readOperand rest).map .setMat
  else if name = ['C', 'O', 'M', 'P', 'R', 'E', 'S', 'S'] then (readBytes rest).map .compress
  else if name = ['D', 'E', 'C', 'O', 'M', 'P', 'R', 'E', 'S', 'S'] then
    (takeHeader rest).bind fun h => (afterComma h.2).bind fun t => (readBits t).map fun bits => .decompress h.1 bits
  else (readCommand name rest).map .command

/-- The bus accesses a written line stands for; none where the line is rejected. -/
def assembleLine (line : List Char) : Option (List BusAccess) := (readLine line).bind HostLine.expand

/-- The bus accesses of a written host program. -/
def assembleProgram : List (List Char) → Option (List BusAccess)
  | [] => some []
  | l :: rest => (assembleLine l).bind fun xs => (assembleProgram rest).map fun ys => xs ++ ys

end Sys2Proof.Machine
end

