-- ==== Sys2Proof/Tests/Slice0.lean ====
section
/-! SUPPORT. The model's own tests: the well-formedness smoke tests, the decoding of words written out from the spec's encodings,
one-step tests whose expected values are the spec's own vectors (95_test_vectors.md, named in each comment), and for every
statement with hypotheses a concrete state and operands that meet them. -/

namespace Sys2Proof.Tests

set_option Elab.async false

open Sys2Proof.Machine

/-! ### Well-formedness: each check refuses an ill-formed term (R107, R108) -/

theorem test_wf_count_256 : AsmCommand.wellFormed ⟨.COUNT, some 256⟩ = false := by decide
theorem test_wf_encode_256 : AsmCommand.wellFormed ⟨.ENCODE, some 256⟩ = false := by decide
theorem test_wf_load_freq_512 : AsmCommand.wellFormed ⟨.LOAD_FREQ, some 512⟩ = false := by decide
theorem test_wf_decode_bit_2 : AsmCommand.wellFormed ⟨.DECODE_BIT, some 2⟩ = false := by decide
theorem test_wf_operand_missing : AsmCommand.wellFormed ⟨.COUNT, none⟩ = false := by decide
theorem test_wf_operand_superfluous : AsmCommand.wellFormed ⟨.SEAL, some 0⟩ = false := by decide
theorem test_wf_limits : AsmCommand.wellFormed ⟨.COUNT, some 255⟩ = true ∧ AsmCommand.wellFormed ⟨.LOAD_FREQ, some 511⟩ = true ∧
    AsmCommand.wellFormed ⟨.DECODE_BIT, some 1⟩ = true := by decide
theorem test_wf_window_elements : RegName.wellFormed (.freq 1024) = false ∧ RegName.wellFormed (.codeLen 1024) = false ∧
    RegName.wellFormed (.codeBits 512 0) = false ∧ RegName.wellFormed (.codeBits 0 8) = false ∧
    RegName.wellFormed (.nodeA 1024) = false ∧ RegName.wellFormed (.nodeB 1024) = false := by decide
theorem test_wf_lines : HostLine.wellFormed (.wr .arg (2 ^ 32)) = false ∧ HostLine.wellFormed (.rd (.freq 1024)) = false ∧
    HostLine.wellFormed (.expect .arg (2 ^ 32)) = false ∧ HostLine.wellFormed (.command ⟨.COUNT, some 256⟩) = false ∧
    HostLine.wellFormed (.loadF 512 1) = false ∧ HostLine.wellFormed (.setMat (2 ^ 32)) = false ∧
    HostLine.wellFormed (.decompress [(512, 1)] []) = false := by decide

/-! ### Decoding: one word for every constructor, written out from R100, R101 and R103 as opcode byte, zeros, operand -/

theorem test_decode_nop : decode 0b00000000_00000000_00000000_00000000#32 = .ok .nop := by decide
theorem test_decode_clear : decode 0b00000001_00000000_00000000_00000000#32 = .ok .clear := by decide
theorem test_decode_count : decode 0b00000010_00000000_00000000_01100001#32 = .ok (.count 0x61#8) := by decide
theorem test_decode_load_freq : decode 0b00000011_00000000_00000001_00000010#32 = .ok (.loadFreq 0x102#9) := by decide
theorem test_decode_seal : decode 0b00000100_00000000_00000000_00000000#32 = .ok .sealTable := by decide
theorem test_decode_build_tree : decode 0b00000101_00000000_00000000_00000000#32 = .ok .buildTree := by decide
theorem test_decode_build_codes : decode 0b00000110_00000000_00000000_00000000#32 = .ok .buildCodes := by decide
theorem test_decode_encode : decode 0b00000111_00000000_00000000_10000001#32 = .ok (.encodeByte 0x81#8) := by decide
theorem test_decode_encode_end : decode 0b00001000_00000000_00000000_00000000#32 = .ok .encodeEnd := by decide
theorem test_decode_decode_bit : decode 0b00001001_00000000_00000000_00000001#32 = .ok (.decodeBit true) := by decide
theorem test_decode_decode_end : decode 0b00001010_00000000_00000000_00000000#32 = .ok .decodeEnd := by decide

/-- CT3, CT4: reserved opcodes. -/
theorem test_decode_reserved_opcode : decode 0x0B000000#32 = .error .reservedOpcode ∧
    decode 0xFF000000#32 = .error .reservedOpcode := by decide

/-- CT5, CT6, CT8, CT9: a reserved bit set, the lowest one of each format. -/
theorem test_decode_reserved_bit : decode 0x02000161#32 = .error .reservedBit ∧ decode 0x09000002#32 = .error .reservedBit ∧
    decode 0x00000001#32 = .error .reservedBit ∧ decode 0x01000001#32 = .error .reservedBit ∧
    decode 0x03000200#32 = .error .reservedBit := by decide

theorem test_table_word : decodeTableWord 32 0x02000061 = some (.count 0x61#8) ∧ decodeTableWord 32 0x0B000000 = none := by
  decide

/-! ### The assembler's text (R107 to R109) -/

/-- P2 line 6; an operand out of range is rejected. -/
theorem test_text_command : assembleLine ['C', 'O', 'U', 'N', 'T', ' ', '9', '7'] = some [.write 0x000C#16 4 0x02000061#32] ∧
    assembleLine ['C', 'O', 'U', 'N', 'T', ' ', '2', '5', '6'] = none ∧
    assembleLine ['L', 'O', 'A', 'D', '_', 'F', 'R', 'E', 'Q', ' ', 'E', 'O', 'F'] =
      some [.write 0x000C#16 4 0x03000100#32] := by decide

/-- A character literal stands for its byte value, and a character that is no byte (code 256) is rejected (R107). -/
theorem test_text_character :
    assembleLine (['L', 'O', 'A', 'D', '_', 'F', 'R', 'E', 'Q', ' '] ++ [39, 97, 39].map Char.ofNat) =
      some [.write 0x000C#16 4 0x03000061#32] ∧
    assembleLine (['L', 'O', 'A', 'D', '_', 'F', 'R', 'E', 'Q', ' '] ++ [39, 256, 39].map Char.ofNat) = none := by decide

/-- `RD NODE_A[1]` reads 0x8008 (P3 line 5). -/
theorem test_text_window : assembleLine ['R', 'D', ' ', 'N', 'O', 'D', 'E', '_', 'A', '[', '1', ']'] =
    some [.read 0x8008#16 4] := by decide

/-! ### Small states -/

/-- The state after several commands. -/
def after (cs : List Instr) (s : State) : State :=
  match execAll cs s with
  | .next t => t
  | .fault _ => s
  | .refused _ => s

/-- One command leads to the state after it. -/
theorem after_next (i : Instr) (s : State) : exec i s = .next (after [i] s) := by
  obtain ⟨t, h⟩ := exec_next i s
  simp [after, execAll, h]

/-- Several commands lead to the state after them. -/
theorem execAll_after (cs : List Instr) (s : State) : execAll cs s = .next (after cs s) := by
  have h : ∃ t, execAll cs s = .next t := by
    induction cs generalizing s with
    | nil => exact ⟨s, rfl⟩
    | cons i rest ih =>
      obtain ⟨t, ht⟩ := exec_next i s
      simpa [execAll, ht] using ih t
  obtain ⟨t, ht⟩ := h
  simp [after, ht]

/-- A pending command word leads to the state after its command. -/
theorem step_command {w : Word} {i : Instr} (s : State) (h : decode w = .ok i) :
    step (s.withCommand w) = .next (after [i] (s.respond .writeDone)) := by
  have : step (s.withCommand w) = command w (s.respond .writeDone) := rfl
  rw [this, command, h]
  exact after_next i _

/-- "aaab" counted (CNT1), sealed (CNT2), its tree (TR1) and its codes (CD1). -/
def filled : State := after [.count 0x61#8, .count 0x61#8, .count 0x61#8, .count 0x62#8] State.reset
def closed : State := after [.sealTable] filled
def treed : State := after [.buildTree] closed
def coded : State := after [.buildCodes] treed

/-- The body of "aaab" (EN2). -/
def body : List Bool := [true, true, true, false, false, false, true]

/-- The empty source's tree (TR2). -/
def emptyTreed : State := after [.sealTable, .buildTree] State.reset

/-- The machine in ERROR (DE8). -/
def failed : State := after [.decodeEnd] treed

/-- Decoding begun in CODES, the loop-back (DE14's first bit). -/
def looped : State := after [.decodeBit true] coded

/-- A block of COUNT_WIDTH 2 (CMAX 3), with one byte counted. -/
def narrow : State := after [.count 0x61#8] (State.resetWith 2#6)

/-! ### One step of each command -/

/-- CNT1's last step. -/
theorem test_count : (filled.freqAt 0x61, filled.freqAt 0x62, filled.total, filled.nsym) = (3#32, 1#32, 4#32, 2#32) := by
  decide +kernel

/-- CNT19: COUNT_WIDTH 1. -/
theorem test_count_overflow : (after [.count 0x41#8] (State.resetWith 1#6)).status = 0x63F#32 := by decide +kernel

/-- CNT4's first step. -/
theorem test_load_freq : (fun t : State => (t.freqAt 0x61, t.total, t.nsym))
    (after [.loadFreq 0x61#9] { State.reset with arg := 3#32 }) = (3#32, 3#32, 1#32) := by decide +kernel

/-- CNT8: the symbol check comes before the count check. -/
theorem test_load_freq_order : (fun t : State => (t.status, t.errDetail, t.errCmd)) (after [.loadFreq 0x1FF#9] State.reset) =
    (0x53F#32, 2#16, 0x030001FF#32) := by decide +kernel

/-- CNT2. -/
theorem test_seal : (closed.freqAt 256, closed.total, closed.nsym, closed.status) = (1#32, 5#32, 3#32, 0x31#32) := by
  decide +kernel

/-- CNT21. -/
theorem test_seal_twice : (fun t : State => (t.status, t.errDetail)) (after [.sealTable] closed) = (0x43F#32, 1#16) := by
  decide +kernel

/-- TR1 with NW1 to NW6. -/
theorem test_build_tree : ((List.range 6).map treed.nodeA, (List.range 6).map treed.nodeB, treed.root, treed.nnodes) =
    ([0x061FFFFF#32, 0x062FFFFF#32, 0x100FFFFF#32, 0x90100801#32, 0x90100003#32, 0#32], [3#32, 1#32, 1#32, 2#32, 5#32, 0#32],
      4#10, 5#32) := by decide +kernel

/-- TR2 with NW7: the synthetic root. -/
theorem test_build_tree_empty : (emptyTreed.nodeA 0, emptyTreed.nodeA 1, emptyTreed.root, emptyTreed.status) =
    (0x100FFFFF#32, 0x901FFC00#32, 1#10, 0x02#32) := by decide +kernel

/-- CD1, with the window words of BU17. -/
theorem test_build_codes : (coded.codeWord 0x61, coded.codeWord 0x62, coded.codeWord 256, coded.codeBitsWord 256 0, coded.status) =
    ([true], [false, false], [false, true], 0x2#32, 0x03#32) := by decide +kernel

/-- The corner of V-CODE: BUILD_CODES in TABLE. -/
theorem test_build_codes_in_table : (fun t : State => (t.status, t.errDetail)) (after [.buildCodes] closed) =
    (0x43F#32, 1#16) := by decide +kernel

/-- EN1. -/
theorem test_encode : (fun t : State => (t.bitOut, t.bitCount, t.symCount, t.status)) (after [.encodeByte 0x62#8] coded) =
    ([false, false], 2#64, 1#32, 0x34#32) := by decide +kernel

/-- EN12's failing step. -/
theorem test_encode_uncounted : (fun t : State => (t.bitOut, t.status, t.errCmd)) (after [.encodeByte 0x63#8] coded) =
    ([], 0x23F#32, 0x07000063#32) := by decide +kernel

/-- EN13's first step. -/
theorem test_encode_end : (fun t : State => (t.bitOut, t.bitCount, t.symCount, t.status)) (after [.encodeEnd] coded) =
    ([false, true], 2#64, 0#32, 0x35#32) := by decide +kernel

/-- EN3 with MATERIALIZE = 0 (R181): counted, not sent. -/
theorem test_encode_end_size_only : (fun t : State => (t.bitOut, t.bitCount, t.status))
    (after [.encodeEnd] (after [.buildCodes] { emptyTreed with materialize := false })) = ([], 1#64, 0x35#32) := by
  decide +kernel

/-- DE1. -/
theorem test_decode_bit : (fun t : State => (t.byteOut, t.cur, t.bitCount, t.symCount, t.status))
    (after [.decodeBit true] treed) = ([0x61#8], 4#10, 1#64, 1#32, 0x06#32) := by decide +kernel

/-- DE11: the bit leads to NIL. -/
theorem test_decode_bit_nil : (fun t : State => (t.cur, t.bitCount, t.status, t.errDetail, t.errCmd))
    (after [.decodeBit true] emptyTreed) = (1#10, 0#64, 0x13F#32, 2#16, 0x09000001#32) := by decide +kernel

/-- DE8. -/
theorem test_decode_end : (fun t : State => (t.cur, t.status, t.errDetail)) (after [.decodeEnd] treed) =
    (4#10, 0x13F#32, 1#16) := by decide +kernel

/-- DE10, then DECODE_END in DEC_DONE: no effect (R202). -/
theorem test_decode_end_done : (fun t : State => (t.cur, t.status, t.byteOut))
    (after [.decodeEnd] (after [.decodeBit false] emptyTreed)) = (0#10, 0x27#32, []) := by decide +kernel

/-- CT1. -/
theorem test_nop : after [.nop] State.reset = State.reset := rfl

/-- CT13: CLEAR leaves CTRL and ARG. -/
theorem test_clear : (fun t : State => (t.readWord 0x0004#16, t.readWord 0x0010#16, t.status))
    (after [.clear] { closed with materialize := false, arg := 7#32 }) = (0#32, 7#32, 0x30#32) := by decide +kernel

/-! ### The bus and the step -/

/-- BU1, BU3, BU4, BU5, BU11. -/
theorem test_reset_reads : [0x0000#16, 0x0008#16, 0x000C#16, 0x0028#16, 0x002C#16, 0x0040#16, 0x3000#16, 0xA000#16].map
    State.reset.readWord = [0x48554646#32, 0x30#32, 0#32, 0x3FF#32, 0x3FF#32, 0#32, 0#32, 0#32] := by decide +kernel

/-- BU15, BU17, BU18: the windows at their boundaries. -/
theorem test_window_reads : [0x1404#16, 0x2184#16, 0x4C20#16, 0x2188#16, 0x4C40#16, 0x2400#16, 0x6000#16, 0x8020#16, 0x8024#16].map
    coded.readWord = [0#32, 1#32, 1#32, 2#32, 0#32, 2#32, 2#32, 0x90100003#32, 5#32] := by decide +kernel

/-- BU12, BU13, BU14: bus errors. -/
theorem test_bus_errors : access (.read 0x0000#16 2) State.reset = .next { State.reset with response := .readError 0#32 } ∧
    access (.read 0x0002#16 4) State.reset = .next { State.reset with response := .readError 0#32 } ∧
    access (.write 0x000D#16 4 0x02000061#32) State.reset = .next { State.reset with response := .writeError } :=
  ⟨rfl, rfl, rfl⟩

/-- One step from reset runs the command the host writes next. -/
theorem test_step_runs_command : step (State.reset.withFetchWord 32 0x02000061) =
    exec (.count 0x61#8) { State.reset with response := .writeDone } := rfl

/-- A run has ended when no access is left, whatever the reset input does later (R286). -/
theorem test_compress_complete :
    State.compressComplete { State.reset with phase := .encDone, resetIn := [false, true] } ∧
    ¬ State.compressComplete { State.reset with phase := .encDone, pending := [.read 0x0008#16 4] } :=
  ⟨⟨rfl, rfl⟩, fun h => by cases h.1⟩

/-! ### Invariants of concrete states -/

/-- The code table is empty, compared entry by entry. -/
def noCodesChecked (s : State) : Bool :=
  s.codeLen.toList == List.replicate 257 0#9 && s.codeBits.toList == List.replicate 257 0#256

/-- The code table is the tree's, compared entry by entry. -/
def treeCodesChecked (s : State) : Bool :=
  s.codeLen.toList == (s.withoutCodes.recordCodes s.treePaths).codeLen.toList &&
    s.codeBits.toList == (s.withoutCodes.recordCodes s.treePaths).codeBits.toList

theorem noCodes_of_checked {s : State} (h : noCodesChecked s = true) : s.NoCodes := by
  simp only [noCodesChecked, Bool.and_eq_true, beq_iff_eq] at h
  exact ⟨Vector.toList_inj.mp (h.1.trans (by simp)), Vector.toList_inj.mp (h.2.trans (by simp))⟩

theorem treeCodes_of_checked {s : State} (h : treeCodesChecked s = true) : s.TreeCodes := by
  simp only [treeCodesChecked, Bool.and_eq_true, beq_iff_eq] at h
  exact ⟨Vector.toList_inj.mp h.1, Vector.toList_inj.mp h.2⟩

/-- The invariants as one decidable check. -/
def invChecked (s : State) : Bool :=
  decide ((1 ≤ s.width ∧ s.width ≤ 32) ∧ s.total.toNat = s.freqSum ∧ s.nsym.toNat = s.freqCount ∧
    (s.freqAt 256 = 0#32 ∨ s.freqAt 256 = 1#32) ∧
    s.total.toNat + (if s.freqAt 256 = 0#32 then 1 else 0) ≤ Config.cmax s.width) &&
  decide ((s.err ≠ .none ↔ s.phase = .error) ∧ (s.err = .none → s.errCmd = 0#32 ∧ s.errDetail = 0#16)) &&
  decide ((s.phase.beforeTree = true → s.nodes = [] ∧ s.root = Config.nil ∧ s.cur = Config.nil ∧
      noCodesChecked s = true ∧ s.bitCount = 0#64 ∧ s.symCount = 0#32) ∧
    (s.phase ≠ .fill → s.phase ≠ .error → s.freqAt 256 = 1#32) ∧
    (s.phase.hasTree = true → s.nodes = buildArena s.width s.freq ∧ s.root = arenaRoot s.nodes)) &&
  decide ((s.phase.hasCodes = true → treeCodesChecked s = true) ∧
    (s.phase = .tree → noCodesChecked s = true) ∧
    (noCodesChecked s = true ∨ (treeCodesChecked s = true ∧ s.nodes = buildArena s.width s.freq ∧
      s.root = arenaRoot s.nodes ∧ s.freqAt 256 = 1#32))) &&
  decide ((s.phase.mayDescend = true → s.cur = s.root ∨ (s.node s.cur).kind = .internal) ∧
    (s.phase = .decDone → (s.node s.cur).kind = .leaf ∧ (s.node s.cur).sym = Config.pseudoEof))

theorem inv_of_checked {s : State} (h : invChecked s = true) : s.Inv := by
  simp only [invChecked, Bool.and_eq_true, decide_eq_true_eq] at h
  obtain ⟨⟨⟨⟨⟨h1, h2, h3, h4, h5⟩, h6, h7⟩, h8, h9, h10⟩, h11, h12, h13⟩, h14, h15⟩ := h
  exact ⟨⟨h1, h2, h3, h4, h5⟩, ⟨h6, h7⟩,
    fun hp => let ⟨a, b, c, d, e⟩ := h8 hp; ⟨a, b, c, noCodes_of_checked d, e⟩, h9, h10,
    fun hp => treeCodes_of_checked (h11 hp), fun hp => noCodes_of_checked (h12 hp),
    h13.imp noCodes_of_checked (fun h => ⟨treeCodes_of_checked h.1, h.2⟩), h14, h15⟩

theorem inv_reset : State.reset.Inv := inv_of_checked (by decide +kernel)
theorem inv_filled : filled.Inv := inv_of_checked (by decide +kernel)
theorem inv_closed : closed.Inv := inv_of_checked (by decide +kernel)
theorem inv_treed : treed.Inv := inv_of_checked (by decide +kernel)
theorem inv_coded : coded.Inv := inv_of_checked (by decide +kernel)
theorem inv_looped : looped.Inv := inv_of_checked (by decide +kernel)
theorem inv_failed : failed.Inv := inv_of_checked (by decide +kernel)
theorem inv_narrow : narrow.Inv := inv_of_checked (by decide +kernel)

/-! ### Witnesses: states and operands that meet the statements' hypotheses -/

theorem witness_DecodeOfEncodeIsTheInstruction : (Instr.loadFreq 511#9).wellFormed = true := by decide

theorem witness_EncodeOfDecodeIsTheWord : decode 0x030001FF#32 = .ok (.loadFreq 511#9) := by decide

theorem witness_WordsDecodeByTheOneMatchingRow :
    (⟨.LOAD_FREQ, .S, 0x03000000#32, 0xFFFFFE00#32⟩ : OpcodeRow) ∈ opcodeMap ∧
    OpcodeRow.matches ⟨.LOAD_FREQ, .S, 0x03000000#32, 0xFFFFFE00#32⟩ 0x030001FF#32 = true ∧
    ∀ r ∈ opcodeMap, r.matches 0x03000200#32 = false := by decide

theorem witness_IllegalWordsRaiseTheirReason : State.reset.phase ≠ .error ∧ decode 0x0B000000#32 = .error .reservedOpcode ∧
    decode 0x09000002#32 = .error .reservedBit := by decide

/-- One byte counted at CMAX 3 leaves room for exactly one more; after that COUNT overflows. -/
theorem witness_CountCountsOneByte :
    (narrow.CountInv ∧ narrow.phase = .fill ∧
      narrow.total.toNat + 1 + (if narrow.freqAt 256 = 0#32 then 1 else 0) ≤ Config.cmax narrow.width) ∧
    (fun t : State => t.phase = .fill ∧
      Config.cmax t.width < t.total.toNat + 1 + (if t.freqAt 256 = 0#32 then 1 else 0)) (after [.count 0x61#8] narrow) ∧
    closed.phase ≠ .fill ∧ closed.phase ≠ .error := ⟨⟨inv_narrow.count, by decide +kernel⟩, by decide +kernel⟩

/-- For each clause a symbol and a count: 257 and 0 on both sides of the symbol check, 256 and 0, 256 and 2, a present symbol, a
count one too large and one that fits exactly, at CMAX 3. -/
theorem witness_LoadFreqChecksThenLoads :
    (narrow.phase = .fill ∧ 256 < (257#9 : Symbol).toNat) ∧
    ((256#9 : Symbol).toNat ≤ 256 ∧ { narrow with arg := 0#32 }.arg.toNat = 0) ∧
    ((256#9 : Symbol).toNat = 256 ∧ { narrow with arg := 2#32 }.arg.toNat ≠ 0 ∧ { narrow with arg := 2#32 }.arg.toNat ≠ 1) ∧
    (narrow.freqAt 0x61 ≠ 0#32 ∧ narrow.freqAt 0x62 = 0#32 ∧ narrow.freqAt 256 = 0#32) ∧
    Config.cmax narrow.width < narrow.total.toNat + 2 + 1 ∧
    ({ narrow with arg := 1#32 }.CountInv ∧ narrow.total.toNat + 1 + 1 ≤ Config.cmax narrow.width) ∧
    closed.phase ≠ .fill ∧ closed.phase ≠ .error :=
  ⟨by decide +kernel, by decide +kernel, by decide +kernel, by decide +kernel, by decide +kernel,
    ⟨(inv_of_checked (s := { narrow with arg := 1#32 }) (by decide +kernel)).count, by decide +kernel⟩, by decide +kernel⟩

theorem witness_SealClosesTheTable : (filled.CountInv ∧ filled.phase = .fill ∧ filled.freqAt 256 = 0#32) ∧
    (fun t : State => t.phase = .fill ∧ t.freqAt 256 ≠ 0#32) (after [.loadFreq 256#9] { filled with arg := 1#32 }) ∧
    closed.phase ≠ .fill ∧ closed.phase ≠ .error := ⟨⟨inv_filled.count, by decide +kernel⟩, by decide +kernel⟩

/-- Two bytes are exactly what CMAX 3 allows. -/
theorem witness_CountsAreOccurrences : (State.resetWith 2#6).CountInv ∧ (State.resetWith 2#6).phase = .fill ∧
    (State.resetWith 2#6).total = 0#32 ∧ [0x61#8, 0x61#8].length + 1 ≤ Config.cmax (State.resetWith 2#6).width :=
  ⟨(inv_of_checked (s := State.resetWith 2#6) (by decide +kernel)).count, by decide +kernel⟩

theorem witness_HeaderReloadsInAnyOrder : closed.Inv ∧ closed.phase ≠ .fill ∧ closed.phase ≠ .error ∧ State.reset.Inv ∧
    State.reset.phase = .fill ∧ State.reset.total = 0#32 ∧ State.reset.countWidth = closed.countWidth ∧
    closed.header = [(0x61#9, 3#32), (0x62#9, 1#32), (256#9, 1#32)] ∧ closed.header.reverse.Perm closed.header :=
  ⟨inv_closed, by decide +kernel, by decide +kernel, inv_reset, by decide +kernel, by decide +kernel, by decide +kernel,
    by decide +kernel, List.reverse_perm _⟩

theorem witness_SingleEntryTableGetsASyntheticRoot : (fun t : State => t.phase = .table ∧ t.freqAt 256 = 1#32 ∧
    ∀ c, c < 256 → t.freqAt c = 0#32) (after [.sealTable] State.reset) := by decide +kernel

theorem witness_TreeOfSeveralEntriesHasItsShape : closed.CountInv ∧ closed.phase = .table ∧ 2 ≤ closed.nsym.toNat ∧
    exec .buildTree closed = .next treed := ⟨inv_closed.count, by decide +kernel, by decide +kernel, after_next _ _⟩

theorem witness_LeavesFollowTheSymbols : closed.CountInv ∧ closed.phase = .table ∧ 1 ≤ closed.nsym.toNat ∧
    exec .buildTree closed = .next treed := ⟨inv_closed.count, by decide +kernel, by decide +kernel, after_next _ _⟩

/-- Index 3 is the first merge, 4 the last. -/
theorem witness_MergesTakeTheTwoLeast : closed.CountInv ∧ closed.phase = .table ∧ 2 ≤ closed.nsym.toNat ∧
    exec .buildTree closed = .next treed ∧ closed.nsym.toNat ≤ 3 ∧ 4 < treed.nodes.length :=
  ⟨inv_closed.count, by decide +kernel, by decide +kernel, after_next _ _, by decide +kernel⟩

theorem witness_EveryNodeButTheRootHasOneParent : closed.CountInv ∧ closed.phase = .table ∧ 1 ≤ closed.nsym.toNat ∧
    exec .buildTree closed = .next treed ∧ 3 < treed.nodes.length ∧ 3 ≠ treed.root.toNat ∧
    (nodeAt treed.nodes 3).kind = .internal := ⟨inv_closed.count, by decide +kernel, by decide +kernel, after_next _ _, by decide +kernel⟩

theorem witness_RootCountIsTheTotal : closed.CountInv ∧ closed.phase = .table ∧ 1 ≤ closed.nsym.toNat ∧
    exec .buildTree closed = .next treed ∧ 4 < treed.nodes.length := ⟨inv_closed.count, by decide +kernel, by decide +kernel, after_next _ _, by decide +kernel⟩

/-- The two depths of TR1, 1 and n - 1 = 2. -/
theorem witness_LeafDepthIsBounded : closed.CountInv ∧ closed.phase = .table ∧ 2 ≤ closed.nsym.toNat ∧
    exec .buildTree closed = .next treed ∧
    descend treed.nodes [true] treed.root = some 0#10 ∧ (nodeAt treed.nodes 0).kind = .leaf ∧
    descend treed.nodes [false, true] treed.root = some 2#10 ∧ (nodeAt treed.nodes 2).kind = .leaf :=
  ⟨inv_closed.count, by decide +kernel, by decide +kernel, after_next _ _, by decide +kernel⟩

/-- The same table in two states that differ in ARG. -/
theorem witness_TreeDependsOnTheTableAlone : closed.CountInv ∧ { closed with arg := 9#32 }.CountInv ∧ closed.phase = .table ∧
    exec .buildTree closed = .next treed ∧
    exec .buildTree { closed with arg := 9#32 } = .next (after [.buildTree] { closed with arg := 9#32 }) :=
  ⟨inv_closed.count, (inv_of_checked (s := { closed with arg := 9#32 }) (by decide +kernel)).count, by decide +kernel,
    after_next _ _, after_next _ _⟩

theorem witness_CodeWordsAreTheLeafPaths : treed.Inv ∧ treed.phase = .tree ∧
    descend treed.nodes [false, true] treed.root = some 2#10 ∧ (treed.node 2#10).kind = .leaf ∧
    treed.freqAt 256 ≠ 0#32 ∧ treed.freqAt 0 = 0#32 := ⟨inv_treed, by decide +kernel⟩

/-- In CODES, in DECODING after the loop-back, and in ERROR. -/
theorem witness_CodeWordsArePrefixFree :
    (coded.Inv ∧ coded.codeLenAt 0x61 ≠ 0#9 ∧ coded.codeLenAt 256 ≠ 0#9) ∧
    (looped.Inv ∧ looped.phase = .decoding ∧ looped.codeLenAt 0x61 ≠ 0#9 ∧ looped.codeLenAt 256 ≠ 0#9) ∧
    (after [.buildTree] coded).Inv ∧ (after [.buildTree] coded).phase = .error ∧
    (after [.buildTree] coded).codeLenAt 0x61 ≠ 0#9 ∧ (after [.buildTree] coded).codeLenAt 256 ≠ 0#9 :=
  ⟨⟨inv_coded, by decide +kernel⟩, ⟨inv_looped, by decide +kernel⟩, inv_of_checked (by decide +kernel), by decide +kernel⟩

/-- A table of three entries in CODES and after the loop-back, and the single entry. -/
theorem witness_KraftSumIsFull : (coded.Inv ∧ coded.phase.hasCodes = true ∧ coded.nsym ≠ 1#32) ∧
    (looped.Inv ∧ looped.phase = .decoding ∧ ¬ looped.NoCodes) ∧
    (after [.buildCodes] emptyTreed).Inv ∧ (after [.buildCodes] emptyTreed).phase.hasCodes = true ∧
    (after [.buildCodes] emptyTreed).nsym = 1#32 :=
  ⟨⟨inv_coded, by decide +kernel⟩, ⟨inv_looped, by decide +kernel, State.not_noCodes (sym := 256) (by decide +kernel)⟩,
    inv_of_checked (by decide +kernel), by decide +kernel⟩

theorem witness_CodedSymbolsAreTheEntries :
    (coded.Inv ∧ coded.phase.hasCodes = true ∧ coded.freqAt 0x63 = 0#32 ∧ coded.phase = .codes) ∧
    looped.Inv ∧ looped.phase = .decoding ∧ ¬ looped.NoCodes :=
  ⟨⟨inv_coded, by decide +kernel⟩, inv_looped, by decide +kernel, State.not_noCodes (sym := 256) (by decide +kernel)⟩

/-- CODES and ENCODING, a symbol with a code word and one without, and TREE. -/
theorem witness_EncodeSendsTheCodeWord : coded.phase = .codes ∧ (after [.encodeByte 0x62#8] coded).phase = .encoding ∧
    coded.materialize = true ∧ (coded.codeLenAt 0x61).toNat ≠ 0 ∧ (coded.codeLenAt 0x63).toNat = 0 ∧
    treed.phase ≠ .codes ∧ treed.phase ≠ .encoding ∧ treed.phase ≠ .error := by decide +kernel

theorem witness_EncodeEndSendsTheEofCodeWord : coded.phase = .codes ∧ (after [.encodeByte 0x62#8] coded).phase = .encoding ∧
    treed.phase ≠ .codes ∧ treed.phase ≠ .encoding ∧ treed.phase ≠ .error := by decide +kernel

theorem witness_MaterializeDecidesOnlyWhatIsSent :
    exec .encodeEnd { coded with materialize := false } = .next (after [.encodeEnd] { coded with materialize := false }) :=
  after_next _ _

theorem witness_BodyIsTheCodeWordsInOrder : coded.phase = .codes ∧
    ∀ b ∈ [0x61#8, 0x61#8, 0x61#8, 0x62#8], coded.codeLenAt b.toNat ≠ 0#9 := by decide +kernel

/-- NIL (TR2), an internal node, the PSEUDO_EOF leaf (TR2), a byte's leaf, DEC_DONE, and FILL. -/
theorem witness_DecodeBitWalksOneStep :
    (emptyTreed.phase.mayDescend = true ∧ (emptyTreed.node emptyTreed.cur).one = 0x3FF#10) ∧
    (treed.phase.mayDescend = true ∧ (treed.node treed.cur).zero = 3#10 ∧ (treed.node 3#10).kind = .internal) ∧
    ((emptyTreed.node emptyTreed.cur).zero = 0#10 ∧ (emptyTreed.node 0#10).kind = .leaf ∧
      (emptyTreed.node 0#10).sym = 256#9) ∧
    ((treed.node treed.cur).one = 0#10 ∧ (treed.node 0#10).kind = .leaf ∧ (treed.node 0#10).sym.toNat = (0x61#8).toNat) ∧
    (after [.decodeBit false] emptyTreed).phase = .decDone ∧ State.reset.phase = .fill := by decide +kernel

theorem witness_DecodeEndDetectsExhaustion : (after [.decodeBit false] emptyTreed).phase = .decDone ∧
    treed.phase.mayDescend = true ∧ State.reset.phase = .fill := by decide +kernel

theorem witness_CodeWordDecodesToItsByte : coded.Inv ∧ coded.phase.mayDescend = true ∧ coded.TreeCodes ∧
    coded.cur = coded.root ∧ coded.codeLenAt 0x62 ≠ 0#9 :=
  ⟨inv_coded, by decide +kernel, inv_coded.codes (by decide +kernel), by decide +kernel⟩

theorem witness_EncodedBodyDecodesBack : coded.Inv ∧ coded.phase = .codes ∧ coded.materialize = true ∧
    (∀ b ∈ [0x61#8, 0x61#8, 0x61#8, 0x62#8], coded.freqAt b.toNat ≠ 0#32) ∧
    treed.Inv ∧ treed.phase = .tree ∧ treed.cur = treed.root ∧ treed.freq = coded.freq :=
  ⟨inv_coded, by decide +kernel, by decide +kernel, by decide +kernel, inv_treed, by decide +kernel⟩

/-- S3: the body of "aaab" cut by its last bit, for a session in TREE and one in CODES. -/
theorem witness_TruncationIsDetected : coded.Inv ∧ coded.phase = .codes ∧ coded.materialize = true ∧
    (∀ b ∈ [0x61#8, 0x61#8, 0x61#8, 0x62#8], coded.freqAt b.toNat ≠ 0#32) ∧
    (∃ t, execAll (encodeCommands [0x61#8, 0x61#8, 0x61#8, 0x62#8]) coded = .next t ∧
      t.bitOut = coded.bitOut ++ (body.take 6 ++ [true])) ∧
    (treed.Inv ∧ treed.phase = .tree ∧ treed.cur = treed.root ∧ treed.freq = coded.freq) ∧
    coded.cur = coded.root :=
  ⟨inv_coded, by decide +kernel, by decide +kernel, by decide +kernel, ⟨_, execAll_after _ _, by decide +kernel⟩,
    ⟨inv_treed, by decide +kernel⟩, by decide +kernel⟩

/-- A COUNT in TABLE leads into ERROR. -/
theorem witness_ErrorsArePrecise : closed.phase ≠ .error ∧
    command 0x02000061#32 closed = .next (after [.count 0x61#8] closed) ∧ (after [.count 0x61#8] closed).phase = .error :=
  ⟨by decide +kernel, after_next (.count 0x61#8) closed, by decide +kernel⟩

theorem witness_ErrorIgnoresAllButClear : failed.phase = .error ∧ (0x0B000000#32 : Word) ≠ 0x01000000#32 ∧
    (0xFFFC#16 : Addr).toNat % 4 = 0 := by decide +kernel

/-- CLEAR, and reset, in ERROR. -/
theorem witness_OnlyClearAndResetLeaveError :
    (failed.phase = .error ∧ ∃ t, step (failed.withCommand 0x01000000#32) = .next t ∧ t.phase ≠ .error) ∧
    step { failed with resetIn := [true] } = .next { failed with resetIn := [true] }.underReset ∧
    { failed with resetIn := [true] }.underReset.phase ≠ .error :=
  ⟨⟨by decide +kernel, _, step_command failed rfl, by decide +kernel⟩, rfl, by decide⟩

theorem witness_LegalityTable : State.reset.phase ≠ .error ∧ State.reset.phase ∉ [Phase.table] ∧
    closed.phase ∈ [Phase.table] ∧ exec .buildTree closed = .next treed ∧ failed.phase = .error :=
  ⟨by decide +kernel, by decide +kernel, by decide +kernel, after_next _ _, by decide +kernel⟩

/-- A pending SEAL enters TABLE. -/
theorem witness_PhasesAreEnteredByTheirCommands :
    ∃ t, step (filled.withCommand 0x04000000#32) = .next t ∧ t.phase = .table ∧ filled.phase = .fill ∧
      (filled.withCommand 0x04000000#32).resetIn.head? ≠ some true :=
  ⟨_, step_command filled rfl, by decide +kernel, by decide +kernel, by decide⟩

theorem witness_CommandsWriteOnlyTheirOwnState : exec .buildTree closed = .next treed ∧
    Instr.mnemonic .buildTree ∉ [Mnemonic.COUNT, .LOAD_FREQ, .SEAL, .CLEAR] := ⟨after_next _ _, by decide⟩

/-- A pending ENCODE_END sends bits. -/
theorem witness_TracesAreAppendOnly :
    (coded.withCommand 0x08000000#32).resetIn.head? ≠ some true ∧
    ∃ t, step (coded.withCommand 0x08000000#32) = .next t ∧ t.bitOut = [false, true] :=
  ⟨by decide, _, step_command coded rfl, by decide +kernel⟩

/-- A write of 0 to CTRL, and a write to ARG. -/
theorem witness_HostRegistersChangeOnlyByTheirWrites :
    (∃ t, step { State.reset with pending := [.write 0x0004#16 4 0#32] } = .next t ∧ t.materialize ≠ State.reset.materialize) ∧
    ∃ t, step { State.reset with pending := [.write 0x0010#16 4 7#32] } = .next t ∧ t.arg ≠ State.reset.arg :=
  ⟨⟨_, rfl, by decide⟩, _, rfl, by decide⟩

theorem witness_InvariantsAreKeptByEveryStep : filled.Inv ∧
    ∃ t, step (filled.withCommand 0x04000000#32) = .next t ∧ t.phase = .table :=
  ⟨inv_filled, _, step_command filled rfl, by decide +kernel⟩

theorem witness_InvariantsHoldAfterReset : 1 ≤ (1#6).toNat ∧ (1#6).toNat ≤ 32 ∧ 1 ≤ (32#6).toNat ∧ (32#6).toNat ≤ 32 := by decide

theorem witness_StepRunsTheDecodedCommand :
    (filled.withCommand 0x04000000#32).resetIn.head? ≠ some true ∧
    (filled.withCommand 0x04000000#32).pending = .write 0x000C#16 4 0x04000000#32 :: filled.pending ∧
    decode 0x04000000#32 = .ok .sealTable := by decide +kernel

theorem witness_ResetGivesTheResetState : { closed with resetIn := [true] }.resetIn.head? = some true := rfl

theorem witness_ResetRegistersRead : 0x0040 ≤ (0x0040#16 : Addr).toNat ∧ 0x0040 ≤ (0xFFFC#16 : Addr).toNat := by decide

/-- An aligned read, a read of another size, and an unaligned one. -/
theorem witness_ReadsHaveNoSideEffect :
    { State.reset with pending := [.read 0xFFFC#16 4] }.resetIn.head? ≠ some true ∧
    (4 = 4 ∧ (0xFFFC#16 : Addr).toNat % 4 = 0) ∧ ¬ (2 = 4 ∧ (0x0000#16 : Addr).toNat % 4 = 0) ∧
    ¬ (4 = 4 ∧ (0x0002#16 : Addr).toNat % 4 = 0) := by decide

/-- For the fourth clause STATUS, a neighbour of CTRL, CMD and ARG; for the fifth an unaligned address next to CMD. -/
theorem witness_WritesActByOffset : ((0x0008#16 : Addr).toNat % 4 = 0 ∧ (0x0008#16 : Addr) ≠ 0x0004#16 ∧
    (0x0008#16 : Addr) ≠ 0x0010#16 ∧ (0x0008#16 : Addr) ≠ 0x000C#16) ∧ ¬ (4 = 4 ∧ (0x000D#16 : Addr).toNat % 4 = 0) ∧
    ¬ (2 = 4 ∧ (0x000C#16 : Addr).toNat % 4 = 0) := by decide

/-- The last offset of each window and the first and last unmapped ones. -/
theorem witness_RegisterSpaceMap :
    [0x0FFC#16, 0x1400#16, 0x1FFC#16, 0x2FFC#16, 0x3FFC#16, 0x7FFC#16, 0x9FFC#16, 0xFFFC#16].map coded.readWord =
      [0#32, 1#32, 0#32, 0#32, 0#32, 0#32, 0#32, 0#32] := by decide +kernel

/-- The last allocated entry and the first one beyond. -/
theorem witness_NodeWindowWords : 4 < treed.nodes.length ∧ treed.nodes.length ≤ 5 := by decide +kernel

/-- Both sides of each range, an operand missing, and one superfluous. -/
theorem witness_AssemblerNeverTruncates :
    assemble ⟨.LOAD_FREQ, some 511⟩ = some 0x030001FF#32 ∧ assemble ⟨.LOAD_FREQ, some 512⟩ = none ∧
    assemble ⟨.COUNT, some 255⟩ = some 0x020000FF#32 ∧ assemble ⟨.COUNT, some 256⟩ = none ∧
    assemble ⟨.DECODE_BIT, some 1⟩ = some 0x09000001#32 ∧ assemble ⟨.DECODE_BIT, some 2⟩ = none ∧
    assemble ⟨.ENCODE, none⟩ = none ∧ assemble ⟨.SEAL, some 0⟩ = none := by decide

end Sys2Proof.Tests
end

section
/-! The command word an instruction came from: encoding undoes decoding (spec/30_encoding.md R100 to R103). -/

namespace Sys2Proof

/-- OPERAND_MASK is the low bits of the operand field's width. -/
theorem Format.getLsbD_operandMask (fmt : Format) {j : Nat} (hj : j < 32) :
    fmt.operandMask.getLsbD j = decide (j < fmt.operandBits) := by
  have h : ∀ k < 32, fmt.operandMask.getLsbD k = decide (k < fmt.operandBits) := by cases fmt <;> decide
  exact h j hj

theorem Format.operandBits_le (fmt : Format) : fmt.operandBits ≤ 24 := by cases fmt <;> decide

/-- The operand of a word, in its place. -/
theorem setWidth_operand (fmt : Format) (w : Word) :
    (w.extractLsb' 0 fmt.operandBits).setWidth 32 = w &&& fmt.operandMask := by
  apply BitVec.eq_of_getLsbD_eq
  intro j hj
  rw [BitVec.getLsbD_and, fmt.getLsbD_operandMask hj]
  simp [hj, Bool.and_comm]

theorem ofBool_bitOperand (w : Word) : BitVec.ofBool (bitOperand w) = w.extractLsb' 0 1 := by
  apply BitVec.eq_of_getLsbD_eq
  intro j hj
  obtain rfl : j = 0 := by omega
  simp [bitOperand]

/-- A word whose reserved bits are clear is its opcode beside its operand. -/
theorem opcode_or_operand {fmt : Format} {w : Word} (hr : operandField w &&& ~~~fmt.operandMask = 0#32) :
    ((opcodeOf w).setWidth 32 <<< 24) ||| (w.extractLsb' 0 fmt.operandBits).setWidth 32 = w := by
  rw [setWidth_operand]
  refine word_eq_of_fields hr fun j hj => ?_
  rw [BitVec.getLsbD_or, BitVec.getLsbD_and, fmt.getLsbD_operandMask hj]
  have hb := fmt.operandBits_le
  by_cases h24 : j < 24
  · simp [h24]
  · simp [h24, hj, show ¬ j < fmt.operandBits by omega]

/-- What a word that passes the reserved-bit check is made of, its opcode known. -/
theorem word_of_checkReserved {fmt : Format} {w : Word} {i j : Instr} (opc : BitVec 8)
    (ho : (opcodeOf w).toNat = opc.toNat) (h : checkReserved fmt w i = .ok j) :
    j = i ∧ (opc.setWidth 32 <<< 24) ||| (w.extractLsb' 0 fmt.operandBits).setWidth 32 = w := by
  obtain ⟨hr, hj⟩ := checkReserved_ok h
  rw [← BitVec.eq_of_toNat_eq ho]
  exact ⟨hj, opcode_or_operand hr⟩

/-- A word of a command without operand is its opcode alone. -/
theorem word_of_checkReserved_none {w : Word} {i j : Instr} (opc : BitVec 8)
    (ho : (opcodeOf w).toNat = opc.toNat) (h : checkReserved .N w i = .ok j) :
    j = i ∧ opc.setWidth 32 <<< 24 = w := by
  obtain ⟨hj, hw⟩ := word_of_checkReserved opc ho h
  exact ⟨hj, by simpa [Format.operandBits] using hw⟩

/-- A word that decodes is the encoding of its instruction. -/
theorem encode_of_decode {w : Word} {i : Instr} (h : decode w = .ok i) : encode i = w := by
  unfold decode at h
  split at h
  case h_1 ho => obtain ⟨rfl, hw⟩ := word_of_checkReserved_none 0#8 ho h; exact hw
  case h_2 ho => obtain ⟨rfl, hw⟩ := word_of_checkReserved_none 1#8 ho h; exact hw
  case h_3 ho => obtain ⟨rfl, hw⟩ := word_of_checkReserved 2#8 ho h; exact hw
  case h_4 ho => obtain ⟨rfl, hw⟩ := word_of_checkReserved 3#8 ho h; exact hw
  case h_5 ho => obtain ⟨rfl, hw⟩ := word_of_checkReserved_none 4#8 ho h; exact hw
  case h_6 ho => obtain ⟨rfl, hw⟩ := word_of_checkReserved_none 5#8 ho h; exact hw
  case h_7 ho => obtain ⟨rfl, hw⟩ := word_of_checkReserved_none 6#8 ho h; exact hw
  case h_8 ho => obtain ⟨rfl, hw⟩ := word_of_checkReserved 7#8 ho h; exact hw
  case h_9 ho => obtain ⟨rfl, hw⟩ := word_of_checkReserved_none 8#8 ho h; exact hw
  case h_10 ho =>
    obtain ⟨rfl, hw⟩ := word_of_checkReserved 9#8 ho h
    rw [encode, ofBool_bitOperand]
    exact hw
  case h_11 ho => obtain ⟨rfl, hw⟩ := word_of_checkReserved_none 0xA#8 ho h; exact hw
  case h_12 => cases h

end Sys2Proof
end

section
/-! What a step can do, down to the command's effect, and what every effect leaves unchanged. -/

namespace Sys2Proof.Machine

/-! ### A command word and a step, case by case -/

/-- A command word is ignored in ERROR, raises an error with the word in ERRCMD, or has its instruction's effect. -/
theorem command_effects {w : Word} {s t : State} (h : command w s = .next t) :
    (s.phase = .error ∧ t = s) ∨
    (s.phase ≠ .error ∧ ∃ e d, e ≠ .none ∧ t = s.raise e d w) ∨
    ∃ i, decode w = .ok i ∧ Effect s i t := by
  obtain ⟨i, hd, hx⟩ | ⟨r, -, hr⟩ := command_cases h
  · obtain hi | ⟨hp, e, d, hne, ht⟩ | he := exec_cases hx
    · exact .inl hi
    · exact .inr (.inl ⟨hp, e, d, hne, encode_of_decode hd ▸ ht⟩)
    · exact .inr (.inr ⟨i, hd, he⟩)
  · obtain hi | ⟨hp, ht⟩ := hr
    · exact .inl hi
    · exact .inr (.inl ⟨hp, _, _, by decide, ht⟩)

/-- What a step can be: reset; the bus's answer alone, or an idle block; a write of CTRL, of ARG, or of a command word. -/
inductive StepCase (s : State) : State → Prop
  | reset (hr : s.resetIn.head? = some true) : StepCase s s.underReset
  | answer (rest : List BusAccess) (r : BusResponse) (hr : s.resetIn.head? ≠ some true) :
    StepCase s ((s.taking rest).respond r)
  | writeCtrl (v : Word) (rest : List BusAccess) (hr : s.resetIn.head? ≠ some true)
    (hp : s.pending = .write Config.ctrlOffset 4 v :: rest) :
    StepCase s { (s.taking rest).respond .writeDone with materialize := v.getLsbD 0 }
  | writeArg (v : Word) (rest : List BusAccess) (hr : s.resetIn.head? ≠ some true)
    (hp : s.pending = .write Config.argOffset 4 v :: rest) :
    StepCase s { (s.taking rest).respond .writeDone with arg := v }
  | writeCmd (w : Word) (rest : List BusAccess) {t : State} (hr : s.resetIn.head? ≠ some true)
    (hp : s.pending = .write Config.cmdOffset 4 w :: rest)
    (hc : command w ((s.taking rest).respond .writeDone) = .next t) : StepCase s t

theorem stepCase {s t : State} (h : step s = .next t) : StepCase s t := by
  obtain ⟨hr, rfl⟩ | ⟨hr, -, rfl⟩ | ⟨hr, x, rest, hp, hx⟩ := step_cases h
  · exact .reset hr
  · exact .answer [] s.response hr
  · obtain ⟨w, rfl, hc⟩ | ⟨v, rfl, rfl⟩ | ⟨v, rfl, rfl⟩ | ⟨r, rfl⟩ := access_cases hx
    · exact .writeCmd w rest hr hp hc
    · exact .writeCtrl v rest hr hp
    · exact .writeArg v rest hr hp
    · exact .answer rest r hr

/-! ### What the effects leave unchanged -/

/-- The walk's arrival writes BITCOUNT, BYTE_OUT, SYMCOUNT, CUR and PHASE only (45_decode.md R201). -/
theorem State.arrive_frame (s : State) (n : NodeIndex) :
    s.arrive n =
      { s with
        bitCount := (s.arrive n).bitCount
        byteOut := (s.arrive n).byteOut
        symCount := (s.arrive n).symCount
        cur := (s.arrive n).cur
        phase := (s.arrive n).phase } := by
  obtain ⟨-, h⟩ | ⟨-, -, h⟩ | ⟨-, -, h⟩ := s.arrive_cases n <;>
    simp only [h, State.enter, State.moveTo, State.countSymbol, State.emitByte, State.consumeBit]

/-- No command writes PARAMS, CTRL or ARG. -/
theorem Effect.hostRegisters {s t : State} {i : Instr} (h : Effect s i t) :
    t.countWidth = s.countWidth ∧ t.materialize = s.materialize ∧ t.arg = s.arg := by
  cases h with
  | buildCodes => rw [State.recordCodes_frame]; exact ⟨rfl, rfl, rfl⟩
  | decodeBit t => rw [State.arrive_frame]; exact ⟨rfl, rfl, rfl⟩
  | _ => exact ⟨rfl, rfl, rfl⟩

/-- A command word, executed, ignored or in error, writes none of PARAMS, CTRL and ARG. -/
theorem command_hostRegisters {w : Word} {s t : State} (h : command w s = .next t) :
    t.countWidth = s.countWidth ∧ t.materialize = s.materialize ∧ t.arg = s.arg := by
  obtain ⟨-, rfl⟩ | ⟨-, e, d, -, rfl⟩ | ⟨i, -, he⟩ := command_effects h
  · exact ⟨rfl, rfl, rfl⟩
  · exact ⟨rfl, rfl, rfl⟩
  · exact he.hostRegisters

theorem State.prefix_produceCode_bitOut (s : State) (sym : Nat) : s.bitOut <+: (s.produceCode sym).bitOut := by
  rw [State.produceCode_bitOut]
  split
  · exact List.prefix_append _ _
  · exact List.prefix_rfl

theorem State.prefix_arrive_byteOut (s : State) (n : NodeIndex) : s.byteOut <+: (s.arrive n).byteOut := by
  obtain ⟨-, h⟩ | ⟨-, -, h⟩ | ⟨-, -, h⟩ := s.arrive_cases n <;> rw [h]
  · exact List.prefix_rfl
  · exact List.prefix_rfl
  · exact List.prefix_append _ _

/-- Every command's effect appends to the traces or leaves them. -/
theorem Effect.traces {s t : State} {i : Instr} (h : Effect s i t) :
    s.bitOut <+: t.bitOut ∧ s.byteOut <+: t.byteOut := by
  cases h with
  | buildCodes => rw [State.recordCodes_frame]; exact ⟨List.prefix_rfl, List.prefix_rfl⟩
  | encodeByte b => exact ⟨s.prefix_produceCode_bitOut b.toNat, List.prefix_rfl⟩
  | encodeEnd => exact ⟨s.prefix_produceCode_bitOut 256, List.prefix_rfl⟩
  | decodeBit b =>
    refine ⟨?_, s.prefix_arrive_byteOut _⟩
    rw [State.arrive_frame]
  | _ => exact ⟨List.prefix_rfl, List.prefix_rfl⟩

/-- A command word appends to the traces or leaves them. -/
theorem command_traces {w : Word} {s t : State} (h : command w s = .next t) :
    s.bitOut <+: t.bitOut ∧ s.byteOut <+: t.byteOut := by
  obtain ⟨-, rfl⟩ | ⟨-, e, d, -, rfl⟩ | ⟨i, -, he⟩ := command_effects h
  · exact ⟨List.prefix_rfl, List.prefix_rfl⟩
  · exact ⟨List.prefix_rfl, List.prefix_rfl⟩
  · exact he.traces

/-! ### The statements about every step -/

/-- Settles O41: only a command writes the traces, and every command's effect appends. -/
theorem tracesAreAppendOnly : Obligations.TracesAreAppendOnly := by
  intro s t hr h
  cases stepCase h with
  | reset hrt => exact absurd hrt hr
  | answer => exact ⟨List.prefix_rfl, List.prefix_rfl⟩
  | writeCtrl => exact ⟨List.prefix_rfl, List.prefix_rfl⟩
  | writeArg => exact ⟨List.prefix_rfl, List.prefix_rfl⟩
  | writeCmd w rest _ _ hc => exact (command_traces hc :)

/-- Settles O42: ID is a constant, and no command writes PARAMS, CTRL or ARG. -/
theorem hostRegistersChangeOnlyByTheirWrites : Obligations.HostRegistersChangeOnlyByTheirWrites := by
  intro s t h
  refine ⟨rfl, ?_⟩
  cases stepCase h with
  | reset hrt => exact ⟨rfl, fun hr => absurd hrt hr, fun hr => absurd hrt hr⟩
  | answer => exact ⟨rfl, fun _ hm => absurd rfl hm, fun _ ha => absurd rfl ha⟩
  | writeCtrl v rest _ hp => exact ⟨rfl, fun _ _ => ⟨v, rest, hp, rfl⟩, fun _ ha => absurd rfl ha⟩
  | writeArg v rest _ hp => exact ⟨rfl, fun _ hm => absurd rfl hm, fun _ _ => ⟨rest, hp⟩⟩
  | writeCmd w rest _ _ hc =>
    obtain ⟨hw, hm, ha⟩ := command_hostRegisters hc
    exact ⟨hw, fun _ hne => absurd hm hne, fun _ hne => absurd ha hne⟩

/-- Settles O39: only a command word changes the phase, and each effect enters the phase of its own command. -/
theorem phasesAreEnteredByTheirCommands : Obligations.PhasesAreEnteredByTheirCommands := by
  intro s t h hne hr
  cases stepCase h with
  | reset hrt => exact absurd hrt hr
  | answer => exact absurd rfl hne
  | writeCtrl => exact absurd rfl hne
  | writeArg => exact absurd rfl hne
  | writeCmd w rest _ hp hc =>
    refine ⟨w, rest, hp, ?_⟩
    obtain ⟨-, rfl⟩ | ⟨-, e, d, he, rfl⟩ | ⟨i, hd, he⟩ := command_effects hc
    · exact absurd rfl hne
    · exact ⟨rfl, he⟩
    · cases he with
      | nop => exact absurd rfl hne
      | clear => exact hd
      | count => exact absurd rfl hne
      | loadFreq => exact absurd rfl hne
      | sealAdds => exact hd
      | sealKeeps => exact hd
      | buildTree => exact hd
      | buildCodes => exact hd
      | encodeByte b => exact ⟨b, hd⟩
      | encodeEnd => exact hd
      | decodeIgnored => exact absurd rfl hne
      | decodeBit b =>
        obtain ⟨-, ha⟩ | ⟨-, -, ha⟩ | ⟨-, -, ha⟩ := State.arrive_cases _ _ <;> (rw [ha]; exact ⟨b, hd⟩)
      | decodeEnd => exact absurd rfl hne

end Sys2Proof.Machine
end

section
/-! The invariants by phase (spec/10_state.md R46, R26, R29, R30): they hold at the start of a session, and every step keeps
them. -/

namespace Sys2Proof.Machine

/-! ### The parts of the invariants -/

theorem State.freqAt_of_empty {s : State} (h : s.freq = Vector.replicate 257 0#32) (k : Nat) : s.freqAt k = 0#32 := by
  by_cases hk : k < 257 <;> simp [State.freqAt, h, hk]

/-- An empty frequency table, with its counters at 0, meets the invariants of the counts at every COUNT_WIDTH of R8. -/
theorem State.CountInv.of_empty {s : State} (hw : 1 ≤ s.width ∧ s.width ≤ 32) (hf : s.freq = Vector.replicate 257 0#32)
    (ht : s.total = 0#32) (hn : s.nsym = 0#32) : s.CountInv := by
  have h256 : s.freqAt 256 = 0#32 := State.freqAt_of_empty hf 256
  have hpow : 2 ^ 1 ≤ 2 ^ s.width := Nat.pow_le_pow_right (by decide) hw.1
  refine ⟨hw, ?_, ?_, .inl h256, ?_⟩
  · rw [ht, State.freqSum, hf, Vector.toList_replicate, List.map_replicate, List.sum_replicate]
    rfl
  · rw [hn, State.freqCount, hf, Vector.toList_replicate, List.countP_replicate]
    rfl
  · simp only [ht, h256, if_true, Config.cmax]
    show 0 + 1 ≤ _
    omega

/-- The invariants of ERR hold where neither state is in ERROR and the error registers are kept. -/
theorem State.ErrInv.of_eq {s t : State} (h : s.ErrInv) (hs : s.phase ≠ .error) (ht : t.phase ≠ .error)
    (he : t.err = s.err) (hc : t.errCmd = s.errCmd) (hd : t.errDetail = s.errDetail) : t.ErrInv := by
  refine ⟨?_, ?_⟩
  · rw [he, h.err]
    exact iff_of_false hs ht
  · rw [he, hc, hd]
    exact h.quiet

/-- The invariants in FILL and TABLE: the registers of a tree and of a run are still at their reset values. -/
theorem State.Inv.of_beforeTree {s : State} (hp : s.phase.beforeTree = true) (count : s.CountInv) (err : s.ErrInv)
    (noTree : s.nodes = [] ∧ s.root = Config.nil ∧ s.cur = Config.nil ∧ s.NoCodes ∧ s.bitCount = 0#64 ∧ s.symCount = 0#32)
    (sealed : s.phase = .table → s.freqAt 256 = 1#32) : s.Inv := by
  have hcases : s.phase = .fill ∨ s.phase = .table := by simpa [Phase.beforeTree] using hp
  have ⟨_, _, _, noCodes, _, _⟩ := noTree
  refine ⟨count, err, fun _ => noTree, ?_, ?_, ?_, fun _ => noCodes, .inl noCodes, ?_, ?_⟩ <;>
    obtain h | h := hcases <;> simp [h, Phase.hasTree, Phase.hasCodes, Phase.mayDescend]
  exact sealed h

/-- The invariants from TREE on: the arena is the sealed table's tree. -/
theorem State.Inv.of_hasTree {s : State} (hp : s.phase.hasTree = true) (count : s.CountInv) (err : s.ErrInv)
    (sealed : s.freqAt 256 = 1#32) (tree : s.nodes = buildArena s.width s.freq ∧ s.root = arenaRoot s.nodes)
    (codes : s.phase.hasCodes = true → s.TreeCodes) (noCodes : s.phase = .tree → s.NoCodes)
    (codeTable : s.NoCodes ∨ s.TreeCodes)
    (cur : s.phase.mayDescend = true → s.cur = s.root ∨ (s.node s.cur).kind = .internal)
    (curDone : s.phase = .decDone → (s.node s.cur).kind = .leaf ∧ (s.node s.cur).sym = Config.pseudoEof) : s.Inv where
  count := count
  err := err
  noTree hb := by
    have hn : s.phase.beforeTree = false := by revert hp; cases s.phase <;> simp [Phase.hasTree, Phase.beforeTree]
    simp [hn] at hb
  sealed _ _ := sealed
  tree _ := tree
  codes := codes
  noCodes := noCodes
  codeTable := codeTable.imp_right fun hc => ⟨hc, tree.1, tree.2, sealed⟩
  cur := cur
  curDone := curDone

/-- A phase with a tree is neither FILL nor ERROR. -/
theorem Phase.ne_of_hasTree {p : Phase} (h : p.hasTree = true) : p ≠ .fill ∧ p ≠ .error := by
  cases p <;> simp_all [Phase.hasTree]

/-! ### What keeps them -/

/-- CTRL, ARG, the traces and the host's side stand outside the invariants. -/
theorem State.Inv.hostSide {s : State} (h : s.Inv) (mat : Bool) (arg : Word) (bits : List Bool) (bytes : List Byte)
    (xs : List BusAccess) (levels : List Bool) (r : BusResponse) :
    State.Inv
      { s with
        materialize := mat
        arg := arg
        bitOut := bits
        byteOut := bytes
        pending := xs
        resetIn := levels
        response := r } where
  count := h.count.of_eq rfl rfl rfl rfl
  err := ⟨h.err.err, h.err.quiet⟩
  noTree := h.noTree
  sealed := h.sealed
  tree := h.tree
  codes hp := (h.codes hp).of_eq rfl rfl rfl rfl
  noCodes := h.noCodes
  codeTable := h.codeTable.imp_right fun hc => ⟨hc.1.of_eq rfl rfl rfl rfl, hc.2⟩
  cur := h.cur
  curDone := h.curDone

/-- Error entry leaves the counts and the code table as they were before the failing command (60_exceptions.md R246, R247). -/
theorem State.Inv.raise {s : State} (h : s.Inv) {e : ErrCode} (he : e ≠ .none) (d : BitVec 16) (w : Word) :
    (s.raise e d w).Inv where
  count := h.count.of_eq rfl rfl rfl rfl
  err := ⟨iff_of_true he rfl, fun hn => absurd hn he⟩
  noTree hp := by simp [Phase.beforeTree] at hp
  sealed _ hp := absurd rfl hp
  tree hp := by simp [Phase.hasTree] at hp
  codes hp := by simp [Phase.hasCodes] at hp
  noCodes hp := by simp at hp
  codeTable := h.codeTable.imp_right fun hc => ⟨hc.1.of_eq rfl rfl rfl rfl, hc.2⟩
  cur hp := by simp [Phase.mayDescend] at hp
  curDone hp := by simp at hp

/-- What CLEAR writes meets the invariants at every COUNT_WIDTH of R8. -/
theorem State.inv_cleared (s : State) (hw : 1 ≤ s.width ∧ s.width ≤ 32) : s.cleared.Inv :=
  .of_beforeTree rfl (.of_empty hw rfl rfl rfl) ⟨by simp, fun _ => ⟨rfl, rfl⟩⟩
    ⟨rfl, rfl, rfl, ⟨rfl, rfl⟩, rfl, rfl⟩ (fun hp => by simp at hp)

/-- In FILL a count added within the bound of R124 keeps the invariants. -/
theorem State.Inv.addCount {s : State} (h : s.Inv) (hp : s.phase = .fill) {sym c : Nat}
    (count : (s.addCount sym c).CountInv) : (s.addCount sym c).Inv :=
  .of_beforeTree (by simp [hp, Phase.beforeTree]) count ⟨h.err.err, h.err.quiet⟩
    (h.noTree (by simp [hp, Phase.beforeTree])) (fun ht => by simp [hp] at ht)

/-- In FILL, closing a table that has PSEUDO_EOF keeps the invariants. -/
theorem State.Inv.enterTable {s : State} (h : s.Inv) (hp : s.phase = .fill) (he : s.freqAt 256 ≠ 0#32) :
    (s.enter .table).Inv :=
  .of_beforeTree rfl (h.count.of_eq rfl rfl rfl rfl) (h.err.of_eq (by simp [hp]) (by simp) rfl rfl rfl)
    (h.noTree (by simp [hp, Phase.beforeTree])) (fun _ => h.count.eof.resolve_left he)

/-- In TABLE, the arena of the table's tree with CUR at its root keeps the invariants. -/
theorem State.Inv.installTree {s : State} (h : s.Inv) (hp : s.phase = .table) :
    (s.installTree (buildArena s.width s.freq) (arenaRoot (buildArena s.width s.freq))).Inv := by
  obtain ⟨-, -, -, hn, -, -⟩ := h.noTree (by simp [hp, Phase.beforeTree])
  exact .of_hasTree rfl (h.count.of_eq rfl rfl rfl rfl) (h.err.of_eq (by simp [hp]) (by simp) rfl rfl rfl)
    (h.sealed (by simp [hp]) (by simp [hp])) ⟨rfl, rfl⟩ (fun hc => by simp [Phase.hasCodes] at hc)
    (fun _ => hn) (.inl hn) (fun _ => .inl rfl) (fun hd => by simp at hd)

/-- The codes recorded into an empty code table are the tree's. -/
theorem State.NoCodes.treeCodes {s t : State} (h : s.NoCodes) (hn : t.nodes = s.nodes) (hr : t.root = s.root)
    (hl : t.codeLen = (s.recordCodes s.treePaths).codeLen) (hb : t.codeBits = (s.recordCodes s.treePaths).codeBits) :
    t.TreeCodes := by
  have hp : t.treePaths = s.treePaths := by simp [State.treePaths, hn, hr]
  have hc := State.recordCodes_congr s.treePaths (s := s) (t := t.withoutCodes) h.1 h.2
  exact ⟨by rw [hp, hl]; exact hc.1, by rw [hp, hb]; exact hc.2⟩

/-- In TREE, the codes of the tree recorded keep the invariants. -/
theorem State.Inv.buildCodes {s : State} (h : s.Inv) (hp : s.phase = .tree) :
    ((s.recordCodes s.treePaths).enter .codes).Inv := by
  have hc : ((s.recordCodes s.treePaths).enter .codes).TreeCodes := by
    refine (h.noCodes hp).treeCodes ?_ ?_ rfl rfl <;> rw [State.recordCodes_frame] <;> rfl
  rw [State.recordCodes_frame] at hc ⊢
  exact .of_hasTree rfl (h.count.of_eq rfl rfl rfl rfl) (h.err.of_eq (by simp [hp]) (by simp) rfl rfl rfl)
    (h.sealed (by simp [hp]) (by simp [hp])) (h.tree (by simp [hp, Phase.hasTree])) (fun _ => hc)
    (fun ht => by simp at ht) (.inr hc) (fun _ => h.cur (by simp [hp, Phase.mayDescend])) (fun hd => by simp at hd)

/-- From TREE on, a move of PHASE, CUR, the counters and the traces alone keeps the invariants, if the new phase finds CUR and
the code table as it asks. -/
theorem State.Inv.move {s : State} (h : s.Inv) (hs : s.phase.hasTree = true) {p : Phase} {i : NodeIndex} {n : BitVec 64}
    {m : Word} {bits : List Bool} {bytes : List Byte} (hp : p.hasTree = true) (hne : p ≠ .tree)
    (codes : p.hasCodes = true → s.phase.hasCodes = true)
    (cur : p.mayDescend = true → i = s.root ∨ (s.node i).kind = .internal)
    (curDone : p = .decDone → (s.node i).kind = .leaf ∧ (s.node i).sym = Config.pseudoEof) :
    State.Inv { s with phase := p, cur := i, bitCount := n, symCount := m, bitOut := bits, byteOut := bytes } :=
  have hfe := Phase.ne_of_hasTree hs
  .of_hasTree hp (h.count.of_eq rfl rfl rfl rfl)
    (h.err.of_eq hfe.2 (Phase.ne_of_hasTree hp).2 rfl rfl rfl) (h.sealed hfe.1 hfe.2) (h.tree hs)
    (fun hc => (h.codes (codes hc)).of_eq rfl rfl rfl rfl) (fun ht => absurd ht hne)
    (h.codeTable.imp_right fun hc => hc.1.of_eq rfl rfl rfl rfl) cur curDone

/-- With codes, sending a code word on the way to ENCODING or ENC_DONE keeps the invariants. -/
theorem State.Inv.encode {s : State} (h : s.Inv) (hs : s.phase = .codes ∨ s.phase = .encoding) {p : Phase}
    (hp : p = .encoding ∨ p = .encDone) {n : BitVec 64} {m : Word} {bits : List Bool} :
    State.Inv { s with phase := p, bitCount := n, symCount := m, bitOut := bits } := by
  have hc : s.phase.hasCodes = true := by simpa [Phase.hasCodes] using hs.imp_right .inl
  have ht : s.phase.hasTree = true := by obtain hs | hs := hs <;> simp [hs, Phase.hasTree]
  obtain rfl | rfl := hp <;>
    exact h.move ht rfl (by decide) (fun _ => hc) (fun hd => absurd hd (by decide)) (fun hd => absurd hd (by decide))

/-- Where the decoder may descend, the walk's arrival keeps the invariants: CUR is an internal node, the PSEUDO_EOF leaf in
DEC_DONE, or ROOT again after a real symbol. -/
theorem State.Inv.arrive {s : State} (h : s.Inv) (hs : s.phase.mayDescend = true) (n : NodeIndex) : (s.arrive n).Inv := by
  have ht : s.phase.hasTree = true := by revert hs; cases s.phase <;> simp [Phase.mayDescend, Phase.hasTree]
  obtain ⟨hk, ha⟩ | ⟨hk, he, ha⟩ | ⟨-, -, ha⟩ := s.arrive_cases n <;>
    simp only [ha, State.enter, State.moveTo, State.countSymbol, State.emitByte, State.consumeBit]
  · exact h.move ht rfl (by decide) (fun hc => absurd hc (by decide)) (fun _ => .inr hk) (fun hd => absurd hd (by decide))
  · exact h.move ht rfl (by decide) (fun hc => absurd hc (by decide)) (fun hd => absurd hd (by decide)) (fun _ => ⟨hk, he⟩)
  · exact h.move ht rfl (by decide) (fun hc => absurd hc (by decide)) (fun _ => .inl rfl) (fun hd => absurd hd (by decide))

/-- In FILL, appending PSEUDO_EOF fits: R124 has kept the room for it. -/
theorem State.CountInv.addEof {s : State} (h : s.CountInv) (ha : s.freqAt 256 = 0#32) : (s.addCount 256 1).CountInv := by
  have hb := h.bound
  rw [if_pos ha] at hb
  exact h.addCount (by decide) (by decide) (by decide) (by simpa using hb) (fun _ => ⟨rfl, ha⟩)

/-- The appended PSEUDO_EOF has count 1. -/
theorem State.CountInv.freqAt_addEof {s : State} (h : s.CountInv) (ha : s.freqAt 256 = 0#32) :
    (s.addCount 256 1).freqAt 256 ≠ 0#32 := by
  have hb := h.bound
  rw [if_pos ha] at hb
  have hc : (toCount s.width 1).toNat = 1 := toCount_toNat h.width.2 (by omega)
  rw [s.freqAt_addCount_self 1 (by decide), ha]
  intro h0
  rw [show (0#32).toNat + 1 = 1 from rfl] at h0
  simp [h0] at hc

/-- Every command's effect keeps the invariants. -/
theorem Effect.inv {s t : State} {i : Instr} (he : Effect s i t) (h : s.Inv) : t.Inv := by
  cases he with
  | nop => exact h
  | clear => exact s.inv_cleared h.count.width
  | count b hp hb =>
    refine h.addCount hp (h.count.addCount (by omega) (by decide) (by decide) ?_ (by omega))
    rwa [if_neg (by omega)]
  | loadFreq sym hp hs hc he ha hb =>
    exact h.addCount hp (h.count.addCount hs (Nat.pos_of_ne_zero hc) s.arg.isLt hb fun hs => ⟨he hs, hs ▸ ha⟩)
  | sealAdds hp ha =>
    exact (h.addCount hp (h.count.addEof ha)).enterTable hp (h.count.freqAt_addEof ha)
  | sealKeeps hp ha => exact h.enterTable hp ha
  | buildTree hp => exact h.installTree hp
  | buildCodes hp => exact h.buildCodes hp
  | encodeByte b hp => exact h.encode hp (.inl rfl)
  | encodeEnd hp => exact h.encode hp (.inr rfl)
  | decodeIgnored => exact h
  | decodeBit b hp => exact h.arrive hp _
  | decodeEnd => exact h

/-- A command word, executed, ignored or in error, keeps the invariants. -/
theorem State.Inv.command {w : Word} {s t : State} (h : s.Inv) (hc : command w s = .next t) : t.Inv := by
  obtain ⟨-, rfl⟩ | ⟨-, e, d, he, rfl⟩ | ⟨i, -, he⟩ := command_effects hc
  · exact h
  · exact h.raise he d w
  · exact he.inv h

/-! ### At reset and at every step -/

/-- Settles O45: the reset state is what CLEAR leaves of it. -/
theorem invariantsHoldAfterReset : Obligations.InvariantsHoldAfterReset :=
  fun w h1 h32 => (State.resetWith w).inv_cleared ⟨h1, h32⟩

/-- Settles O44: reset starts anew, the host's side stands outside the invariants, and every command keeps them. -/
theorem invariantsAreKeptByEveryStep : Obligations.InvariantsAreKeptByEveryStep := by
  intro s t h hstep
  cases stepCase hstep with
  | reset => exact s.underReset.inv_cleared h.count.width
  | answer rest r => exact h.hostSide ..
  | writeCtrl v rest => exact h.hostSide ..
  | writeArg v rest => exact h.hostSide ..
  | writeCmd w rest _ _ hc =>
    have hs : ((s.taking rest).respond .writeDone).Inv := h.hostSide ..
    exact hs.command hc

end Sys2Proof.Machine
end

section
/-! What the host reads: the fields of STATUS (spec/10_state.md R23 to R25), and every register and window after reset
(R50, 20_memory.md R71). -/

namespace Sys2Proof.Machine

/-! ### STATUS -/

/-- STATUS bit by bit: no field reaches into another (R23). -/
theorem State.getLsbD_status (s : State) {j : Nat} (hj : j < 32) :
    s.status.getLsbD j =
      if j < 4 then s.phase.code.getLsbD j
      else if j < 6 then s.dstate.code.getLsbD (j - 4)
      else if j < 8 then false
      else s.err.code.getLsbD (j - 8) := by
  have bits : s.status.getLsbD j =
      (s.phase.code.getLsbD j || (!decide (j < 4) && s.dstate.code.getLsbD (j - 4)) ||
        (!decide (j < 8) && s.err.code.getLsbD (j - 8))) := by
    simp [State.status, hj]
  have phaseEnds (h : 4 ≤ j) : s.phase.code.getLsbD j = false := BitVec.getLsbD_of_ge _ _ h
  have dstateEnds (h : 6 ≤ j) : s.dstate.code.getLsbD (j - 4) = false := BitVec.getLsbD_of_ge _ _ (by omega)
  rw [bits]
  by_cases h4 : j < 4
  · simp [h4, show j < 8 by omega]
  by_cases h6 : j < 6
  · simp [h4, h6, phaseEnds (by omega), show j < 8 by omega]
  by_cases h8 : j < 8
  · simp [h4, h6, h8, phaseEnds (by omega), dstateEnds (by omega)]
  · simp [h4, h6, h8, phaseEnds (by omega), dstateEnds (by omega)]

theorem State.status_phase (s : State) : s.status.extractLsb' 0 4 = s.phase.code := by
  apply BitVec.eq_of_getLsbD_eq
  intro j hj
  rw [BitVec.getLsbD_extractLsb', s.getLsbD_status (by omega)]
  simp [hj]

theorem State.status_dstate (s : State) : s.status.extractLsb' 4 2 = s.dstate.code := by
  apply BitVec.eq_of_getLsbD_eq
  intro j hj
  rw [BitVec.getLsbD_extractLsb', s.getLsbD_status (by omega)]
  simp [hj, show 4 + j < 6 by omega]

theorem State.status_reserved (s : State) : s.status.extractLsb' 6 2 = 0#2 := by
  apply BitVec.eq_of_getLsbD_eq
  intro j hj
  rw [BitVec.getLsbD_extractLsb', s.getLsbD_status (by omega)]
  simp [show ¬ 6 + j < 4 by omega, show 6 + j < 8 by omega]

theorem State.status_err (s : State) : s.status.extractLsb' 8 4 = s.err.code := by
  apply BitVec.eq_of_getLsbD_eq
  intro j hj
  rw [BitVec.getLsbD_extractLsb', s.getLsbD_status (by omega)]
  simp [hj, show ¬ 8 + j < 4 by omega, show ¬ 8 + j < 6 by omega]

theorem State.status_high (s : State) : s.status.extractLsb' 12 20 = 0#20 := by
  apply BitVec.eq_of_getLsbD_eq
  intro j hj
  rw [BitVec.getLsbD_extractLsb', s.getLsbD_status (by omega), BitVec.getLsbD_of_ge s.err.code _ (by omega)]
  simp [show ¬ 12 + j < 4 by omega, show ¬ 12 + j < 6 by omega]

/-- DSTATE's code (R25). -/
theorem State.dstate_code (s : State) :
    s.dstate.code =
      if s.phase = .tree ∨ s.phase = .codes ∨ s.phase = .decoding then (if s.cur = s.root then 0#2 else 1#2)
      else if s.phase = .decDone then 2#2 else 3#2 := by
  by_cases hc : s.cur = s.root <;> cases hp : s.phase <;> simp [State.dstate, hp, hc, DState.code]

/-- Settles O53: each field reads as its code, and DSTATE follows from PHASE, CUR and ROOT. -/
theorem statusFields : Obligations.StatusFields := by
  intro s
  refine ⟨?_, ?_, s.status_reserved, ?_, s.status_high⟩
  · rw [s.status_phase]; cases s.phase <;> rfl
  · rw [s.status_dstate, s.dstate_code]
  · rw [s.status_err]; cases s.err <;> rfl

/-! ### After reset -/

/-- Beyond PARAMS the register space below the windows is unmapped and reads 0 (20_memory.md R75). -/
theorem State.readRegister_of_ge (s : State) {n : Nat} (h : 0x40 ≤ n) : s.readRegister n = 0#32 := by
  unfold State.readRegister
  split
  case h_17 => rfl
  all_goals omega

theorem State.NoCodes.codeLenAt {s : State} (h : s.NoCodes) (k : Nat) : s.codeLenAt k = 0#9 := by
  by_cases hk : k < 257 <;> simp [State.codeLenAt, h.1, hk]

theorem State.NoCodes.codeBitsAt {s : State} (h : s.NoCodes) (k : Nat) : s.codeBitsAt k = 0#256 := by
  by_cases hk : k < 257 <;> simp [State.codeBitsAt, h.2, hk]

/-- Where no count, no node and no code is held, every window and every unmapped offset reads 0. -/
theorem State.readWord_window_of_empty {s : State} (hf : s.freq = Vector.replicate 257 0#32) (hn : s.nodes = [])
    (hc : s.NoCodes) {a : Addr} (ha : 0x40 ≤ a.toNat) : s.readWord a = 0#32 := by
  have nodeA (i : Nat) : s.nodeA i = 0#32 := by simp [State.nodeA, hn]
  have nodeB (i : Nat) : s.nodeB i = 0#32 := by simp [State.nodeB, hn]
  simp [State.readWord, s.readRegister_of_ge ha, State.freqAt_of_empty hf, hc.codeLenAt, State.codeBitsWord, hc.codeBitsAt, nodeA, nodeB]

/-- Settles O48: the registers by their reset values, the windows empty. -/
theorem resetRegistersRead : Obligations.ResetRegistersRead :=
  ⟨rfl, rfl, rfl, rfl, rfl, rfl, rfl, fun _ ha => State.readWord_window_of_empty rfl rfl ⟨rfl, rfl⟩ ha⟩

end Sys2Proof.Machine
end

section
/-! The host's bus accesses (spec/20_memory.md R72 to R75): what a step does with the access that is next, a read's answer, a
write's effect by its offset, and a command word that decodes (60_exceptions.md R245). -/

namespace Sys2Proof.Machine

/-- With reset released, a step performs the host's next access. -/
theorem step_access {s : State} {x : BusAccess} {rest : List BusAccess} (hr : s.resetIn.head? ≠ some true)
    (hp : s.pending = x :: rest) : step s = access x (s.taking rest) := by
  simp only [step, busStep, hr, hp, if_false]

/-- What `accessOk` decides (R74). -/
theorem accessOk_iff {a : Addr} {size : Nat} : accessOk a size = true ↔ size = 4 ∧ a.toNat % 4 = 0 := by
  simp [accessOk]

theorem access_read_ok {a : Addr} {size : Nat} (h : size = 4 ∧ a.toNat % 4 = 0) (s : State) :
    access (.read a size) s = .next (s.respond (.readData (s.readWord a))) :=
  if_pos (accessOk_iff.mpr h)

theorem access_read_busError {a : Addr} {size : Nat} (h : ¬ (size = 4 ∧ a.toNat % 4 = 0)) (s : State) :
    access (.read a size) s = .next (s.respond (.readError 0#32)) :=
  if_neg (mt accessOk_iff.mp h)

theorem access_write_ok {a : Addr} {size : Nat} (h : size = 4 ∧ a.toNat % 4 = 0) (v : Word) (s : State) :
    access (.write a size v) s = writeWord a v (s.respond .writeDone) :=
  if_pos (accessOk_iff.mpr h)

theorem access_write_busError {a : Addr} {size : Nat} (h : ¬ (size = 4 ∧ a.toNat % 4 = 0)) (v : Word) (s : State) :
    access (.write a size v) s = .next (s.respond .writeError) :=
  if_neg (mt accessOk_iff.mp h)

/-- A write to an offset other than CTRL, ARG and CMD is ignored (R73, R75). -/
theorem writeWord_of_ignored {a : Addr} (hctrl : a ≠ Config.ctrlOffset) (harg : a ≠ Config.argOffset)
    (hcmd : a ≠ Config.cmdOffset) (v : Word) (s : State) : writeWord a v s = .next s := by
  simp only [writeWord, hctrl, harg, hcmd, if_false]

theorem access_write_cmd (v : Word) (s : State) :
    access (.write Config.cmdOffset 4 v) s = command v (s.respond .writeDone) :=
  access_write_ok (by decide) v s

theorem command_of_decode {w : Word} {i : Instr} (h : decode w = .ok i) (s : State) : command w s = exec i s := by
  simp only [command, h]

/-- What a read finds does not depend on what the host has still to do. -/
theorem State.readWord_taking (s : State) (rest : List BusAccess) (a : Addr) :
    (s.taking rest).readWord a = s.readWord a := rfl

/-- Settles O49: the access is taken, and its answer is all the read leaves. -/
theorem readsHaveNoSideEffect : Obligations.ReadsHaveNoSideEffect := by
  intro s a size rest hr hp
  rw [step_access hr hp]
  by_cases h : size = 4 ∧ a.toNat % 4 = 0
  · rw [access_read_ok h, s.readWord_taking]
    exact ⟨_, rfl, rfl, fun _ => rfl, fun hn => absurd h hn⟩
  · rw [access_read_busError h]
    exact ⟨_, rfl, rfl, fun hy => absurd hy h, fun _ => rfl⟩

/-- Settles O46: the write reaches CMD, and the word it carries decodes. -/
theorem stepRunsTheDecodedCommand : Obligations.StepRunsTheDecodedCommand := by
  intro s w rest i hr hp hd
  rw [step_access hr hp, access_write_cmd, command_of_decode hd]
  rfl

/-- Settles O50: an access that passes R74's check acts by its offset, any other is a bus error. -/
theorem writesActByOffset : Obligations.WritesActByOffset := by
  intro s a size v
  refine ⟨?_, ?_, ?_, ?_, fun h => access_write_busError h v s⟩
  · rintro rfl rfl
    exact access_write_ok (by decide) v s
  · rintro rfl rfl
    exact access_write_ok (by decide) v s
  · rintro rfl rfl
    exact access_write_cmd v s
  · intro hs ha hctrl harg hcmd
    rw [access_write_ok ⟨hs, ha⟩, writeWord_of_ignored hctrl harg hcmd]
    rfl

end Sys2Proof.Machine
end

section
/-! What an offset of the register space reads as (spec/20_memory.md R71, R75), and the words of the node window field by field
(R85). -/

namespace Sys2Proof.Machine

/-! ### The node window's words -/

/-- NODE_A is its fields side by side. -/
theorem Node.wordA_eq_append (n : Node) :
    n.wordA = (if n.kind = .internal then 1#1 else 0#1) ++ 0#2 ++ n.sym ++ n.one ++ n.zero := by
  refine .trans ?_ (BitVec.setWidth_eq _)
  rw [BitVec.setWidth_append_append_append_eq_shiftLeft_setWidth_or, Node.wordA]
  cases n.kind <;> rfl

theorem Node.wordA_kind (n : Node) : n.wordA.extractLsb' 31 1 = if n.kind = .internal then 1#1 else 0#1 := by
  rw [n.wordA_eq_append, BitVec.extractLsb'_append_eq_of_le (by decide),
    BitVec.extractLsb'_append_eq_of_le (by decide), BitVec.extractLsb'_append_eq_of_le (by decide),
    BitVec.extractLsb'_append_eq_left]

theorem Node.wordA_reserved (n : Node) : n.wordA.extractLsb' 29 2 = 0#2 := by
  rw [n.wordA_eq_append, BitVec.extractLsb'_append_eq_of_le (by decide),
    BitVec.extractLsb'_append_eq_of_le (by decide), BitVec.extractLsb'_append_eq_of_le (by decide),
    BitVec.extractLsb'_append_eq_right]

theorem Node.wordA_sym (n : Node) : n.wordA.extractLsb' 20 9 = n.sym := by
  rw [n.wordA_eq_append, BitVec.extractLsb'_append_eq_of_le (by decide),
    BitVec.extractLsb'_append_eq_of_le (by decide), BitVec.extractLsb'_append_eq_right]

theorem Node.wordA_one (n : Node) : n.wordA.extractLsb' 10 10 = n.one := by
  rw [n.wordA_eq_append, BitVec.extractLsb'_append_eq_of_le (by decide), BitVec.extractLsb'_append_eq_right]

theorem Node.wordA_zero (n : Node) : n.wordA.extractLsb' 0 10 = n.zero := by
  rw [n.wordA_eq_append, BitVec.extractLsb'_append_eq_right]

/-- Settles O52: an allocated entry reads as its packed fields and its count, any other as 0. -/
theorem nodeWindowWords : Obligations.NodeWindowWords := by
  intro s i
  constructor
  · intro h
    rw [show s.nodeA i = (nodeAt s.nodes i).wordA from if_pos h]
    exact ⟨Node.wordA_kind _, Node.wordA_reserved _, Node.wordA_sym _, Node.wordA_one _, Node.wordA_zero _, if_pos h⟩
  · intro h
    exact ⟨if_neg (by omega), if_neg (by omega)⟩

/-! ### The register space map -/

theorem State.readWord_register (s : State) {a : Addr} (h : a.toNat < 0x1000) : s.readWord a = s.readRegister a.toNat :=
  if_pos h

/-- An offset given as a number is that number. -/
theorem toNat_addr {n : Nat} (h : n < 0x10000) : (BitVec.ofNat 16 n : Addr).toNat = n := by
  rw [BitVec.toNat_ofNat, Nat.mod_eq_of_lt h]

theorem State.readWord_freq (s : State) {k : Nat} (hk : k ≤ 1023) :
    s.readWord (BitVec.ofNat 16 (0x1000 + 4 * k)) = s.freqAt k := by
  simp only [State.readWord, toNat_addr (show 0x1000 + 4 * k < 0x10000 by omega)]
  rw [if_neg (by omega), if_pos (by omega), show (0x1000 + 4 * k - 0x1000) / 4 = k by omega]

theorem State.readWord_codeLen (s : State) {k : Nat} (hk : k ≤ 1023) :
    s.readWord (BitVec.ofNat 16 (0x2000 + 4 * k)) = (s.codeLenAt k).setWidth 32 := by
  simp only [State.readWord, toNat_addr (show 0x2000 + 4 * k < 0x10000 by omega)]
  rw [if_neg (by omega), if_neg (by omega), if_pos (by omega), show (0x2000 + 4 * k - 0x2000) / 4 = k by omega]

theorem State.readWord_codeBits (s : State) {k w : Nat} (hk : k ≤ 511) (hw : w ≤ 7) :
    s.readWord (BitVec.ofNat 16 (0x4000 + 32 * k + 4 * w)) = s.codeBitsWord k w := by
  simp only [State.readWord, toNat_addr (show 0x4000 + 32 * k + 4 * w < 0x10000 by omega)]
  rw [if_neg (by omega), if_neg (by omega), if_neg (by omega), if_neg (by omega), if_pos (by omega),
    show (0x4000 + 32 * k + 4 * w - 0x4000) / 32 = k by omega,
    show (0x4000 + 32 * k + 4 * w - 0x4000) % 32 / 4 = w by omega]

/-- In the node window NODE_A and NODE_B take turns. -/
theorem State.readWord_node (s : State) {a : Addr} (hlo : 0x8000 ≤ a.toNat) (hhi : a.toNat < 0xA000) :
    s.readWord a =
      if a.toNat % 8 < 4 then s.nodeA ((a.toNat - 0x8000) / 8) else s.nodeB ((a.toNat - 0x8000) / 8) := by
  simp only [State.readWord]
  rw [if_neg (by omega), if_neg (by omega), if_neg (by omega), if_neg (by omega), if_neg (by omega), if_pos hhi]

theorem State.readWord_nodeA (s : State) {i : Nat} (hi : i ≤ 1023) :
    s.readWord (BitVec.ofNat 16 (0x8000 + 8 * i)) = s.nodeA i := by
  have ha := toNat_addr (show 0x8000 + 8 * i < 0x10000 by omega)
  rw [s.readWord_node (by omega) (by omega), ha, if_pos (by omega), show (0x8000 + 8 * i - 0x8000) / 8 = i by omega]

theorem State.readWord_nodeB (s : State) {i : Nat} (hi : i ≤ 1023) :
    s.readWord (BitVec.ofNat 16 (0x8000 + 8 * i + 4)) = s.nodeB i := by
  have ha := toNat_addr (show 0x8000 + 8 * i + 4 < 0x10000 by omega)
  rw [s.readWord_node (by omega) (by omega), ha, if_neg (by omega), show (0x8000 + 8 * i + 4 - 0x8000) / 8 = i by omega]

/-- An offset beyond the registers and outside every window reads 0 (R75). -/
theorem State.readWord_unmapped (s : State) {a : Addr}
    (h : (0x0040 ≤ a.toNat ∧ a.toNat < 0x1000) ∨ (0x3000 ≤ a.toNat ∧ a.toNat < 0x4000) ∨ 0xA000 ≤ a.toNat) :
    s.readWord a = 0#32 := by
  obtain ⟨hlo, hhi⟩ | ⟨hlo, hhi⟩ | hlo := h
  · rw [s.readWord_register hhi, s.readRegister_of_ge hlo]
  · simp only [State.readWord]
    rw [if_neg (by omega), if_neg (by omega), if_neg (by omega), if_pos hhi]
  · simp only [State.readWord]
    rw [if_neg (by omega), if_neg (by omega), if_neg (by omega), if_neg (by omega), if_neg (by omega), if_neg (by omega)]

theorem State.getLsbD_codeBitsWord (s : State) (k w : Nat) {j : Nat} (hj : j < 32) :
    (s.codeBitsWord k w).getLsbD j = (s.codeBitsAt k).getLsbD (32 * w + j) := by
  simp [State.codeBitsWord, hj]

/-- CTRL holds MATERIALIZE in bit 0. -/
theorem State.readWord_ctrl (s : State) : s.readWord Config.ctrlOffset = if s.materialize then 1#32 else 0#32 := by
  change (BitVec.ofBool s.materialize).setWidth 32 = _
  cases s.materialize <;> rfl

/-- The two BITCOUNT registers side by side are the counter. -/
theorem State.readWord_bitCount (s : State) : s.readWord 0x0034#16 ++ s.readWord 0x0030#16 = s.bitCount :=
  BitVec.extractLsb'_append_extractLsb' (w := 32) (len := 32)

/-- Settles O51: each register by its case of R71, each window at its index, and slots beyond 256 empty. -/
theorem registerSpaceMap : Obligations.RegisterSpaceMap := by
  intro s
  have narrow {w : Nat} (hw : w ≤ 32) (x : BitVec w) : (x.setWidth 32).toNat = x.toNat :=
    BitVec.toNat_setWidth_of_le hw
  refine ⟨⟨rfl, s.readWord_ctrl, rfl, rfl, rfl, rfl, narrow (by decide) s.errDetail, rfl, rfl, BitVec.toNat_ofNat ..,
    narrow (by decide) s.root, narrow (by decide) s.cur, s.readWord_bitCount, rfl, narrow (by decide) s.countWidth⟩,
    ?_, ?_, ?_, fun i hi => ⟨s.readWord_nodeA hi, s.readWord_nodeB hi⟩, fun _ h => s.readWord_unmapped h⟩
  · intro k hk
    rw [s.readWord_freq hk]
    split
    · rfl
    · exact s.freqAt_of_ge (by omega)
  · intro k hk
    rw [s.readWord_codeLen hk, narrow (by decide)]
    split
    · rfl
    · rw [s.codeLenAt_of_ge (by omega)]; rfl
  · intro k w hk hw j hj
    rw [s.readWord_codeBits hk hw, s.getLsbD_codeBitsWord k w hj]
    split
    · rfl
    · rw [s.codeBitsAt_of_ge (by omega), BitVec.getLsbD_zero]

end Sys2Proof.Machine
end

section
/-! The decoder by the rows of the opcode map (spec/30_encoding.md R100 to R104): a word's opcode picks its row, the word
matches that row exactly when its reserved bits are clear, and it then decodes to the row's command. -/

namespace Sys2Proof

/-! ### A word is its opcode and its operand field -/

theorem toNat_opcodeOf (w : Word) : (opcodeOf w).toNat = w.toNat / 2 ^ 24 := by
  have hw := w.isLt
  rw [opcodeOf, BitVec.extractLsb'_toNat, Nat.shiftRight_eq_div_pow, Nat.mod_eq_of_lt (by omega)]

theorem toNat_operandField (w : Word) : (operandField w).toNat = w.toNat % 2 ^ 24 :=
  Nat.and_two_pow_sub_one_eq_mod w.toNat 24

theorem word_eq_iff {w v : Word} :
    w = v ↔ (opcodeOf w).toNat = (opcodeOf v).toNat ∧ operandField w = operandField v := by
  rw [← BitVec.toNat_inj, ← BitVec.toNat_inj, toNat_operandField, toNat_operandField, toNat_opcodeOf, toNat_opcodeOf]
  omega

theorem toNat_shiftRight_opcode (w : Word) : (w >>> 24).toNat = (opcodeOf w).toNat := by
  rw [toNat_opcodeOf, BitVec.toNat_ushiftRight, Nat.shiftRight_eq_div_pow]

theorem shiftRight_eq_iff {w v : Word} : w >>> 24 = v >>> 24 ↔ (opcodeOf w).toNat = (opcodeOf v).toNat := by
  rw [← BitVec.toNat_inj, toNat_shiftRight_opcode, toNat_shiftRight_opcode]

/-! ### The rows -/

/-- The opcode of a row (R103). -/
def OpcodeRow.opcode (r : OpcodeRow) : Nat := (opcodeOf r.matchWord).toNat

/-- The command of a mnemonic, its operand read from the word (R102, R103). -/
def Mnemonic.instr (m : Mnemonic) (w : Word) : Instr :=
  match m with
  | .NOP => .nop
  | .CLEAR => .clear
  | .COUNT => .count (byteOperand w)
  | .LOAD_FREQ => .loadFreq (symOperand w)
  | .SEAL => .sealTable
  | .BUILD_TREE => .buildTree
  | .BUILD_CODES => .buildCodes
  | .ENCODE => .encodeByte (byteOperand w)
  | .ENCODE_END => .encodeEnd
  | .DECODE_BIT => .decodeBit (bitOperand w)
  | .DECODE_END => .decodeEnd

theorem Mnemonic.mnemonic_instr (m : Mnemonic) (w : Word) : (m.instr w).mnemonic = m := by
  cases m <;> rfl

theorem Mnemonic.format_instr_eq (m : Mnemonic) (w v : Word) : (m.instr w).format = (m.instr v).format := by
  cases m <;> rfl

theorem OpcodeRow.format_instr {r : OpcodeRow} (hr : r ∈ opcodeMap) (w : Word) :
    (r.mnemonic.instr w).format = r.format := by
  have h : ∀ r ∈ opcodeMap, (r.mnemonic.instr 0#32).format = r.format := by decide
  exact (r.mnemonic.format_instr_eq w 0#32).trans (h r hr)

/-- The opcodes of the map count up from 0. -/
theorem opcode_getElem : ∀ k : Fin opcodeMap.length, opcodeMap[k].opcode = k := by decide

theorem exists_row {w : Word} (h : (opcodeOf w).toNat ≤ 0x0A) : ∃ r ∈ opcodeMap, (opcodeOf w).toNat = r.opcode :=
  have hk : (opcodeOf w).toNat < opcodeMap.length := Nat.lt_succ_of_le h
  ⟨opcodeMap[(opcodeOf w).toNat], List.getElem_mem hk, (opcode_getElem ⟨_, hk⟩).symm⟩

/-- The opcode picks the row, whose format the reserved bits are checked against. -/
theorem decode_of_opcode {w : Word} {r : OpcodeRow} (hr : r ∈ opcodeMap) (h : (opcodeOf w).toNat = r.opcode) :
    decode w = checkReserved r.format w (r.mnemonic.instr w) := by
  obtain ⟨k, hk, rfl⟩ := List.mem_iff_getElem.mp hr
  replace h := h.trans (opcode_getElem ⟨k, hk⟩)
  unfold decode
  rw [h]
  change k < 11 at hk
  interval_cases k <;> rfl

theorem decode_of_reserved {w : Word} (h : 0x0A < (opcodeOf w).toNat) : decode w = .error .reservedOpcode := by
  unfold decode
  split
  case h_12 => rfl
  all_goals omega

/-- A row's mask leaves out the operand bits alone, and its match word has none of the bits of `cmd[23:0]`. -/
theorem OpcodeRow.mask_and_match : ∀ r ∈ opcodeMap, r.mask = ~~~r.format.operandMask ∧
    opcodeOf r.mask = BitVec.allOnes 8 ∧ operandField r.matchWord = 0#32 := by decide

/-- A word matches a row exactly when it has the row's opcode and no reserved bit set. -/
theorem OpcodeRow.matches_iff {r : OpcodeRow} (hr : r ∈ opcodeMap) (w : Word) :
    r.matches w = true ↔ (opcodeOf w).toNat = r.opcode ∧ operandField w &&& ~~~r.format.operandMask = 0#32 := by
  obtain ⟨hm, ho, hf⟩ := r.mask_and_match hr
  have ho' : opcodeOf (w &&& r.mask) = opcodeOf w := by
    calc opcodeOf (w &&& r.mask) = opcodeOf w &&& opcodeOf r.mask := BitVec.extractLsb'_and
      _ = opcodeOf w := by rw [ho, BitVec.and_allOnes]
  have hf' : operandField (w &&& r.mask) = operandField w &&& ~~~r.format.operandMask := by
    rw [operandField, operandField, hm, BitVec.and_assoc, BitVec.and_assoc, BitVec.and_comm (~~~_)]
  rw [OpcodeRow.matches, beq_iff_eq, word_eq_iff, ho', hf', hf, OpcodeRow.opcode]

theorem decode_of_matches {w : Word} {r : OpcodeRow} (hr : r ∈ opcodeMap) (h : r.matches w = true) :
    decode w = .ok (r.mnemonic.instr w) := by
  obtain ⟨ho, hf⟩ := (r.matches_iff hr w).mp h
  rw [decode_of_opcode hr ho, checkReserved, if_pos hf]

theorem decode_of_not_matches {w : Word} {r : OpcodeRow} (hr : r ∈ opcodeMap) (ho : (opcodeOf w).toNat = r.opcode)
    (h : r.matches w = false) : decode w = .error .reservedBit := by
  have hf : ¬ (operandField w &&& ~~~r.format.operandMask = 0#32) := fun hf => by
    simp [(r.matches_iff hr w).mpr ⟨ho, hf⟩] at h
  rw [decode_of_opcode hr ho, checkReserved, if_neg hf]

/-- At most one row has a given opcode, so at most one matches. -/
theorem countP_matches_le_one (w : Word) : opcodeMap.countP (fun r => r.matches w) ≤ 1 := by
  have hnodup : (opcodeMap.map OpcodeRow.opcode).Nodup := by decide
  calc opcodeMap.countP (fun r => r.matches w)
      ≤ opcodeMap.countP (fun r => r.opcode == (opcodeOf w).toNat) :=
        List.countP_mono_left fun r hr h => beq_iff_eq.mpr ((r.matches_iff hr w).mp h).1.symm
    _ = (opcodeMap.map OpcodeRow.opcode).count (opcodeOf w).toNat :=
        (List.countP_map (p := (· == (opcodeOf w).toNat))).symm
    _ ≤ 1 := List.nodup_iff_count_le_one.mp hnodup _

/-- Settles O4: the rows' opcodes differ, and the row of a word's opcode decides what it decodes to. -/
theorem wordsDecodeByTheOneMatchingRow : Obligations.WordsDecodeByTheOneMatchingRow := by
  intro w
  refine ⟨countP_matches_le_one w,
    fun r hr h => ⟨_, decode_of_matches hr h, r.mnemonic.mnemonic_instr w, r.format_instr hr w⟩, fun h => ?_⟩
  by_cases ho : 0x0A < (opcodeOf w).toNat
  · exact ⟨_, decode_of_reserved ho⟩
  · obtain ⟨r, hr, hw⟩ := exists_row (Nat.le_of_not_lt ho)
    exact ⟨_, decode_of_not_matches hr hw (h r hr)⟩

/-! ### Illegal words -/

theorem decode_reservedOpcode_iff (w : Word) : decode w = .error .reservedOpcode ↔ 0x0A < (opcodeOf w).toNat := by
  refine ⟨fun h => ?_, decode_of_reserved⟩
  by_contra hlt
  obtain ⟨r, hr, ho⟩ := exists_row (Nat.le_of_not_lt hlt)
  rw [decode_of_opcode hr ho] at h
  cases (checkReserved_error h).2

theorem decode_reservedBit_iff (w : Word) : decode w = .error .reservedBit ↔
    ∃ r ∈ opcodeMap, (opcodeOf w).toNat = r.opcode ∧ operandField w &&& ~~~r.format.operandMask ≠ 0#32 := by
  constructor
  · intro h
    by_cases hlt : 0x0A < (opcodeOf w).toNat
    · rw [decode_of_reserved hlt] at h; cases h
    · obtain ⟨r, hr, ho⟩ := exists_row (Nat.le_of_not_lt hlt)
      rw [decode_of_opcode hr ho] at h
      exact ⟨r, hr, ho, (checkReserved_error h).1⟩
  · rintro ⟨r, hr, ho, hf⟩
    rw [decode_of_opcode hr ho, checkReserved, if_neg hf]

theorem Machine.command_of_illegal {w : Word} {e : Illegal} (h : decode w = .error e) {s : Machine.State}
    (hs : s.phase ≠ .error) : Machine.command w s = .next (s.raise .illegalCommand e.reason w) := by
  simp only [Machine.command, h, if_neg hs]

/-- Settles O5: the reason of an illegal word, and the error it raises. -/
theorem illegalWordsRaiseTheirReason : Obligations.IllegalWordsRaiseTheirReason := by
  intro w
  refine ⟨?_, ?_, fun s hs => ⟨fun h => Machine.command_of_illegal h hs, fun h => Machine.command_of_illegal h hs⟩⟩
  · rw [toNat_shiftRight_opcode]
    exact decode_reservedOpcode_iff w
  · simp only [shiftRight_eq_iff]
    exact decode_reservedBit_iff w

/-! ### Encoding and decoding are inverse -/

/-- The operand beside a match word is read back from the low bits. -/
theorem extractLsb'_or_operand {n : Nat} {m : Word} (hn : n ≤ 32) (hm : m.extractLsb' 0 n = 0#n) (x : BitVec n) :
    (m ||| x.setWidth 32).extractLsb' 0 n = x := by
  rw [BitVec.extractLsb'_or, hm, BitVec.zero_or, BitVec.extractLsb'_setWidth_of_le (by omega), BitVec.extractLsb'_eq_self]

/-- The operand an encoded command carries is its own. -/
theorem instr_encode (i : Instr) : i.mnemonic.instr (encode i) = i := by
  cases i with
  | count b => exact congrArg Instr.count (extractLsb'_or_operand (by decide) (by decide) b)
  | loadFreq s => exact congrArg Instr.loadFreq (extractLsb'_or_operand (by decide) (by decide) s)
  | encodeByte b => exact congrArg Instr.encodeByte (extractLsb'_or_operand (by decide) (by decide) b)
  | decodeBit t => cases t <;> rfl
  | _ => rfl

/-- Every command's word lies in its row of the map. -/
theorem encoded (i : Instr) : Laws.Encoded.Statement i := by
  cases i with
  | nop => exact Laws.Encoded.nop
  | clear => exact Laws.Encoded.clear
  | count b => exact Laws.Encoded.count b
  | loadFreq s => exact Laws.Encoded.loadFreq s
  | sealTable => exact Laws.Encoded.sealTable
  | buildTree => exact Laws.Encoded.buildTree
  | buildCodes => exact Laws.Encoded.buildCodes
  | encodeByte b => exact Laws.Encoded.encodeByte b
  | encodeEnd => exact Laws.Encoded.encodeEnd
  | decodeBit t => exact Laws.Encoded.decodeBit t
  | decodeEnd => exact Laws.Encoded.decodeEnd

theorem decode_encode (i : Instr) : decode (encode i) = .ok i := by
  obtain ⟨-, r, hr, hm, -, hmatch, -⟩ := encoded i
  rw [decode_of_matches hr hmatch, hm, instr_encode]

/-- Settles O1: the word matches its command's row, and the operand is read back. -/
theorem decodeOfEncodeIsTheInstruction : Obligations.DecodeOfEncodeIsTheInstruction :=
  fun i _ => decode_encode i

/-- Settles O2: the opcode and the operand make up the whole word, its reserved bits being clear. -/
theorem encodeOfDecodeIsTheWord : Obligations.EncodeOfDecodeIsTheWord :=
  fun _ _ h => encode_of_decode h

/-- Settles O3: each word by evaluation. -/
theorem wordsOfTheMapDecode : Obligations.WordsOfTheMapDecode := by
  unfold Obligations.WordsOfTheMapDecode
  decide

end Sys2Proof
end

section
/-! The assembler's command lines (spec/30_encoding.md R107). -/

namespace Sys2Proof.Machine

theorem setWidth_ofNat_of_lt {n b : Nat} (hn : n ≤ 32) (hb : b < 2 ^ n) :
    (BitVec.ofNat n b).setWidth 32 = BitVec.ofNat 32 b := by
  apply BitVec.eq_of_toNat_eq
  rw [BitVec.toNat_setWidth_of_le hn, BitVec.toNat_ofNat, BitVec.toNat_ofNat, Nat.mod_eq_of_lt hb,
    Nat.mod_eq_of_lt (hb.trans_le (Nat.pow_le_pow_right (by decide) hn))]

/-! ### The four commands with an operand -/

theorem AsmCommand.instr_count (b : Nat) :
    AsmCommand.instr ⟨.COUNT, some b⟩ = if b ≤ 255 then some (.count (BitVec.ofNat 8 b)) else none := by
  simp [AsmCommand.instr, AsmCommand.wellFormed]

theorem AsmCommand.instr_loadFreq (s : Nat) :
    AsmCommand.instr ⟨.LOAD_FREQ, some s⟩ = if s ≤ 511 then some (.loadFreq (BitVec.ofNat 9 s)) else none := by
  simp [AsmCommand.instr, AsmCommand.wellFormed]

theorem AsmCommand.instr_encode (b : Nat) :
    AsmCommand.instr ⟨.ENCODE, some b⟩ = if b ≤ 255 then some (.encodeByte (BitVec.ofNat 8 b)) else none := by
  simp [AsmCommand.instr, AsmCommand.wellFormed]

theorem AsmCommand.instr_decodeBit (t : Nat) :
    AsmCommand.instr ⟨.DECODE_BIT, some t⟩ = if t ≤ 1 then some (.decodeBit (t == 1)) else none := by
  simp [AsmCommand.instr, AsmCommand.wellFormed]

/-- An operand within a bound below `2 ^ n` is written out unchanged into a field of `n` bits. -/
theorem map_encode_guarded {n bound v : Nat} {f : BitVec n → Instr} {m : Word}
    (hf : ∀ x, encode (f x) = m ||| x.setWidth 32) (hn : n ≤ 32) (hb : bound < 2 ^ n) :
    (if v ≤ bound then some (f (BitVec.ofNat n v)) else none).map encode =
      if v ≤ bound then some (m ||| BitVec.ofNat 32 v) else none := by
  split
  · rw [Option.map_some, hf, setWidth_ofNat_of_lt hn (by omega)]
  · rfl

/-- An operand within a bound below `2 ^ n` is the operand of the instruction it is given to. -/
theorem mnemonic_operand_of_guarded {n bound v : Nat} {f : BitVec n → Instr} {m : Mnemonic} {i : Instr}
    (hf : ∀ x, (f x).mnemonic = m ∧ (f x).operandValue = x.toNat) (hb : bound < 2 ^ n)
    (h : (if v ≤ bound then some (f (BitVec.ofNat n v)) else none) = some i) :
    i.mnemonic = m ∧ i.operandValue = v := by
  obtain ⟨hv, hi⟩ := Option.ite_none_right_eq_some.mp h
  obtain rfl := Option.some.inj hi
  obtain ⟨hm, ho⟩ := hf (BitVec.ofNat n v)
  exact ⟨hm, ho.trans (Nat.mod_eq_of_lt (by omega))⟩

theorem assemble_count (b : Nat) : assemble ⟨.COUNT, some b⟩ =
    if b ≤ 255 then some (0x02000000#32 ||| BitVec.ofNat 32 b) else none := by
  rw [assemble, AsmCommand.instr_count]
  exact map_encode_guarded (fun _ => rfl) (by decide) (by decide)

theorem assemble_loadFreq (s : Nat) : assemble ⟨.LOAD_FREQ, some s⟩ =
    if s ≤ 511 then some (0x03000000#32 ||| BitVec.ofNat 32 s) else none := by
  rw [assemble, AsmCommand.instr_loadFreq]
  exact map_encode_guarded (fun _ => rfl) (by decide) (by decide)

theorem assemble_encode (b : Nat) : assemble ⟨.ENCODE, some b⟩ =
    if b ≤ 255 then some (0x07000000#32 ||| BitVec.ofNat 32 b) else none := by
  rw [assemble, AsmCommand.instr_encode]
  exact map_encode_guarded (fun _ => rfl) (by decide) (by decide)

theorem assemble_decodeBit (t : Nat) : assemble ⟨.DECODE_BIT, some t⟩ =
    if t = 0 ∨ t = 1 then some (0x09000000#32 ||| BitVec.ofNat 32 t) else none := by
  rw [assemble, AsmCommand.instr_decodeBit]
  by_cases h : t ≤ 1
  · interval_cases t <;> rfl
  · rw [if_neg h, if_neg (by omega), Option.map_none]

/-! ### Every command line -/

/-- The instruction of a line has the line's mnemonic and operand: an accepted operand fits its field. -/
theorem AsmCommand.of_instr {c : AsmCommand} {i : Instr} (h : AsmCommand.instr c = some i) :
    i.mnemonic = c.mnemonic ∧ i.operandValue = c.operand.getD 0 := by
  obtain ⟨m, _ | n⟩ := c
  · cases m <;> cases h <;> exact ⟨rfl, rfl⟩
  · cases m with
    | COUNT => exact mnemonic_operand_of_guarded (fun _ => ⟨rfl, rfl⟩) (by decide) ((instr_count n).symm.trans h)
    | LOAD_FREQ => exact mnemonic_operand_of_guarded (fun _ => ⟨rfl, rfl⟩) (by decide) ((instr_loadFreq n).symm.trans h)
    | ENCODE => exact mnemonic_operand_of_guarded (fun _ => ⟨rfl, rfl⟩) (by decide) ((instr_encode n).symm.trans h)
    | DECODE_BIT =>
      rw [instr_decodeBit, Option.ite_none_right_eq_some] at h
      obtain ⟨hn, h⟩ := h
      cases h
      interval_cases n <;> exact ⟨rfl, rfl⟩
    | _ => cases h

/-- Settles O54: each line by its mnemonic, and the assembled word by decoding what was encoded. -/
theorem assemblerNeverTruncates : Obligations.AssemblerNeverTruncates := by
  intro c
  constructor
  · obtain ⟨m, _ | n⟩ := c
    · cases m <;> rfl
    · cases m with
      | COUNT => exact assemble_count n
      | LOAD_FREQ => exact assemble_loadFreq n
      | ENCODE => exact assemble_encode n
      | DECODE_BIT => exact assemble_decodeBit n
      | _ => rfl
  · intro w hw
    obtain ⟨i, hi, rfl⟩ := Option.map_eq_some_iff.mp hw
    exact ⟨i, decode_encode i, AsmCommand.of_instr hi⟩

end Sys2Proof.Machine
end

section
/-! The frequency counter (spec/41_frequency_counter.md): what COUNT, LOAD_FREQ and SEAL answer in FILL and outside it (R121 to
R123), what adding a count writes, and which state a command may write at all. -/

namespace Sys2Proof.Machine

/-! ### Outside and inside FILL -/

/-- Outside ERROR, a command the legality table does not admit raises SEQUENCE with the phase as detail (60_exceptions.md R244,
R245). -/
theorem exec_illegal {i : Instr} {s : State} (he : s.phase ≠ .error) (hl : legalIn i s.phase = false) :
    exec i s = .next (s.raise .sequence (s.phase.code.setWidth 16) (encode i)) := by
  cases i with
  | nop => cases hl
  | clear => cases hl
  | _ => exact gated_illegal he hl

theorem overflows_true {s : State} {c r : Nat} (h : Config.cmax s.width < s.total.toNat + c + r) : s.overflows c r = true :=
  decide_eq_true h

/-- The room LOAD_FREQ keeps for PSEUDO_EOF (R122): none where the pair is PSEUDO_EOF's own. -/
def State.loadReserve (s : State) (sym : Symbol) : Nat := if sym.toNat = 256 then 0 else s.eofReserve

/-- The reserve as R122 writes it. -/
theorem State.loadReserve_eq (s : State) (sym : Symbol) :
    s.loadReserve sym = if sym.toNat = 256 ∨ s.freqAt 256 ≠ 0#32 then 0 else 1 := by
  by_cases hs : sym.toNat = 256 <;> by_cases ha : s.freqAt 256 = 0#32 <;>
    simp [State.loadReserve, State.eofReserve, hs, ha]

section
variable {s : State} (hp : s.phase = .fill)
include hp

theorem gated_of_fill {i : Instr} {body : Result} (hl : legalIn i .fill = true) : gated i s body = body :=
  gated_legal (by simp [hp]) (hp ▸ hl)

theorem exec_count_of_fits (b : Byte) (hb : s.total.toNat + 1 + s.eofReserve ≤ Config.cmax s.width) :
    exec (.count b) s = .next (s.addCount b.toNat 1) :=
  (gated_of_fill hp rfl).trans (if_neg (by simp [overflows_false.mpr hb]))

theorem exec_count_of_overflows (b : Byte) (hb : Config.cmax s.width < s.total.toNat + 1 + s.eofReserve) :
    exec (.count b) s = .next (s.raise .countOverflow 0#16 (encode (.count b))) :=
  (gated_of_fill hp rfl).trans (if_pos (overflows_true hb))

/-- LOAD_FREQ in FILL: its checks in the order of R122. -/
theorem exec_loadFreq_of_fill (sym : Symbol) : exec (.loadFreq sym) s =
    if 256 < sym.toNat then raiseIn (.loadFreq sym) .badTable 2#16 s
    else if s.arg.toNat = 0 then raiseIn (.loadFreq sym) .badTable 1#16 s
    else if sym.toNat = 256 ∧ s.arg.toNat ≠ 1 then raiseIn (.loadFreq sym) .badTable 4#16 s
    else if s.freqAt sym.toNat ≠ 0#32 then raiseIn (.loadFreq sym) .badTable 3#16 s
    else if s.overflows s.arg.toNat (s.loadReserve sym) then raiseIn (.loadFreq sym) .countOverflow 0#16 s
    else .next (s.addCount sym.toNat s.arg.toNat) :=
  gated_of_fill hp rfl

/-- LOAD_FREQ in FILL of a pair that is well formed and absent is left with the bound of R124. -/
theorem exec_loadFreq_of_absent {sym : Symbol} (hs : sym.toNat ≤ 256) (hc : s.arg.toNat ≠ 0)
    (he : sym.toNat = 256 → s.arg.toNat = 1) (ha : s.freqAt sym.toNat = 0#32) : exec (.loadFreq sym) s =
      if s.overflows s.arg.toNat (s.loadReserve sym) then raiseIn (.loadFreq sym) .countOverflow 0#16 s
      else .next (s.addCount sym.toNat s.arg.toNat) := by
  rw [exec_loadFreq_of_fill hp, if_neg (by omega), if_neg hc, if_neg (fun h => h.2 (he h.1)), if_neg (by simp [ha])]

theorem exec_loadFreq_of_fits {sym : Symbol} (hs : sym.toNat ≤ 256) (hc : s.arg.toNat ≠ 0)
    (he : sym.toNat = 256 → s.arg.toNat = 1) (ha : s.freqAt sym.toNat = 0#32)
    (hb : s.total.toNat + s.arg.toNat + s.loadReserve sym ≤ Config.cmax s.width) :
    exec (.loadFreq sym) s = .next (s.addCount sym.toNat s.arg.toNat) :=
  (exec_loadFreq_of_absent hp hs hc he ha).trans (if_neg (by simp [overflows_false.mpr hb]))

theorem exec_loadFreq_of_overflows {sym : Symbol} (hs : sym.toNat ≤ 256) (hc : s.arg.toNat ≠ 0)
    (he : sym.toNat = 256 → s.arg.toNat = 1) (ha : s.freqAt sym.toNat = 0#32)
    (hb : Config.cmax s.width < s.total.toNat + s.arg.toNat + s.loadReserve sym) :
    exec (.loadFreq sym) s = .next (s.raise .countOverflow 0#16 (encode (.loadFreq sym))) :=
  (exec_loadFreq_of_absent hp hs hc he ha).trans (if_pos (overflows_true hb))

theorem exec_sealTable_of_absent (ha : s.freqAt 256 = 0#32) :
    exec .sealTable s = .next ((s.addCount 256 1).enter .table) :=
  (gated_of_fill hp rfl).trans (if_pos ha)

theorem exec_sealTable_of_present (ha : s.freqAt 256 ≠ 0#32) : exec .sealTable s = .next (s.enter .table) :=
  (gated_of_fill hp rfl).trans (if_neg ha)

end

/-! ### What adding a count writes -/

section
variable {s : State} {sym c : Nat} (h : s.CountInv)
include h

theorem State.CountInv.freqAt_le_total (k : Nat) : (s.freqAt k).toNat ≤ s.total.toNat :=
  h.total ▸ s.freqAt_le_freqSum k

theorem State.CountInv.toNat_freqAt_addCount (hs : sym ≤ 256) (hb : s.total.toNat + c ≤ Config.cmax s.width) :
    ((s.addCount sym c).freqAt sym).toNat = (s.freqAt sym).toNat + c := by
  have hle := h.freqAt_le_total sym
  rw [s.freqAt_addCount_self c (by omega), toCount_toNat h.width.2 (by omega)]

theorem State.CountInv.toNat_total_addCount (hb : s.total.toNat + c ≤ Config.cmax s.width) :
    (s.addCount sym c).total.toNat = s.total.toNat + c := by
  have hlt := cmax_lt h.width.2
  rw [State.addCount_total, BitVec.toNat_ofNat, Nat.mod_eq_of_lt (by omega)]

/-- There are 257 entries at most, so NSYM does not wrap. -/
theorem State.CountInv.toNat_nsym_addCount :
    (s.addCount sym c).nsym.toNat = s.nsym.toNat + (if s.freqAt sym = 0#32 then 1 else 0) := by
  have hle : s.nsym.toNat ≤ 257 := h.nsym ▸ s.freqCount_le
  rw [State.addCount_nsym]
  split
  · rw [BitVec.toNat_add, show (1#32).toNat = 1 from rfl, Nat.mod_eq_of_lt (by omega)]
  · rfl

theorem State.CountInv.toNat_nsym_addCount_absent (ha : s.freqAt sym = 0#32) :
    (s.addCount sym c).nsym.toNat = s.nsym.toNat + 1 := by
  rw [h.toNat_nsym_addCount, if_pos ha]

/-- A count loaded into an absent entry is the entry. -/
theorem State.CountInv.freqAt_addCount_absent {w : Word} (hs : sym ≤ 256)
    (hb : s.total.toNat + w.toNat ≤ Config.cmax s.width) (ha : s.freqAt sym = 0#32) :
    (s.addCount sym w.toNat).freqAt sym = w := by
  apply BitVec.eq_of_toNat_eq
  rw [h.toNat_freqAt_addCount hs hb, ha]
  exact Nat.zero_add _

/-- While PSEUDO_EOF is absent, TOTAL leaves room for it (R124). -/
theorem State.CountInv.eof_fits (ha : s.freqAt 256 = 0#32) : s.total.toNat + 1 ≤ Config.cmax s.width := by
  have hb := h.bound
  rwa [if_pos ha] at hb

end

/-! ### The commands of the frequency counter -/

/-- Settles O6: in FILL one byte more is counted within the bound of R124; the next values are those of `addCount`. -/
theorem countCountsOneByte : Obligations.CountCountsOneByte := by
  intro s b
  refine ⟨fun h hp hb => ?_, fun hp hb => exec_count_of_overflows hp b hb,
    fun hf he => exec_illegal he (by simp [legalIn, hf])⟩
  have hfit : s.total.toNat + 1 ≤ Config.cmax s.width := by omega
  exact ⟨_, exec_count_of_fits hp b hb, h.toNat_freqAt_addCount (by omega) hfit,
    fun c hc => s.freqAt_addCount_ne 1 hc, h.toNat_total_addCount hfit, h.toNat_nsym_addCount, rfl⟩

/-- Settles O7: each check of R122 in turn, the checks before it having passed. -/
theorem loadFreqChecksThenLoads : Obligations.LoadFreqChecksThenLoads := by
  intro s sym
  dsimp only
  rw [← s.loadReserve_eq]
  refine ⟨fun hp hs => ?symbol, fun hp hs hc => ?zero, fun hp hs hc hc1 => ?eof, fun hp hs hc he ha => ?present,
    fun hp hs hc he ha hb => ?overflow, fun h hp hs hc he ha hb => ?loaded, fun hf he => ?sequence⟩
  case symbol => rw [exec_loadFreq_of_fill hp, if_pos hs]; rfl
  case zero => rw [exec_loadFreq_of_fill hp, if_neg (by omega), if_pos hc]; rfl
  case eof => rw [exec_loadFreq_of_fill hp, if_neg (by omega), if_neg hc, if_pos ⟨hs, hc1⟩]; rfl
  case present =>
    rw [exec_loadFreq_of_fill hp, if_neg (by omega), if_neg hc, if_neg (fun h => h.2 (he h.1)), if_pos ha]
    rfl
  case overflow => exact exec_loadFreq_of_overflows hp hs hc he ha hb
  case loaded =>
    have hfit : s.total.toNat + s.arg.toNat ≤ Config.cmax s.width := by omega
    exact ⟨_, exec_loadFreq_of_fits hp hs hc he ha hb, h.freqAt_addCount_absent hs hfit ha,
      fun k hk => s.freqAt_addCount_ne _ hk, h.toNat_nsym_addCount_absent ha, h.toNat_total_addCount hfit, rfl⟩
  case sequence => exact exec_illegal he (by simp [legalIn, hf])

/-- Settles O8: R124 has kept the room for PSEUDO_EOF. -/
theorem sealClosesTheTable : Obligations.SealClosesTheTable := by
  intro s
  refine ⟨fun h hp ha => ?_, exec_sealTable_of_present, fun hf he => exec_illegal he (by simp [legalIn, hf])⟩
  have hfit := h.eof_fits ha
  exact ⟨_, exec_sealTable_of_absent hp ha, h.freqAt_addCount_absent (w := 1#32) (by omega) hfit ha,
    fun c hc => s.freqAt_addCount_ne 1 hc, h.toNat_nsym_addCount_absent (c := 1) ha,
    h.toNat_total_addCount (sym := 256) hfit, rfl, rfl⟩

/-! ### Which state a command may write -/

/-- Settles O40: a command that is ignored writes nothing, an error writes the error registers and PHASE alone, and every effect
writes its own state. -/
theorem commandsWriteOnlyTheirOwnState : Obligations.CommandsWriteOnlyTheirOwnState := by
  intro i s t h
  obtain ⟨-, rfl⟩ | ⟨-, e, d, -, rfl⟩ | he := exec_cases h
  · simp
  · simp
  · cases he with
    | buildCodes => rw [State.recordCodes_frame]; simp [Instr.mnemonic]
    | decodeBit b => rw [State.arrive_frame]; simp [Instr.mnemonic]
    | _ => simp [Instr.mnemonic]

end Sys2Proof.Machine
end

section
/-! The frequency table of a whole session (spec/41_frequency_counter.md R120, R126): what a counted byte sequence leaves in it,
and what loading a header pair by pair leaves in it. -/

namespace Sys2Proof.Machine

/-! ### Runs, one command or access after the other -/

theorem execAll_cons {i : Instr} {s t : State} (h : exec i s = .next t) (rest : List Instr) :
    execAll (i :: rest) s = execAll rest t := by
  rw [execAll, h]

theorem execAll_append {xs : List Instr} {s t : State} (h : execAll xs s = .next t) (ys : List Instr) :
    execAll (xs ++ ys) s = execAll ys t := by
  induction xs generalizing s with
  | nil => cases h; rfl
  | cons i rest ih =>
    obtain ⟨u, hu⟩ := exec_next i s
    rw [execAll_cons hu] at h
    rw [List.cons_append, execAll_cons hu, ih h]

theorem accessAll_cons {x : BusAccess} {s t : State} (h : access x s = .next t) (rest : List BusAccess) :
    accessAll (x :: rest) s = accessAll rest t := by
  rw [accessAll, h]

theorem access_writeReg_arg (v : Word) (s : State) :
    access (writeReg .arg v) s = .next { s.respond .writeDone with arg := v } := rfl

/-- A command line is a write of its word to CMD, which executes the command (30_encoding.md R107). -/
theorem access_issue (i : Instr) (s : State) : access (issue i) s = exec i (s.respond .writeDone) :=
  (access_write_cmd (encode i) s).trans (command_of_decode (decode_encode i) _)

/-! ### Counting a byte sequence -/

/-- The table in FILL after `str` has been counted on top of `s`, PSEUDO_EOF still being absent (R120, R121). -/
structure State.Counted (s : State) (str : List Byte) (t : State) : Prop where
  count : t.CountInv
  fill : t.phase = .fill
  eof : t.freqAt 256 = 0#32
  total : t.total.toNat = s.total.toNat + str.length
  freq : ∀ v : Byte, (t.freqAt v.toNat).toNat = (s.freqAt v.toNat).toNat + str.count v

/-- Counting one byte with PSEUDO_EOF absent keeps the invariants of the counts. -/
theorem State.CountInv.addByte {s : State} (h : s.CountInv) (he : s.freqAt 256 = 0#32) (b : Byte)
    (hb : s.total.toNat + 1 + 1 ≤ Config.cmax s.width) : (s.addCount b.toNat 1).CountInv := by
  refine h.addCount (by omega) (by decide) (by decide) ?_ (by omega)
  rwa [if_neg (by omega), State.eofReserve, if_pos he]

theorem execAll_count (str : List Byte) {s : State} (h : s.CountInv) (hp : s.phase = .fill) (he : s.freqAt 256 = 0#32)
    (hb : s.total.toNat + str.length + 1 ≤ Config.cmax s.width) :
    ∃ t, execAll (str.map .count) s = .next t ∧ s.Counted str t := by
  induction str generalizing s with
  | nil => exact ⟨s, rfl, h, hp, he, rfl, fun _ => rfl⟩
  | cons b rest ih =>
    rw [List.length_cons] at hb
    have hrest : s.total.toNat + 1 + rest.length + 1 ≤ Config.cmax s.width := by omega
    have hfit : s.total.toNat + 1 + 1 ≤ Config.cmax s.width := by omega
    have htot := h.toNat_total_addCount (sym := b.toNat) (c := 1) (by omega)
    obtain ⟨t, ht, hc⟩ := ih (h.addByte he b hfit) hp ((s.freqAt_addCount_ne 1 (by omega)).trans he)
      (htot ▸ hrest)
    refine ⟨t, ?_, hc.count, hc.fill, hc.eof, ?_, fun v => ?_⟩
    · rw [List.map_cons, execAll_cons (exec_count_of_fits hp b (by rwa [State.eofReserve, if_pos he])), ht]
    · rw [hc.total, htot, List.length_cons]
      omega
    · rw [hc.freq, List.count_cons]
      by_cases hv : b = v
      · subst hv
        rw [h.toNat_freqAt_addCount (by omega) (by omega), beq_self_eq_true, if_pos rfl]
        omega
      · rw [s.freqAt_addCount_ne 1 (fun hn => hv (BitVec.eq_of_toNat_eq hn.symm)), if_neg (by simpa using hv)]
        rfl

/-- With TOTAL at 0 every entry is absent. -/
theorem State.CountInv.freqAt_of_total_zero {s : State} (h : s.CountInv) (ht : s.total = 0#32) (k : Nat) :
    s.freqAt k = 0#32 := by
  have hle := h.freqAt_le_total k
  rw [ht] at hle
  exact BitVec.eq_of_toNat_eq (Nat.le_zero.mp hle)

/-- Settles O9: the bytes are counted one by one, and SEAL adds PSEUDO_EOF beside them. -/
theorem countsAreOccurrences : Obligations.CountsAreOccurrences := by
  intro s str h hp h0 hb
  have habs := h.freqAt_of_total_zero h0
  obtain ⟨t, ht, hc⟩ := execAll_count str h hp (habs 256) (by simpa [h0] using hb)
  have hfit := hc.count.eof_fits hc.eof
  refine ⟨(t.addCount 256 1).enter .table, ?_, fun v => ?_, ?_, ?_, rfl⟩
  · rw [execAll_append ht, execAll_cons (exec_sealTable_of_absent hc.fill hc.eof)]
    rfl
  · calc ((t.addCount 256 1).freqAt v.toNat).toNat
        = (t.freqAt v.toNat).toNat := by rw [t.freqAt_addCount_ne 1 (by omega)]
      _ = str.count v := by rw [hc.freq, habs]; exact Nat.zero_add _
  · exact hc.count.freqAt_addCount_absent (w := 1#32) (by omega) hfit hc.eof
  · calc (t.addCount 256 1).total.toNat
        = t.total.toNat + 1 := hc.count.toNat_total_addCount hfit
      _ = str.length + 1 := by rw [hc.total, h0]; simp

/-! ### The header of a table -/

theorem State.mem_header {s : State} {p : Symbol × Word} (h : p ∈ s.header) :
    p.1.toNat ≤ 256 ∧ p.2 = s.freqAt p.1.toNat ∧ p.2 ≠ 0#32 := by
  obtain ⟨k, hk, hp⟩ := List.mem_filterMap.mp h
  rw [List.mem_range] at hk
  rw [Option.ite_none_left_eq_some] at hp
  obtain ⟨hne, hp⟩ := hp
  cases hp
  have hn : (BitVec.ofNat 9 k).toNat = k := by rw [BitVec.toNat_ofNat, Nat.mod_eq_of_lt (by omega)]
  rw [hn]
  exact ⟨by omega, rfl, hne⟩

/-- Every entry of the table has its pair in the header. -/
theorem State.exists_mem_header (s : State) {k : Nat} (h : s.freqAt k ≠ 0#32) : ∃ p ∈ s.header, p.1.toNat = k := by
  have hk : k < 257 := by
    by_contra hge
    exact h (s.freqAt_of_ge (by omega))
  refine ⟨(BitVec.ofNat 9 k, s.freqAt k), List.mem_filterMap.mpr ⟨k, List.mem_range.mpr hk, if_neg h⟩, ?_⟩
  rw [BitVec.toNat_ofNat, Nat.mod_eq_of_lt (by omega)]

/-- No pair stands in the header twice: a pair names its symbol, and beyond symbol 256 there is none. -/
theorem State.nodup_header (s : State) : s.header.Nodup := by
  refine List.Nodup.filterMap (fun k k' p hk hk' => ?_) List.nodup_range
  rw [Option.mem_def, Option.ite_none_left_eq_some] at hk hk'
  have hlt : ∀ j, s.freqAt j ≠ 0#32 → j < 257 := fun j hj => by
    by_contra hge
    exact hj (s.freqAt_of_ge (by omega))
  have h := hlt k hk.1
  have h' := hlt k' hk'.1
  have heq := congrArg (fun q : Symbol × Word => q.1.toNat) (Option.some.inj (hk.2.trans hk'.2.symm))
  simp only [BitVec.toNat_ofNat] at heq
  omega

theorem State.toList_freq (s : State) : s.freq.toList = (List.range 257).map s.freqAt := by
  apply List.ext_getElem
  · simp
  · intro k hk _
    have hk : k < 257 := by simpa using hk
    simp [s.freqAt_eq_getElem hk]

/-- The header leaves out zeros only. -/
theorem State.sum_header (s : State) : (s.header.map fun p => p.2.toNat).sum = s.freqSum := by
  have hsum : ∀ l : List Nat, ((l.filterMap fun k =>
      if s.freqAt k = 0#32 then none else some ((BitVec.ofNat 9 k : Symbol), s.freqAt k)).map fun p => p.2.toNat).sum =
        ((l.map s.freqAt).map BitVec.toNat).sum := by
    intro l
    induction l with
    | nil => rfl
    | cons k rest ih => by_cases hk : s.freqAt k = 0#32 <;> simp [hk, ih]
  rw [State.freqSum, s.toList_freq]
  exact hsum _

/-! ### Loading a header -/

/-- On the way to the table of `s`, in FILL: the pairs `ps` of its header are still to be loaded, and every entry that is none
of theirs is as in `s` (R126). -/
structure State.Reloads (s : State) (ps : List (Symbol × Word)) (u : State) : Prop where
  count : u.CountInv
  fill : u.phase = .fill
  width : u.width = s.width
  nodup : ps.Nodup
  mem : ∀ p ∈ ps, p ∈ s.header
  absent : ∀ p ∈ ps, u.freqAt p.1.toNat = 0#32
  loaded : ∀ k, (∀ p ∈ ps, p.1.toNat ≠ k) → u.freqAt k = s.freqAt k
  total : u.total.toNat + (ps.map fun p => p.2.toNat).sum = s.total.toNat

/-- At the start of a session the whole header is still to be loaded, in any order. -/
theorem State.Reloads.start {s u : State} {ps : List (Symbol × Word)} (hs : s.CountInv) (hu : u.CountInv)
    (hp : u.phase = .fill) (h0 : u.total = 0#32) (hw : u.countWidth = s.countWidth) (hperm : ps.Perm s.header) :
    s.Reloads ps u where
  count := hu
  fill := hp
  width := by rw [State.width, hw]; rfl
  nodup := hperm.nodup_iff.mpr s.nodup_header
  mem _ := hperm.mem_iff.mp
  absent _ _ := hu.freqAt_of_total_zero h0 _
  loaded k hk := by
    rw [hu.freqAt_of_total_zero h0]
    by_contra hne
    obtain ⟨p, hp, hpk⟩ := s.exists_mem_header (Ne.symm hne)
    exact hk p (hperm.mem_iff.mpr hp) hpk
  total := by
    rw [(hperm.map _).sum_eq, s.sum_header, h0, hs.total]
    exact Nat.zero_add _

/-- The pair of a symbol is the only one to be loaded for it. -/
theorem State.Reloads.ne_of_mem_rest {s u : State} {p q : Symbol × Word} {rest : List (Symbol × Word)}
    (h : s.Reloads (p :: rest) u) (hq : q ∈ rest) : q.1.toNat ≠ p.1.toNat := by
  intro he
  obtain ⟨-, hp2, -⟩ := State.mem_header (h.mem p List.mem_cons_self)
  obtain ⟨-, hq2, -⟩ := State.mem_header (h.mem q (List.mem_cons_of_mem _ hq))
  have hpq : q = p := Prod.ext (BitVec.eq_of_toNat_eq he) (by rw [hq2, hp2, he])
  exact (List.nodup_cons.mp h.nodup).1 (hpq ▸ hq)

/-- While PSEUDO_EOF is absent its pair is still to come, and brings the room R124 keeps for it. -/
theorem State.Reloads.loadReserve_le {s u : State} {p : Symbol × Word} {rest : List (Symbol × Word)}
    (h : s.Reloads (p :: rest) u) (he : s.freqAt 256 = 1#32) :
    u.loadReserve p.1 ≤ (rest.map fun q => q.2.toNat).sum := by
  rw [u.loadReserve_eq]
  split
  · exact Nat.zero_le _
  · rename_i hne
    obtain ⟨hp, ha⟩ : p.1.toNat ≠ 256 ∧ u.freqAt 256 = 0#32 := by simpa using hne
    have hex : ∃ q ∈ p :: rest, q.1.toNat = 256 := by
      by_contra hno
      have hl := h.loaded 256 fun q hq hk => hno ⟨q, hq, hk⟩
      rw [ha, he] at hl
      exact absurd hl (by decide)
    obtain ⟨q, hq, hq1⟩ := hex
    obtain ⟨-, hq2, -⟩ := State.mem_header (h.mem q hq)
    rw [hq1, he] at hq2
    obtain rfl | hq := List.mem_cons.mp hq
    · exact absurd hq1 hp
    · exact List.le_sum_of_mem (List.mem_map.mpr ⟨q, hq, by rw [hq2]; rfl⟩)

/-- ARG and the bus's answer stand outside the table. -/
theorem State.Reloads.hostSide {s u : State} {ps : List (Symbol × Word)} (h : s.Reloads ps u) (arg : Word) (r : BusResponse) :
    s.Reloads ps { u with arg := arg, response := r } where
  count := h.count.of_eq rfl rfl rfl rfl
  fill := h.fill
  width := h.width
  nodup := h.nodup
  mem := h.mem
  absent := h.absent
  loaded := h.loaded
  total := h.total

/-- A pair of the header has a count, and PSEUDO_EOF's is 1. -/
theorem State.Reloads.pair_wf {s u : State} {p : Symbol × Word} {rest : List (Symbol × Word)}
    (he : s.freqAt 256 = 1#32) (h : s.Reloads (p :: rest) u) :
    p.1.toNat ≤ 256 ∧ p.2.toNat ≠ 0 ∧ (p.1.toNat = 256 → p.2.toNat = 1) := by
  obtain ⟨hle, hval, hne⟩ := State.mem_header (h.mem p List.mem_cons_self)
  exact ⟨hle, fun h0 => hne (BitVec.eq_of_toNat_eq h0), fun hk => by rw [hval, hk, he]; rfl⟩

/-- What is still to be loaded fits, since the whole table does. -/
theorem State.Reloads.fits {s u : State} {p : Symbol × Word} {rest : List (Symbol × Word)} (hs : s.CountInv)
    (he : s.freqAt 256 = 1#32) (h : s.Reloads (p :: rest) u) :
    u.total.toNat + p.2.toNat + u.loadReserve p.1 ≤ Config.cmax u.width := by
  have htot := h.total
  have hres := h.loadReserve_le he
  have hbound := hs.bound
  rw [List.map_cons, List.sum_cons] at htot
  rw [h.width]
  omega

/-- Loading a pair leaves the others still to be loaded. -/
theorem State.Reloads.addCount {s u : State} {p : Symbol × Word} {rest : List (Symbol × Word)} (hs : s.CountInv)
    (he : s.freqAt 256 = 1#32) (h : s.Reloads (p :: rest) u) : s.Reloads rest (u.addCount p.1.toNat p.2.toNat) := by
  obtain ⟨h256, hc, heof⟩ := h.pair_wf he
  obtain ⟨-, hval, -⟩ := State.mem_header (h.mem p List.mem_cons_self)
  have habs := h.absent p List.mem_cons_self
  have hres := h.fits hs he
  have hfit : u.total.toNat + p.2.toNat ≤ Config.cmax u.width := by omega
  refine ⟨h.count.addCount h256 (Nat.pos_of_ne_zero hc) p.2.isLt hres fun hk => ⟨heof hk, hk ▸ habs⟩, h.fill, h.width,
    h.nodup.of_cons, fun q hq => h.mem q (List.mem_cons_of_mem _ hq), fun q hq => ?_, fun k hk => ?_, ?_⟩
  · rw [u.freqAt_addCount_ne _ (h.ne_of_mem_rest hq)]
    exact h.absent q (List.mem_cons_of_mem _ hq)
  · by_cases hkp : k = p.1.toNat
    · rw [hkp, h.count.freqAt_addCount_absent h256 hfit habs, hval]
    · rw [u.freqAt_addCount_ne _ hkp]
      exact h.loaded k (List.forall_mem_cons.mpr ⟨Ne.symm hkp, hk⟩)
  · rw [h.count.toNat_total_addCount hfit, ← h.total, List.map_cons, List.sum_cons, Nat.add_assoc]

/-- One pair's ARG write and LOAD_FREQ put its entry into the table. -/
theorem State.Reloads.load {s u : State} {p : Symbol × Word} {rest : List (Symbol × Word)} (hs : s.CountInv)
    (he : s.freqAt 256 = 1#32) (h : s.Reloads (p :: rest) u) :
    ∃ v, s.Reloads rest v ∧ ∀ tail, accessAll (loadF p.1 p.2 ++ tail) u = accessAll tail v := by
  have hw := h.hostSide p.2 .writeDone
  obtain ⟨h256, hc, heof⟩ := hw.pair_wf he
  have hexec := exec_loadFreq_of_fits hw.fill h256 hc heof (hw.absent p List.mem_cons_self) (hw.fits hs he)
  refine ⟨_, hw.addCount hs he, fun tail => ?_⟩
  rw [loadF, List.cons_append, accessAll_cons (access_writeReg_arg _ _), List.cons_append, List.nil_append,
    accessAll_cons ((access_issue _ _).trans hexec)]

theorem accessAll_header {s u : State} {ps : List (Symbol × Word)} (hs : s.CountInv) (he : s.freqAt 256 = 1#32)
    (h : s.Reloads ps u) (tail : List BusAccess) :
    ∃ v, s.Reloads [] v ∧ accessAll (ps.flatMap (fun p => loadF p.1 p.2) ++ tail) u = accessAll tail v := by
  induction ps generalizing u with
  | nil => exact ⟨u, h, rfl⟩
  | cons p rest ih =>
    obtain ⟨v, hv, hload⟩ := h.load hs he
    obtain ⟨w, hw, hrest⟩ := ih hv
    exact ⟨w, hw, by rw [List.flatMap_cons, List.append_assoc, hload, hrest]⟩

/-- With nothing left to load the table is the one of `s`. -/
theorem State.Reloads.freq_eq {s v : State} (h : s.Reloads [] v) : v.freq = s.freq := by
  refine Vector.ext fun k hk => ?_
  rw [← v.freqAt_eq_getElem hk, ← s.freqAt_eq_getElem hk]
  exact h.loaded k (by simp)

/-- TOTAL and NSYM follow from the table. -/
theorem State.CountInv.counters_eq {s v : State} (hs : s.CountInv) (hv : v.CountInv) (h : v.freq = s.freq) :
    v.total = s.total ∧ v.nsym = s.nsym :=
  ⟨BitVec.eq_of_toNat_eq (by rw [hv.total, hs.total, State.freqSum, h]; rfl),
    BitVec.eq_of_toNat_eq (by rw [hv.nsym, hs.nsym, State.freqCount, h]; rfl)⟩

/-- Settles O10: the pairs are loaded one by one, each entry once; PSEUDO_EOF is among them, so SEAL adds nothing. -/
theorem headerReloadsInAnyOrder : Obligations.HeaderReloadsInAnyOrder := by
  intro s u pairs hs hnf hne hu hp h0 hw hperm
  have he := hs.sealed hnf hne
  obtain ⟨v, hv, hrun⟩ := accessAll_header hs.count he (.start hs.count hu.count hp h0 hw hperm) [issue .sealTable]
  have hfreq := hv.freq_eq
  have heof : v.freqAt 256 ≠ 0#32 := by rw [hv.loaded 256 (by simp), he]; decide
  obtain ⟨htot, hnsym⟩ := hs.count.counters_eq hv.count hfreq
  refine ⟨(v.respond .writeDone).enter .table, ?_, hfreq, htot, hnsym, rfl⟩
  rw [hrun, accessAll_cons ((access_issue _ _).trans (exec_sealTable_of_present hv.fill heof))]
  rfl

end Sys2Proof.Machine
end

section
/-! The merge loop of BUILD_TREE (spec/42_tree_builder.md R142, R144): what every node it makes is, the invariant its arena and
queue keep, and what follows of the arena it ends with. -/

namespace Sys2Proof.Machine

/-! ### Nodes behind an arena -/

section
variable {nodes l : List Node} {i j k : Nat}

theorem nodeAt_append_of_lt (h : i < nodes.length) : nodeAt (nodes ++ l) i = nodeAt nodes i := by
  rw [nodeAt, nodeAt, List.getElem?_append_left h]

theorem nodeAt_append_length (nd : Node) : nodeAt (nodes ++ [nd]) nodes.length = nd := by
  simp [nodeAt]

theorem nodeAt_eq_getElem (h : i < nodes.length) : nodeAt nodes i = nodes[i] := by
  simp [nodeAt, h]

theorem nodeAt_of_length_le (h : nodes.length ≤ i) : nodeAt nodes i = freeNode := by
  simp [nodeAt, h]

theorem isChildOf_append (h : k < nodes.length) : isChildOf (nodes ++ l) i k ↔ isChildOf nodes i k := by
  rw [isChildOf, isChildOf, nodeAt_append_of_lt h]

theorem precedes_append (hi : i < nodes.length) (hj : j < nodes.length) :
    precedes (nodes ++ l) i j ↔ precedes nodes i j := by
  rw [precedes, precedes, nodeAt_append_of_lt hi, nodeAt_append_of_lt hj]

theorem not_isChildOf_of_leaf (h : (nodeAt nodes k).kind = .leaf) : ¬ isChildOf nodes i k := by
  rintro ⟨hk, -⟩
  rw [h] at hk
  cases hk

/-- The first step of a walk goes to a child. -/
theorem exists_child_of_descend {t : Bool} {rest : List Bool} {c d : NodeIndex}
    (h : descend nodes (t :: rest) c = some d) :
    ∃ e : NodeIndex, isChildOf nodes e.toNat c.toNat ∧ descend nodes rest e = some d := by
  cases hk : (nodeAt nodes c.toNat).kind with
  | leaf => simp [descend, hk] at h
  | internal =>
    rw [descend] at h
    simp only [hk] at h
    have hrest := (Option.ite_none_left_eq_some.mp h).2
    cases t
    · exact ⟨_, ⟨hk, .inl rfl⟩, hrest⟩
    · exact ⟨_, ⟨hk, .inr rfl⟩, hrest⟩

/-! ### Merges -/

/-- Node `i` is still in Q when node `k` is made: it stands before `k`, and no node before `k` has it as a child. -/
def Untaken (nodes : List Node) (k i : Nat) : Prop := i < k ∧ ∀ j, j < k → ¬ isChildOf nodes i j

theorem untaken_append (h : k ≤ nodes.length) : Untaken (nodes ++ l) k i ↔ Untaken nodes k i :=
  and_congr_right fun _ => forall₂_congr fun _ hj => not_congr (isChildOf_append (by omega))

/-- Node `k` is the merge of `a` and `b`, the two least nodes still in Q (R142, R144). -/
structure IsMerge (nodes : List Node) (k a b : Nat) : Prop where
  kind : (nodeAt nodes k).kind = .internal
  sym : (nodeAt nodes k).sym = Config.internalSym
  zero : (nodeAt nodes k).zero.toNat = a
  one : (nodeAt nodes k).one.toNat = b
  count : (nodeAt nodes k).count.toNat = (nodeAt nodes a).count.toNat + (nodeAt nodes b).count.toNat
  zero_untaken : Untaken nodes k a
  one_untaken : Untaken nodes k b
  ne : a ≠ b
  zero_precedes : ∀ i, Untaken nodes k i → i ≠ a → precedes nodes a i
  one_precedes : ∀ i, Untaken nodes k i → i ≠ a → i ≠ b → precedes nodes b i

theorem IsMerge.isChildOf_iff {a b : Nat} (m : IsMerge nodes k a b) : isChildOf nodes i k ↔ i = a ∨ i = b := by
  simp only [isChildOf, m.kind, m.zero, m.one, true_and, eq_comm]

theorem IsMerge.untaken_child {a b : Nat} (m : IsMerge nodes k a b) (h : isChildOf nodes i k) : Untaken nodes k i := by
  obtain rfl | rfl := m.isChildOf_iff.mp h
  · exact m.zero_untaken
  · exact m.one_untaken

/-- A merge speaks of the nodes up to its own only, so it stays one in a longer arena. -/
theorem IsMerge.append {a b : Nat} (m : IsMerge nodes k a b) (hk : k < nodes.length) : IsMerge (nodes ++ l) k a b := by
  have hu : ∀ {i}, Untaken (nodes ++ l) k i ↔ Untaken nodes k i := untaken_append hk.le
  have lt : ∀ {i}, Untaken nodes k i → i < nodes.length := fun h => h.1.trans hk
  have ha := lt m.zero_untaken
  have hb := lt m.one_untaken
  have hnode := nodeAt_append_of_lt (l := l) hk
  exact
    { kind := hnode ▸ m.kind
      sym := hnode ▸ m.sym
      zero := hnode ▸ m.zero
      one := hnode ▸ m.one
      count := by rw [hnode, nodeAt_append_of_lt ha, nodeAt_append_of_lt hb, m.count]
      zero_untaken := hu.mpr m.zero_untaken
      one_untaken := hu.mpr m.one_untaken
      ne := m.ne
      zero_precedes := fun i hi hia =>
        (precedes_append ha (lt (hu.mp hi))).mpr (m.zero_precedes i (hu.mp hi) hia)
      one_precedes := fun i hi hia hib =>
        (precedes_append hb (lt (hu.mp hi))).mpr (m.one_precedes i (hu.mp hi) hia hib) }

end

/-- The two elements a merge takes from Q. -/
structure TwoLeast (nodes : List Node) (q : List Nat) (a b : Nat) : Prop where
  first_mem : a ∈ q
  second_mem : b ∈ q.erase a
  first_precedes : ∀ i ∈ q, i ≠ a → precedes nodes a i
  second_precedes : ∀ i ∈ q.erase a, i ≠ b → precedes nodes b i

theorem toCount_width {w w' c : Nat} (hw : w ≤ 32) (hw' : w' ≤ 32) (hc : c ≤ Config.cmax w) (hc' : c ≤ Config.cmax w') :
    toCount w c = toCount w' c :=
  BitVec.eq_of_toNat_eq ((toCount_toNat hw hc).trans (toCount_toNat hw' hc').symm)

/-- One merge, whatever COUNT_WIDTH is: which two elements it takes does not depend on it. -/
theorem exists_twoLeast {nodes : List Node} {q : List Nat} (h : 2 ≤ q.length) :
    ∃ a b, TwoLeast nodes q a b ∧ ∀ w fuel, mergeLoop w (fuel + 1) nodes q =
      mergeLoop w fuel (nodes ++ [mergedNode w nodes a b]) ((q.erase a).erase b ++ [nodes.length]) := by
  obtain ⟨a, ha, haq, hamin⟩ := takeLeast_spec (nodes := nodes) (q := q) (by rintro rfl; simp at h)
  have hl := List.length_erase_of_mem haq
  obtain ⟨b, hb, hbq, hbmin⟩ := takeLeast_spec (nodes := nodes) (q := q.erase a) (by
    intro he; rw [he, List.length_nil] at hl; omega)
  exact ⟨a, b, ⟨haq, hbq, hamin, hbmin⟩, fun w fuel => by rw [mergeLoop]; simp only [ha, hb]⟩

/-! ### The loop's invariant -/

/-- The counts of the nodes in Q, added up. -/
def queueWeight (nodes : List Node) (q : List Nat) : Nat := (q.map fun i => (nodeAt nodes i).count.toNat).sum

theorem queueWeight_append_nodes {nodes l : List Node} {q : List Nat} (h : ∀ i ∈ q, i < nodes.length) :
    queueWeight (nodes ++ l) q = queueWeight nodes q :=
  congrArg List.sum (List.map_congr_left fun i hi => by rw [nodeAt_append_of_lt (h i hi)])

/-- With every node in Q the counts of the whole arena are added up. -/
theorem queueWeight_range (nodes : List Node) :
    queueWeight nodes (List.range nodes.length) = (nodes.map fun nd => nd.count.toNat).sum := by
  refine congrArg List.sum (List.ext_getElem (by simp) fun k hk hk' => ?_)
  rw [List.length_map] at hk'
  rw [List.getElem_map, List.getElem_map, List.getElem_range, nodeAt_eq_getElem hk']

theorem queueWeight_erase {nodes : List Node} {q : List Nat} {i : Nat} (h : i ∈ q) :
    (nodeAt nodes i).count.toNat + queueWeight nodes (q.erase i) = queueWeight nodes q :=
  List.sum_map_erase (fun i => (nodeAt nodes i).count.toNat) h

theorem TwoLeast.queueWeight_eq {nodes : List Node} {q : List Nat} {a b : Nat} (h : TwoLeast nodes q a b) :
    (nodeAt nodes a).count.toNat + (nodeAt nodes b).count.toNat + queueWeight nodes ((q.erase a).erase b) =
      queueWeight nodes q := by
  rw [Nat.add_assoc, queueWeight_erase h.second_mem, queueWeight_erase h.first_mem]

/-- The invariant of the merge loop over a table of `n` entries with TOTAL `T`: the first `n` nodes are leaves, every later one
is a merge, Q holds the nodes not yet taken, and their counts add up to TOTAL. -/
structure Merging (n T : Nat) (nodes : List Node) (q : List Nat) : Prop where
  size : n ≤ 257
  leaves_le : n ≤ nodes.length
  length : nodes.length + q.length = 2 * n
  leaf : ∀ k, k < n → (nodeAt nodes k).kind = .leaf
  merge : ∀ k, n ≤ k → k < nodes.length → ∃ a b, IsMerge nodes k a b
  nodup : q.Nodup
  mem_iff : ∀ i, i ∈ q ↔ Untaken nodes nodes.length i
  weight : queueWeight nodes q = T

section
variable {n T w w' a b : Nat} {nodes : List Node} {q : List Nat}

theorem Merging.mem_rest_iff (h : Merging n T nodes q) {i : Nat} :
    i ∈ (q.erase a).erase b ↔ i ≠ b ∧ i ≠ a ∧ Untaken nodes nodes.length i := by
  rw [(h.nodup.erase a).mem_erase_iff, h.nodup.mem_erase_iff, h.mem_iff]

theorem Merging.isMerge_of_child (h : Merging n T nodes q) {i k : Nat} (hk : k < nodes.length) (hc : isChildOf nodes i k) :
    ∃ a b, IsMerge nodes k a b := by
  by_cases hn : k < n
  · exact absurd hc (not_isChildOf_of_leaf (h.leaf k hn))
  · exact h.merge k (by omega) hk

/-- A node's children were untaken when it was made; so they stand before it. -/
theorem Merging.untaken_child (h : Merging n T nodes q) {i k : Nat} (hk : k < nodes.length) (hc : isChildOf nodes i k) :
    Untaken nodes k i := by
  obtain ⟨a, b, m⟩ := h.isMerge_of_child hk hc
  exact m.untaken_child hc

/-- The last node made has no parent yet. -/
theorem Merging.untaken_length (h : Merging n T nodes q) (nd : Node) {j : Nat} (hj : j < nodes.length) :
    ¬ isChildOf (nodes ++ [nd]) nodes.length j := fun hc =>
  absurd (h.untaken_child hj ((isChildOf_append hj).mp hc)).1 (by omega)

/-- The node a merge makes, where its count fits COUNT_WIDTH. -/
theorem Merging.isMerge (h : Merging n T nodes q) (t : TwoLeast nodes q a b) (hw : w ≤ 32) (hT : T ≤ Config.cmax w) :
    IsMerge (nodes ++ [mergedNode w nodes a b]) nodes.length a b := by
  have hmem : ∀ i, i ∈ q ↔ Untaken (nodes ++ [mergedNode w nodes a b]) nodes.length i := fun i =>
    (h.mem_iff i).trans (untaken_append le_rfl).symm
  have hbq := h.nodup.mem_erase_iff.mp t.second_mem
  have ha := ((h.mem_iff a).mp t.first_mem).1
  have hb := ((h.mem_iff b).mp hbq.2).1
  have hlen := h.length
  have hsize := h.size
  have hweight := t.queueWeight_eq
  rw [h.weight] at hweight
  exact
    { kind := by rw [nodeAt_append_length]; rfl
      sym := by rw [nodeAt_append_length]; rfl
      zero := by rw [nodeAt_append_length, mergedNode, BitVec.toNat_ofNat, Nat.mod_eq_of_lt (by omega)]
      one := by rw [nodeAt_append_length, mergedNode, BitVec.toNat_ofNat, Nat.mod_eq_of_lt (by omega)]
      count := by
        rw [nodeAt_append_length, nodeAt_append_of_lt ha, nodeAt_append_of_lt hb, mergedNode, toCount_toNat hw (by omega)]
      zero_untaken := (hmem a).mp t.first_mem
      one_untaken := (hmem b).mp hbq.2
      ne := hbq.1.symm
      zero_precedes := fun i hi hia => (precedes_append ha hi.1).mpr (t.first_precedes i ((hmem i).mpr hi) hia)
      one_precedes := fun i hi hia hib =>
        (precedes_append hb hi.1).mpr (t.second_precedes i (h.nodup.mem_erase_iff.mpr ⟨hia, (hmem i).mpr hi⟩) hib) }

/-- Q after a merge: its node enters, the two it took have left. -/
theorem Merging.mem_iff_step (h : Merging n T nodes q) {nd : Node} (m : IsMerge (nodes ++ [nd]) nodes.length a b) (i : Nat) :
    i ∈ (q.erase a).erase b ++ [nodes.length] ↔ Untaken (nodes ++ [nd]) (nodes.length + 1) i := by
  have hlast : Untaken (nodes ++ [nd]) (nodes.length + 1) i ↔
      i < nodes.length + 1 ∧ (∀ j, j < nodes.length → ¬ isChildOf (nodes ++ [nd]) i j) ∧ ¬ (i = a ∨ i = b) := by
    rw [Untaken, ← m.isChildOf_iff, Nat.forall_lt_succ_right]
  rw [hlast, List.mem_append, List.mem_singleton, h.mem_rest_iff, ← untaken_append (l := [nd]) le_rfl, Untaken]
  by_cases hi : i = nodes.length
  · subst hi
    have ha := m.zero_untaken.1
    have hb := m.one_untaken.1
    simp only [or_true, true_iff]
    exact ⟨by omega, fun j => h.untaken_length nd, by omega⟩
  · simp only [hi, or_false, not_or, Nat.lt_succ_iff_lt_or_eq]
    tauto

/-- A merge keeps the invariant. -/
theorem Merging.step (h : Merging n T nodes q) (t : TwoLeast nodes q a b) (hw : w ≤ 32) (hT : T ≤ Config.cmax w) :
    Merging n T (nodes ++ [mergedNode w nodes a b]) ((q.erase a).erase b ++ [nodes.length]) := by
  have m := h.isMerge t hw hT
  have hlen := h.length
  have hea := List.length_erase_add_one t.first_mem
  have heb := List.length_erase_add_one t.second_mem
  have hrest : ∀ i ∈ (q.erase a).erase b, i < nodes.length := fun i hi => (h.mem_rest_iff.mp hi).2.2.1
  have hle := h.leaves_le
  refine ⟨h.size, ?_, ?_, fun k hk => ?_, fun k hnk hk => ?_, ?_, ?_, ?_⟩
  · rw [List.length_append]
    omega
  · simp only [List.length_append, List.length_singleton]
    omega
  · rw [nodeAt_append_of_lt (by omega)]
    exact h.leaf k hk
  · obtain hk | rfl : k < nodes.length ∨ k = nodes.length := by
      rw [List.length_append, List.length_singleton] at hk
      omega
    · obtain ⟨c, d, mk⟩ := h.merge k hnk hk
      exact ⟨c, d, mk.append hk⟩
    · exact ⟨a, b, m⟩
  · exact List.nodup_append'.mpr ⟨(h.nodup.erase a).erase b, List.nodup_singleton _,
      List.disjoint_singleton.mpr fun hmem => absurd (hrest _ hmem) (lt_irrefl _)⟩
  · rw [List.length_append, List.length_singleton]
    exact h.mem_iff_step m
  · have hweight := t.queueWeight_eq
    rw [queueWeight, List.map_append, List.sum_append, ← queueWeight, queueWeight_append_nodes hrest, List.map_singleton,
      List.sum_singleton, m.count, nodeAt_append_of_lt m.zero_untaken.1, nodeAt_append_of_lt m.one_untaken.1]
    rw [h.weight] at hweight
    omega

/-- The loop ends with one element in Q. -/
theorem Merging.loop {fuel : Nat} (h : Merging n T nodes q) (hw : w ≤ 32) (hT : T ≤ Config.cmax w) (hq : 1 ≤ q.length)
    (hf : q.length ≤ fuel + 1) : ∃ r, Merging n T (mergeLoop w fuel nodes q) [r] := by
  induction fuel generalizing nodes q with
  | zero =>
    obtain ⟨r, rfl⟩ := List.length_eq_one_iff.mp (le_antisymm hf hq)
    exact ⟨r, h⟩
  | succ fuel ih =>
    by_cases h2 : 2 ≤ q.length
    · obtain ⟨a, b, t, he⟩ := exists_twoLeast (nodes := nodes) h2
      have hea := List.length_erase_add_one t.first_mem
      have heb := List.length_erase_add_one t.second_mem
      rw [he]
      exact ih (h.step t hw hT) (by simp) (by rw [List.length_append, List.length_singleton]; omega)
    · rw [mergeLoop_end (by omega)]
      obtain ⟨r, rfl⟩ := List.length_eq_one_iff.mp (by omega : q.length = 1)
      exact ⟨r, h⟩

/-- The loop makes the same arena for every COUNT_WIDTH that TOTAL fits. -/
theorem Merging.loop_width (fuel : Nat) (h : Merging n T nodes q) (hw : w ≤ 32) (hT : T ≤ Config.cmax w) (hw' : w' ≤ 32)
    (hT' : T ≤ Config.cmax w') : mergeLoop w fuel nodes q = mergeLoop w' fuel nodes q := by
  induction fuel generalizing nodes q with
  | zero => rfl
  | succ fuel ih =>
    by_cases h2 : 2 ≤ q.length
    · obtain ⟨a, b, t, he⟩ := exists_twoLeast (nodes := nodes) h2
      have hweight := t.queueWeight_eq
      rw [h.weight] at hweight
      have hnode : mergedNode w nodes a b = mergedNode w' nodes a b := by
        rw [mergedNode, mergedNode, toCount_width hw hw' (by omega) (by omega)]
      rw [he, he, hnode]
      exact ih (hnode ▸ h.step t hw hT)
    · rw [mergeLoop_end (by omega), mergeLoop_end (by omega)]

end

/-! ### The arena the loop ends with -/

section
variable {n T r : Nat} {nodes : List Node} (h : Merging n T nodes [r])
include h

theorem Merging.length_eq : nodes.length + 1 = 2 * n := h.length

/-- The element left in Q is the last node (R140). -/
theorem Merging.last_eq : r + 1 = nodes.length := by
  have hlen := h.length_eq
  have hlast : nodes.length - 1 ∈ [r] := (h.mem_iff _).mpr
    ⟨by omega, fun j hj hc => absurd (h.untaken_child hj hc).1 (by omega)⟩
  rw [List.mem_singleton] at hlast
  omega

theorem Merging.kind_eq_internal_iff {k : Nat} : (nodeAt nodes k).kind = .internal ↔ n ≤ k ∧ k < nodes.length := by
  constructor
  · intro hk
    refine ⟨?_, ?_⟩ <;> by_contra hc
    · rw [h.leaf k (by omega)] at hk
      cases hk
    · rw [nodeAt_of_length_le (by omega)] at hk
      cases hk
  · rintro ⟨hnk, hk⟩
    obtain ⟨a, b, m⟩ := h.merge k hnk hk
    exact m.kind

theorem Merging.child_lt {i k : Nat} (hc : isChildOf nodes i k) : i < k :=
  (h.untaken_child (h.kind_eq_internal_iff.mp hc.1).2 hc).1

/-- Every node but the last has a parent; only one, since a later merge takes no node that was taken before (R146 (d)). -/
theorem Merging.exists_parent {i : Nat} (hi : i < nodes.length) (hr : i ≠ r) :
    ∃ k, i < k ∧ k < nodes.length ∧ isChildOf nodes i k ∧ ∀ j, j < nodes.length → isChildOf nodes i j → j = k := by
  have hnot : ¬ Untaken nodes nodes.length i := fun hu => hr (List.mem_singleton.mp ((h.mem_iff i).mpr hu))
  obtain ⟨k, hk, hc⟩ : ∃ k, k < nodes.length ∧ isChildOf nodes i k := by
    by_contra hno
    exact hnot ⟨hi, fun j hj hc => hno ⟨j, hj, hc⟩⟩
  refine ⟨k, h.child_lt hc, hk, hc, fun j hj hcj => ?_⟩
  obtain hlt | heq | hgt := lt_trichotomy j k
  · exact absurd hcj ((h.untaken_child hk hc).2 j hlt)
  · exact heq
  · exact absurd hc ((h.untaken_child hj hcj).2 k hgt)

theorem Merging.not_isChildOf_last {k : Nat} (hk : k < nodes.length) : ¬ isChildOf nodes r k :=
  ((h.mem_iff r).mp List.mem_cons_self).2 k hk

theorem Merging.zero_ne_one {k : Nat} (hk : (nodeAt nodes k).kind = .internal) :
    (nodeAt nodes k).zero ≠ (nodeAt nodes k).one := by
  obtain ⟨hnk, hlt⟩ := h.kind_eq_internal_iff.mp hk
  obtain ⟨a, b, m⟩ := h.merge k hnk hlt
  intro heq
  exact m.ne (by rw [← m.zero, ← m.one, heq])

theorem Merging.count_last : (nodeAt nodes r).count.toNat = T := by
  simpa [queueWeight] using h.weight

theorem Merging.count_child_le {i k : Nat} (hc : isChildOf nodes i k) :
    (nodeAt nodes i).count.toNat ≤ (nodeAt nodes k).count.toNat := by
  obtain ⟨a, b, m⟩ := h.isMerge_of_child (h.kind_eq_internal_iff.mp hc.1).2 hc
  obtain rfl | rfl := m.isChildOf_iff.mp hc <;> rw [m.count] <;> omega

/-- Up the parents to the last node the counts do not fall. -/
theorem Merging.count_le {i : Nat} (hi : i < nodes.length) : (nodeAt nodes i).count.toNat ≤ T := by
  by_cases hr : i = r
  · rw [hr, h.count_last]
  · obtain ⟨k, hik, hk, hc, -⟩ := h.exists_parent hi hr
    exact (h.count_child_le hc).trans (Merging.count_le hk)
termination_by nodes.length - i

/-- Every step down goes to a lower index, and above a leaf there are internal nodes only (R146 (f)). -/
theorem Merging.descend_length_le {path : List Bool} {i j : NodeIndex} (hd : descend nodes path i = some j) :
    path.length ≤ i.toNat + 1 - n := by
  induction path generalizing i with
  | nil => exact Nat.zero_le _
  | cons t rest ih =>
    obtain ⟨c, hc, hrest⟩ := exists_child_of_descend hd
    have hn := (h.kind_eq_internal_iff.mp hc.1).1
    have hlt := h.child_lt hc
    have hle := ih hrest
    rw [List.length_cons]
    omega

end
end Sys2Proof.Machine
end

section
/-! BUILD_TREE (spec/42_tree_builder.md R140 to R147): the leaves it starts from, the arena it makes of a table of one entry and
of several, and what the host finds after it. -/

namespace Sys2Proof.Machine

/-! ### The leaves -/

theorem leavesFrom_eq_map (l : List (BitVec 32)) (sym : Nat) :
    leavesFrom l sym = ((List.range l.length).filter fun k => l[k]?.getD 0#32 != 0#32).map
      fun k => leafNode (sym + k) (l[k]?.getD 0#32) := by
  induction l generalizing sym with
  | nil => rfl
  | cons c rest ih =>
    have hrest : (((List.range rest.length).map Nat.succ).filter fun k => (c :: rest)[k]?.getD 0#32 != 0#32).map
        (fun k => leafNode (sym + k) ((c :: rest)[k]?.getD 0#32)) = leavesFrom rest (sym + 1) := by
      rw [ih, List.filter_map, List.map_map]
      simp [Function.comp_def, Nat.add_assoc, Nat.add_comm 1]
    rw [List.length_cons, List.range_succ_eq_map, leavesFrom]
    split
    · next hc => rw [List.filter_cons_of_neg (by simp [hc]), hrest]
    · next hc => rw [List.filter_cons_of_pos (by simp [hc]), List.map_cons, hrest]; rfl

theorem sum_count_leavesFrom (l : List (BitVec 32)) (sym : Nat) :
    ((leavesFrom l sym).map fun nd => nd.count.toNat).sum = (l.map BitVec.toNat).sum := by
  induction l generalizing sym with
  | nil => rfl
  | cons c rest ih =>
    rw [leavesFrom]
    split
    · next hc => rw [ih, List.map_cons, List.sum_cons, hc, BitVec.toNat_ofNat, Nat.zero_mod, Nat.zero_add]
    · rw [List.map_cons, List.sum_cons, ih, List.map_cons, List.sum_cons]; rfl

/-- The leaves BUILD_TREE allocates first (R141). -/
theorem State.leaves_eq_map (s : State) : leavesFrom s.freq.toList 0 =
    ((List.range 257).filter fun sym => s.freqAt sym != 0#32).map fun sym => leafNode sym (s.freqAt sym) := by
  simp [leavesFrom_eq_map, State.freqAt]

theorem State.CountInv.length_leaves {s : State} (h : s.CountInv) : (leavesFrom s.freq.toList 0).length = s.nsym.toNat :=
  s.length_leaves.trans h.nsym.symm

/-- Only leaves stand in that arena; an entry behind it reads as a leaf too. -/
theorem kind_nodeAt_leavesFrom (l : List (BitVec 32)) (sym k : Nat) : (nodeAt (leavesFrom l sym) k).kind = .leaf := by
  by_cases hk : k < (leavesFrom l sym).length
  · obtain ⟨j, _, -, he⟩ := mem_leavesFrom.mp (List.getElem_mem hk)
    rw [nodeAt_eq_getElem hk, he]
    rfl
  · rw [nodeAt_of_length_le (by omega)]
    rfl

/-- The leaves with all of them in Q are where the merge loop starts. -/
theorem State.CountInv.merging_leaves {s : State} (h : s.CountInv) :
    Merging s.nsym.toNat s.total.toNat (leavesFrom s.freq.toList 0)
      (List.range (leavesFrom s.freq.toList 0).length) := by
  have hlen := h.length_leaves
  exact
    { size := h.nsym ▸ s.freqCount_le
      leaves_le := hlen.ge
      length := by rw [List.length_range]; omega
      leaf := fun k _ => kind_nodeAt_leavesFrom _ _ k
      merge := fun k hnk hk => by omega
      nodup := List.nodup_range
      mem_iff := fun i => List.mem_range.trans
        (and_iff_left fun j _ => not_isChildOf_of_leaf (kind_nodeAt_leavesFrom _ _ j)).symm
      weight := by rw [queueWeight_range, sum_count_leavesFrom, h.total, State.freqSum] }

/-! ### The arena -/

section
variable {w : Nat} {freq : Vector (BitVec 32) 257}

/-- One entry: the leaf and the synthetic root over it (R145). -/
theorem buildArena_of_single {leaf : Node} (h : leavesFrom freq.toList 0 = [leaf]) :
    buildArena w freq = [leaf, syntheticRoot leaf] := by
  rw [buildArena, h]

/-- Otherwise the merge loop runs from the leaves (R142). -/
theorem buildArena_of_ne_one (h : (leavesFrom freq.toList 0).length ≠ 1) : buildArena w freq =
    mergeLoop w (leavesFrom freq.toList 0).length (leavesFrom freq.toList 0)
      (List.range (leavesFrom freq.toList 0).length) := by
  rw [buildArena]
  split
  · next leaf hl => rw [hl] at h; exact absurd rfl h
  · rfl

/-- The arena begins with the leaves. -/
theorem leaves_prefix_buildArena : leavesFrom freq.toList 0 <+: buildArena w freq := by
  by_cases h : (leavesFrom freq.toList 0).length = 1
  · obtain ⟨leaf, hl⟩ := List.length_eq_one_iff.mp h
    rw [buildArena_of_single hl, hl]
    exact ⟨[syntheticRoot leaf], rfl⟩
  · rw [buildArena_of_ne_one h]
    exact prefix_mergeLoop _ _ _ _

end

/-- ROOT is the last node's index. -/
theorem toNat_arenaRoot {nodes : List Node} {r : Nat} (hr : r + 1 = nodes.length) (hlt : r < 1024) :
    (arenaRoot nodes).toNat = r := by
  rw [arenaRoot, ← hr]
  bv_omega

section
variable {s : State} (h : s.CountInv)
include h

theorem State.CountInv.total_le_cmax : s.total.toNat ≤ Config.cmax s.width :=
  (Nat.le_add_right _ _).trans h.bound

/-- The arena of a table of one entry. -/
theorem State.CountInv.arena_of_single (h1 : s.nsym.toNat = 1) : ∃ sym,
    buildArena s.width s.freq = [leafNode sym s.total, syntheticRoot (leafNode sym s.total)] := by
  obtain ⟨leaf, hl⟩ := List.length_eq_one_iff.mp (h.length_leaves.trans h1)
  obtain ⟨sym, hsym, -, rfl⟩ := mem_leavesFrom.mp (hl ▸ List.mem_singleton_self leaf)
  have hsum := sum_count_leavesFrom s.freq.toList 0
  rw [hl, List.map_singleton, List.sum_singleton] at hsum
  have htotal : s.freq.toList[sym] = s.total := BitVec.eq_of_toNat_eq (hsum.trans h.total.symm)
  exact ⟨0 + sym, by rw [buildArena_of_single hl, htotal]⟩

/-- The arena of a table of several entries: the merge loop has ended, ROOT is the element left in Q. -/
theorem State.CountInv.merging_arena (h2 : 2 ≤ s.nsym.toNat) :
    Merging s.nsym.toNat s.total.toNat (buildArena s.width s.freq) [(arenaRoot (buildArena s.width s.freq)).toNat] := by
  have hlen := h.length_leaves
  obtain ⟨r, hr⟩ := h.merging_leaves.loop (fuel := (leavesFrom s.freq.toList 0).length) h.width.2 h.total_le_cmax
    (by rw [List.length_range]; omega) (by rw [List.length_range]; omega)
  rw [← buildArena_of_ne_one (by omega)] at hr
  have hsize := hr.size
  have harena := hr.length_eq
  have hlast := hr.last_eq
  rwa [toNat_arenaRoot hlast (by omega)]

end

/-! ### The command -/

section
variable {s t : State} (hp : s.phase = .table)
include hp

theorem exec_buildTree_of_table : exec .buildTree s =
    .next (s.installTree (buildArena s.width s.freq) (arenaRoot (buildArena s.width s.freq))) :=
  gated_legal (by simp [hp]) (by simp [legalIn, hp])

theorem eq_installTree_of_exec (ht : exec .buildTree s = .next t) :
    t = s.installTree (buildArena s.width s.freq) (arenaRoot (buildArena s.width s.freq)) := by
  rw [exec_buildTree_of_table hp] at ht
  cases ht
  rfl

end

/-- Settles O11: PSEUDO_EOF's is the only leaf, and the arena is it and its synthetic root. -/
theorem singleEntryTableGetsASyntheticRoot : Obligations.SingleEntryTableGetsASyntheticRoot := by
  intro s hp heof habs
  have hone : ∀ sym ∈ List.range 257, (s.freqAt sym != 0#32) = (sym == 256) := by
    intro sym hsym
    rw [List.mem_range] at hsym
    by_cases hs : sym = 256
    · rw [hs, heof]; decide
    · rw [habs sym (by omega), beq_false_of_ne hs]; decide
  have hleaves : leavesFrom s.freq.toList 0 = [leafNode 256 1#32] := by
    rw [s.leaves_eq_map, List.filter_congr hone, show (List.range 257).filter (· == 256) = [256] by decide,
      List.map_singleton, heof]
  rw [exec_buildTree_of_table hp, buildArena_of_single hleaves]
  rfl

/-- Settles O12: the merge loop's invariant at its end counts the nodes and says which are internal. -/
theorem treeOfSeveralEntriesHasItsShape : Obligations.TreeOfSeveralEntriesHasItsShape := by
  intro s h hp h2
  have m := h.merging_arena h2
  have hsize := m.size
  have hlen := m.length_eq
  have hlast := m.last_eq
  refine ⟨_, exec_buildTree_of_table hp, ?_, ?_, fun k hk => ?_, rfl, rfl, rfl⟩
  · rw [State.nnodes, State.installTree_nodes, BitVec.toNat_ofNat, Nat.mod_eq_of_lt (by omega)]
    omega
  · rw [State.installTree_root]
    omega
  · rw [State.installTree_nodes, m.kind_eq_internal_iff]
    exact and_iff_left (by omega)

/-- Settles O13: the arena begins with the leaves, one for each entry. -/
theorem leavesFollowTheSymbols : Obligations.LeavesFollowTheSymbols := by
  intro s t h hp _ ht
  obtain rfl := eq_installTree_of_exec hp ht
  rw [State.installTree_nodes, ← h.length_leaves, ← List.prefix_iff_eq_take.mp leaves_prefix_buildArena, s.leaves_eq_map]
  rfl

/-- Settles O14: every node from index NSYM on is a merge. -/
theorem mergesTakeTheTwoLeast : Obligations.MergesTakeTheTwoLeast := by
  intro s t h hp h2 ht k hnk hk
  obtain rfl := eq_installTree_of_exec hp ht
  obtain ⟨a, b, m⟩ := (h.merging_arena h2).merge k hnk hk
  obtain rfl := m.zero
  obtain rfl := m.one
  exact ⟨m.sym, m.zero_untaken, m.one_untaken, m.ne, m.count, m.zero_precedes _ m.one_untaken m.ne.symm, m.one_precedes⟩

/-- In the arena of a single entry the leaf is the synthetic root's child, and NIL is no node. -/
theorem isChildOf_single_iff {sym i k : Nat} {c : BitVec 32} :
    isChildOf [leafNode sym c, syntheticRoot (leafNode sym c)] i k ↔ k = 1 ∧ (i = 0 ∨ i = 1023) := by
  match k with
  | 0 => simp [isChildOf, nodeAt, leafNode]
  | 1 => simp [isChildOf, nodeAt, syntheticRoot, eq_comm]
  | k + 2 => simp [isChildOf, nodeAt, freeNode]

/-- Settles O15: a single entry's tree by its two nodes, every other by the merge loop's invariant. -/
theorem everyNodeButTheRootHasOneParent : Obligations.EveryNodeButTheRootHasOneParent := by
  intro s t h hp h1 ht
  obtain rfl := eq_installTree_of_exec hp ht
  rw [State.installTree_nodes, State.installTree_root]
  obtain hone | h2 : s.nsym.toNat = 1 ∨ 2 ≤ s.nsym.toNat := by omega
  · obtain ⟨sym, harena⟩ := h.arena_of_single hone
    rw [harena, toNat_arenaRoot (r := 1) rfl (by decide)]
    simp only [isChildOf_single_iff, List.length_cons, List.length_nil]
    refine ⟨fun i hi hne => ⟨1, by omega, by omega, by omega, fun j _ hj => hj.1⟩, by omega, fun k hk hint => ?_⟩
    match k, hk with
    | 0, _ => cases hint
    | 1, _ => exact (by decide : (0#10) ≠ Config.nil)
  · have m := h.merging_arena h2
    exact ⟨fun i => m.exists_parent, fun k => m.not_isChildOf_last, fun k _ => m.zero_ne_one⟩

/-- Settles O16: the element left in Q carries TOTAL, and counts do not fall towards it. -/
theorem rootCountIsTheTotal : Obligations.RootCountIsTheTotal := by
  intro s t h hp h1 ht
  obtain rfl := eq_installTree_of_exec hp ht
  rw [State.installTree_nodes, State.installTree_root]
  obtain hone | h2 : s.nsym.toNat = 1 ∨ 2 ≤ s.nsym.toNat := by omega
  · obtain ⟨sym, harena⟩ := h.arena_of_single hone
    rw [harena, toNat_arenaRoot (r := 1) rfl (by decide)]
    refine ⟨rfl, fun k hk => ?_⟩
    match k, hk with
    | 0, _ => exact le_rfl
    | 1, _ => exact le_rfl
  · have m := h.merging_arena h2
    exact ⟨BitVec.eq_of_toNat_eq m.count_last, fun k => m.count_le⟩

/-- Settles O17: ROOT is internal, and a walk from it meets each of the n - 1 internal nodes at most once. -/
theorem leafDepthIsBounded : Obligations.LeafDepthIsBounded := by
  intro s t h hp h2 ht path i hd hleaf
  obtain rfl := eq_installTree_of_exec hp ht
  rw [State.installTree_nodes, State.installTree_root] at hd
  rw [State.installTree_nodes] at hleaf
  have m := h.merging_arena h2
  have hsize := m.size
  have hlen := m.length_eq
  have hlast := m.last_eq
  have hle := m.descend_length_le hd
  have hpos : path ≠ [] := by
    rintro rfl
    cases hd
    rw [m.kind_eq_internal_iff.mpr ⟨by omega, by omega⟩] at hleaf
    cases hleaf
  have := List.length_pos_iff.mpr hpos
  omega

/-- The arena is the same for every COUNT_WIDTH that TOTAL fits. -/
theorem State.CountInv.buildArena_width {s : State} {w : Nat} (h : s.CountInv) (hw : w ≤ 32)
    (hT : s.total.toNat ≤ Config.cmax w) : buildArena s.width s.freq = buildArena w s.freq := by
  by_cases h1 : (leavesFrom s.freq.toList 0).length = 1
  · obtain ⟨leaf, hl⟩ := List.length_eq_one_iff.mp h1
    rw [buildArena_of_single hl, buildArena_of_single hl]
  · rw [buildArena_of_ne_one h1, buildArena_of_ne_one h1]
    exact h.merging_leaves.loop_width _ h.width.2 h.total_le_cmax hw hT

/-- Settles O18: TOTAL is the table's, so it fits both COUNT_WIDTHs. -/
theorem treeDependsOnTheTableAlone : Obligations.TreeDependsOnTheTableAlone := by
  intro s s' t t' h h' hp hp' hfreq ht ht'
  obtain rfl := eq_installTree_of_exec hp ht
  obtain rfl := eq_installTree_of_exec hp' ht'
  have htotal := (h.counters_eq h' hfreq.symm).1
  have harena := h.buildArena_width h'.width.2 (htotal ▸ h'.total_le_cmax)
  rw [hfreq] at harena
  simp only [State.installTree_nodes, State.installTree_root, State.nnodes, hfreq, harena, and_self]

end Sys2Proof.Machine
end

section
/-! Walks down the tree of BUILD_TREE (spec/42_tree_builder.md R146): in one tree every node has exactly one path from ROOT, and
the leaves' paths are what BUILD_CODES lists. -/

namespace Sys2Proof.Machine

/-! ### One walk after another -/

section
variable {nodes : List Node} {i j k : NodeIndex} {t : Bool} {path tail : List Bool}

theorem descend_append (nodes : List Node) (path tail : List Bool) (i : NodeIndex) :
    descend nodes (path ++ tail) i = (descend nodes path i).bind (descend nodes tail) := by
  induction path generalizing i with
  | nil => rfl
  | cons t rest ih =>
    rw [List.cons_append, descend, descend]
    cases (nodeAt nodes i.toNat).kind with
    | leaf => rfl
    | internal =>
      dsimp only
      rw [ih, apply_ite fun o : Option NodeIndex => o.bind (descend nodes tail)]
      rfl

/-- A leaf has nothing below it. -/
theorem descend_leaf (hk : (nodeAt nodes i.toNat).kind = .leaf) (h : descend nodes path i = some j) : path = [] := by
  cases path with
  | nil => rfl
  | cons t rest => simp [descend, hk] at h

/-- One step: the zero-branch or the one-branch of an internal node, unless it is NIL. -/
theorem descend_singleton_iff : descend nodes [t] i = some j ↔ (nodeAt nodes i.toNat).kind = .internal ∧
    j ≠ Config.nil ∧ (if t then (nodeAt nodes i.toNat).one else (nodeAt nodes i.toNat).zero) = j := by
  rw [descend]
  cases (nodeAt nodes i.toNat).kind with
  | leaf => simp
  | internal =>
    simp only [descend, Option.ite_none_left_eq_some, Option.some.injEq, true_and]
    exact ⟨fun ⟨hn, he⟩ => ⟨he ▸ hn, he⟩, fun ⟨hn, he⟩ => ⟨he ▸ hn, he⟩⟩

theorem isChildOf_of_descend (h : descend nodes [t] i = some j) : isChildOf nodes j.toNat i.toNat := by
  obtain ⟨hk, -, rfl⟩ := descend_singleton_iff.mp h
  cases t
  · exact ⟨hk, .inl rfl⟩
  · exact ⟨hk, .inr rfl⟩

theorem exists_descend_of_isChildOf (h : isChildOf nodes j.toNat i.toNat) (hn : j ≠ Config.nil) :
    ∃ t, descend nodes [t] i = some j := by
  obtain ⟨hk, hz | ho⟩ := h
  · exact ⟨false, descend_singleton_iff.mpr ⟨hk, hn, BitVec.eq_of_toNat_eq hz⟩⟩
  · exact ⟨true, descend_singleton_iff.mpr ⟨hk, hn, BitVec.eq_of_toNat_eq ho⟩⟩

/-- The last step of a walk. -/
theorem exists_descend_init (h : descend nodes (path ++ [t]) i = some j) :
    ∃ k, descend nodes path i = some k ∧ descend nodes [t] k = some j := by
  rwa [descend_append, Option.bind_eq_some_iff] at h

end

/-! ### Trees -/

/-- The arena is one tree over ROOT, its last node (R146 (d)). NIL may stand for an absent branch. -/
structure IsTree (nodes : List Node) (root : NodeIndex) : Prop where
  size : nodes.length ≤ Config.maxNodes
  last : root.toNat + 1 = nodes.length
  root_kind : (nodeAt nodes root.toNat).kind = .internal
  child_lt : ∀ i k, i ≠ Config.nil.toNat → isChildOf nodes i k → i < k
  parent : ∀ i, i < nodes.length → i ≠ root.toNat → ∃ k, i < k ∧ k < nodes.length ∧ isChildOf nodes i k ∧
    ∀ j, j < nodes.length → isChildOf nodes i j → j = k
  zero_ne_one : ∀ k, k < nodes.length → (nodeAt nodes k).kind = .internal → (nodeAt nodes k).zero ≠ (nodeAt nodes k).one

theorem lt_length_of_internal {nodes : List Node} {k : Nat} (hk : (nodeAt nodes k).kind = .internal) : k < nodes.length := by
  by_contra hge
  rw [nodeAt_of_length_le (by omega)] at hk
  cases hk

/-- The single entry's tree (R145): the leaf is the synthetic root's zero-branch, the one-branch is NIL. -/
theorem isTree_single (sym : Nat) (c : BitVec 32) : IsTree [leafNode sym c, syntheticRoot (leafNode sym c)] 1#10 where
  size := (by decide : 2 ≤ 513)
  last := rfl
  root_kind := rfl
  child_lt i k (hi : i ≠ 1023) hc := by
    have := isChildOf_single_iff.mp hc
    omega
  parent i (hi : i < 2) (hr : i ≠ 1) :=
    ⟨1, by omega, (by decide : 1 < 2), isChildOf_single_iff.mpr (by omega), fun j _ hj => (isChildOf_single_iff.mp hj).1⟩
  zero_ne_one k hk hint := by
    match k, hk with
    | 0, _ => cases hint
    | 1, _ => exact (by decide : (0#10) ≠ Config.nil)

/-- From two leaves or more the merge loop ends with a tree. -/
theorem Merging.isTree {n T : Nat} {nodes : List Node} {root : NodeIndex} (h : Merging n T nodes [root.toNat])
    (h2 : 2 ≤ n) : IsTree nodes root where
  size := by
    have := h.size
    have := h.length_eq
    change nodes.length ≤ 513
    omega
  last := h.last_eq
  root_kind := by
    have := h.length_eq
    have := h.last_eq
    exact h.kind_eq_internal_iff.mpr ⟨by omega, by omega⟩
  child_lt _ _ _ := h.child_lt
  parent _ := h.exists_parent
  zero_ne_one _ _ := h.zero_ne_one

section
variable {nodes : List Node} {root : NodeIndex} (h : IsTree nodes root)
include h

theorem IsTree.ne_nil {i : NodeIndex} (hi : i.toNat < nodes.length) : i ≠ Config.nil := by
  rintro rfl
  have := h.size
  exact absurd (hi.trans_le this) (by decide)

theorem IsTree.step_lt {t : Bool} {i j : NodeIndex} (hd : descend nodes [t] i = some j) : j.toNat < i.toNat :=
  h.child_lt _ _ (fun hn => (descend_singleton_iff.mp hd).2.1 (BitVec.eq_of_toNat_eq hn)) (isChildOf_of_descend hd)

/-- Every step goes to a lower index. -/
theorem IsTree.length_add_le {path : List Bool} {i j : NodeIndex} (hd : descend nodes path i = some j) :
    path.length + j.toNat ≤ i.toNat := by
  induction path using List.reverseRecOn generalizing j with
  | nil => cases hd; simp
  | append_singleton path t ih =>
    obtain ⟨k, hk, hstep⟩ := exists_descend_init hd
    have := ih hk
    have := h.step_lt hstep
    rw [List.length_append, List.length_singleton]
    omega

/-- A walk from ROOT stays in the arena. -/
theorem IsTree.walk_lt {path : List Bool} {j : NodeIndex} (hd : descend nodes path root = some j) :
    path.length + j.toNat < nodes.length := by
  have := h.length_add_le hd
  have := h.last
  omega

/-- ROOT is no leaf, so a leaf's path is not empty. -/
theorem IsTree.leaf_path_ne_nil {path : List Bool} {j : NodeIndex} (hd : descend nodes path root = some j)
    (hj : (nodeAt nodes j.toNat).kind = .leaf) : path ≠ [] := by
  rintro rfl
  cases hd
  rw [h.root_kind] at hj
  cases hj

/-- Every node is reached from ROOT: a path to its parent, and one step more. -/
theorem IsTree.exists_path {i : NodeIndex} (hi : i.toNat < nodes.length) : ∃ path, descend nodes path root = some i := by
  by_cases hr : i.toNat = root.toNat
  · exact ⟨[], congrArg some (BitVec.eq_of_toNat_eq hr.symm)⟩
  · obtain ⟨k, hik, hk, hc, -⟩ := h.parent _ hi hr
    have hkn : (BitVec.ofNat 10 k : NodeIndex).toNat = k := by
      have := h.last
      rw [BitVec.toNat_ofNat, Nat.mod_eq_of_lt (by omega)]
    obtain ⟨path, hpath⟩ := IsTree.exists_path (i := BitVec.ofNat 10 k) (hkn.symm ▸ hk)
    obtain ⟨t, ht⟩ := exists_descend_of_isChildOf (hkn.symm ▸ hc) (h.ne_nil hi)
    exact ⟨path ++ [t], by rw [descend_append, hpath]; exact ht⟩
termination_by nodes.length - i.toNat

/-- No walk of one step or more comes back to ROOT. -/
theorem IsTree.descend_ne_root {path : List Bool} {t : Bool} : descend nodes (path ++ [t]) root ≠ some root := by
  intro hd
  have := h.length_add_le hd
  rw [List.length_append, List.length_singleton] at this
  omega

/-- Only one step leads to a node other than ROOT. -/
theorem IsTree.step_unique {t t' : Bool} {j k k' : NodeIndex} (hj : j ≠ root) (hd : descend nodes [t] k = some j)
    (hd' : descend nodes [t'] k' = some j) : k = k' ∧ t = t' := by
  obtain ⟨hk, -, hb⟩ := descend_singleton_iff.mp hd
  obtain ⟨hk', -, hb'⟩ := descend_singleton_iff.mp hd'
  have hlt := lt_length_of_internal hk
  obtain ⟨p, -, -, -, hp⟩ := h.parent j.toNat ((h.step_lt hd).trans hlt) fun he => hj (BitVec.eq_of_toNat_eq he)
  obtain rfl : k = k' := BitVec.eq_of_toNat_eq
    ((hp _ hlt (isChildOf_of_descend hd)).trans (hp _ (lt_length_of_internal hk') (isChildOf_of_descend hd')).symm)
  have hne := h.zero_ne_one _ hlt hk
  refine ⟨rfl, ?_⟩
  subst hb'
  cases t <;> cases t'
  · rfl
  · exact absurd hb hne
  · exact absurd hb.symm hne
  · rfl

/-- There is only one path to a node. -/
theorem IsTree.path_unique {path path' : List Bool} {j : NodeIndex} (hd : descend nodes path root = some j)
    (hd' : descend nodes path' root = some j) : path = path' := by
  induction path using List.reverseRecOn generalizing path' j with
  | nil =>
    cases hd
    cases path' using List.reverseRecOn with
    | nil => rfl
    | append_singleton path' t' => exact absurd hd' h.descend_ne_root
  | append_singleton path t ih =>
    cases path' using List.reverseRecOn with
    | nil => cases hd'; exact absurd hd h.descend_ne_root
    | append_singleton path' t' =>
      have hj : j ≠ root := by rintro rfl; exact h.descend_ne_root hd
      obtain ⟨k, hk, hstep⟩ := exists_descend_init hd
      obtain ⟨k', hk', hstep'⟩ := exists_descend_init hd'
      obtain ⟨rfl, rfl⟩ := h.step_unique hj hstep hstep'
      rw [ih hk hk']

end

/-! ### The tree of a sealed table -/

/-- BUILD_TREE has made the arena and ROOT of the sealed table. -/
structure State.Built (s : State) : Prop where
  count : s.CountInv
  eof : s.freqAt 256 = 1#32
  nodes : s.nodes = buildArena s.width s.freq
  root : s.root = arenaRoot s.nodes

theorem State.freqCount_eq_countP (s : State) : s.freqCount = (List.range 257).countP fun sym => s.freqAt sym != 0#32 := by
  rw [State.freqCount, s.toList_freq, List.countP_map]
  rfl

section
variable {s : State} (h : s.Built)
include h

theorem State.Built.nsym_pos : 1 ≤ s.nsym.toNat := by
  rw [h.count.nsym, s.freqCount_eq_countP, Nat.one_le_iff_ne_zero, ← Nat.pos_iff_ne_zero, List.countP_pos_iff]
  exact ⟨256, by decide, by simp [h.eof]⟩

theorem State.Built.root_eq : s.root = arenaRoot (buildArena s.width s.freq) := h.nodes ▸ h.root

/-- The arena of a table of one entry: its leaf, and the synthetic root. -/
theorem State.Built.single (h1 : s.nsym.toNat = 1) :
    s.root = 1#10 ∧ ∃ sym, s.nodes = [leafNode sym s.total, syntheticRoot (leafNode sym s.total)] := by
  obtain ⟨sym, harena⟩ := h.count.arena_of_single h1
  refine ⟨?_, sym, h.nodes.trans harena⟩
  rw [h.root_eq, harena]
  exact BitVec.eq_of_toNat_eq (toNat_arenaRoot (r := 1) rfl (by decide))

theorem State.Built.merging (h2 : 2 ≤ s.nsym.toNat) : Merging s.nsym.toNat s.total.toNat s.nodes [s.root.toNat] := by
  rw [h.nodes, h.root_eq]
  exact h.count.merging_arena h2

/-- R146 (d) of the arena in the state. -/
theorem State.Built.isTree : IsTree s.nodes s.root := by
  have hpos := h.nsym_pos
  obtain h1 | h2 : s.nsym.toNat = 1 ∨ 2 ≤ s.nsym.toNat := by omega
  · obtain ⟨hroot, sym, harena⟩ := h.single h1
    rw [hroot, harena]
    exact isTree_single sym _
  · exact (h.merging h2).isTree h2

end

end Sys2Proof.Machine
end

section
/-! The code-table generator (spec/43_code_table_builder.md R160 to R165): the leaves' paths are those of the table's entries, one
for each, and the code table holds them. -/

namespace Sys2Proof.Machine

/-! ### The leaves' paths -/

/-- A leaf of the symbol with index `sym` stands at the end of `path` from ROOT (R161). -/
def State.LeafPath (s : State) (sym : Nat) (path : List Bool) : Prop :=
  ∃ i, descend s.nodes path s.root = some i ∧ (s.node i).kind = .leaf ∧ (s.node i).sym.toNat = sym

/-- The symbols of the table, in ascending order (spec/42_tree_builder.md R141). -/
def State.entries (s : State) : List Nat := (List.range 257).filter fun sym => s.freqAt sym != 0#32

theorem State.mem_entries {s : State} {sym : Nat} : sym ∈ s.entries ↔ s.freqAt sym ≠ 0#32 := by
  rw [State.entries, List.mem_filter, List.mem_range, bne_iff_ne, and_iff_right_iff_imp]
  intro hne
  by_contra hge
  exact hne (s.freqAt_of_ge (by omega))

theorem State.nodup_entries (s : State) : s.entries.Nodup := List.nodup_range.filter _

theorem State.length_entries (s : State) : s.entries.length = s.freqCount := by
  rw [s.freqCount_eq_countP, State.entries, List.countP_eq_length_filter]

/-- No leaf's path goes on to another leaf (R163). -/
theorem State.LeafPath.eq_of_prefix {s : State} {x y : Nat} {p q : List Bool} (hx : s.LeafPath x p) (hy : s.LeafPath y q)
    (hpq : p <+: q) : x = y := by
  obtain ⟨i, hi, hleaf, rfl⟩ := hx
  obtain ⟨j, hj, -, rfl⟩ := hy
  obtain ⟨tail, rfl⟩ := hpq
  rw [descend_append, hi, Option.bind_some] at hj
  obtain rfl := descend_leaf hleaf hj
  cases hj
  rfl

section
variable {s : State} (h : s.Built) {sym k : Nat} {p q : List Bool}
include h

/-- The arena's leaves are its first NSYM nodes. -/
theorem State.Built.kind_leaf_iff (hk : k < s.nodes.length) : (nodeAt s.nodes k).kind = .leaf ↔ k < s.entries.length := by
  rw [s.length_entries, ← h.count.nsym]
  have hpos := h.nsym_pos
  obtain h1 | h2 : s.nsym.toNat = 1 ∨ 2 ≤ s.nsym.toNat := by omega
  · obtain ⟨-, sym, harena⟩ := h.single h1
    rw [h1]
    rw [harena] at hk ⊢
    match k, hk with
    | 0, _ => exact iff_of_true rfl Nat.zero_lt_one
    | 1, _ => exact iff_of_false (by rintro ⟨⟩) (lt_irrefl 1)
  · have hint := (h.merging h2).kind_eq_internal_iff (k := k)
    rw [and_iff_left hk] at hint
    refine ⟨fun hleaf => ?_, (h.merging h2).leaf k⟩
    by_contra hge
    rw [hint.mpr (by omega)] at hleaf
    cases hleaf

/-- The `k`-th leaf is the `k`-th entry's. -/
theorem State.Built.sym_leaf (hk : k < s.entries.length) : k < s.nodes.length ∧
    (nodeAt s.nodes k).sym.toNat = s.entries[k] := by
  obtain ⟨l, hl⟩ := leaves_prefix_buildArena (w := s.width) (freq := s.freq)
  rw [← h.nodes, s.leaves_eq_map] at hl
  change s.entries.map _ ++ l = _ at hl
  have hmem := s.mem_entries.mp (List.getElem_mem hk)
  have hlt : s.entries[k] < 257 := by
    by_contra hge
    exact hmem (s.freqAt_of_ge (by omega))
  have hk' : k < (s.entries.map fun sym => leafNode sym (s.freqAt sym)).length := by rwa [List.length_map]
  rw [← hl, nodeAt_append_of_lt hk', nodeAt_eq_getElem hk', List.getElem_map, List.length_append]
  exact ⟨by omega, (BitVec.toNat_ofNat ..).trans (Nat.mod_eq_of_lt (by omega))⟩

/-- A leaf's index is its entry's place in the table. -/
theorem State.Built.exists_entry (hp : s.LeafPath sym p) : ∃ i, descend s.nodes p s.root = some i ∧
    ∃ hk : i.toNat < s.entries.length, s.entries[i.toNat] = sym := by
  obtain ⟨i, hi, hleaf, rfl⟩ := hp
  have hlt : i.toNat < s.nodes.length := by
    have := h.isTree.walk_lt hi
    omega
  have hk := (h.kind_leaf_iff hlt).mp hleaf
  exact ⟨i, hi, hk, (h.sym_leaf hk).2.symm⟩

/-- A symbol has one leaf, and its leaf one path. -/
theorem State.Built.leafPath_unique (hp : s.LeafPath sym p) (hq : s.LeafPath sym q) : p = q := by
  obtain ⟨i, hi, hk, hsym⟩ := h.exists_entry hp
  obtain ⟨j, hj, hl, hsym'⟩ := h.exists_entry hq
  obtain rfl : i = j := BitVec.eq_of_toNat_eq (s.nodup_entries.getElem_inj_iff.mp (hsym.trans hsym'.symm))
  exact h.isTree.path_unique hi hj

/-- The symbols of the leaves are the table's (R165). -/
theorem State.Built.exists_leafPath_iff : (∃ p, s.LeafPath sym p) ↔ s.freqAt sym ≠ 0#32 := by
  rw [← State.mem_entries]
  constructor
  · rintro ⟨p, hp⟩
    obtain ⟨_, -, hk, rfl⟩ := h.exists_entry hp
    exact List.getElem_mem hk
  · intro hmem
    obtain ⟨k, hk, rfl⟩ := List.getElem_of_mem hmem
    obtain ⟨hlt, hsym⟩ := h.sym_leaf hk
    have hkn : (BitVec.ofNat 10 k : NodeIndex).toNat = k := by
      have := h.isTree.last
      rw [BitVec.toNat_ofNat, Nat.mod_eq_of_lt (by omega)]
    obtain ⟨p, hp⟩ := h.isTree.exists_path (i := BitVec.ofNat 10 k) (by rwa [hkn])
    refine ⟨p, _, hp, ?_, ?_⟩ <;> rw [State.node, hkn]
    · exact (h.kind_leaf_iff hlt).mpr hk
    · exact hsym

theorem State.Built.leafPath_sym_lt (hp : s.LeafPath sym p) : sym < 257 := by
  by_contra hge
  exact h.exists_leafPath_iff.mp ⟨p, hp⟩ (s.freqAt_of_ge (by omega))

/-- A walk passes each internal node at most once, and there are at most 256 (spec/42_tree_builder.md R146 (f)). -/
theorem State.Built.length_leafPath (hp : s.LeafPath sym p) : 1 ≤ p.length ∧ p.length ≤ 256 := by
  obtain ⟨i, hi, hleaf, -⟩ := hp
  have hle := h.isTree.length_add_le hi
  refine ⟨List.length_pos_iff.mpr (h.isTree.leaf_path_ne_nil hi hleaf), ?_⟩
  have hpos := h.nsym_pos
  obtain h1 | h2 : s.nsym.toNat = 1 ∨ 2 ≤ s.nsym.toNat := by omega
  · rw [(h.single h1).1] at hle
    change _ ≤ 1 at hle
    omega
  · have m := h.merging h2
    have hsize := m.size
    have hlen := m.length_eq
    have hlast := m.last_eq
    have := m.descend_length_le hi
    omega

/-- The walk of BUILD_CODES lists exactly the leaves' paths (R160, R161). -/
theorem State.Built.mem_treePaths_iff {a : Symbol} : (a, p) ∈ s.treePaths ↔ s.LeafPath a.toNat p := by
  constructor
  · intro hmem
    obtain ⟨tail, i, rfl, -, hi, hleaf, hsym⟩ := mem_leafPaths hmem
    exact ⟨i, hi, hleaf, congrArg BitVec.toNat hsym⟩
  · rintro ⟨i, hi, hleaf, hsym⟩
    obtain rfl := BitVec.eq_of_toNat_eq hsym
    have hlt := h.isTree.walk_lt hi
    have hlast := h.isTree.last
    exact leafPaths_mem (path := []) (h.isTree.ne_nil (by omega)) (by omega) hi hleaf

end

/-! ### What is recorded -/

/-- A symbol that no pair names keeps its entry. -/
theorem State.recordCodes_of_absent {paths : List (Symbol × List Bool)} {k : Nat} (hk : ∀ e ∈ paths, e.1.toNat ≠ k)
    (s : State) : (s.recordCodes paths).codeLenAt k = s.codeLenAt k ∧
      (s.recordCodes paths).codeBitsAt k = s.codeBitsAt k := by
  induction paths generalizing s with
  | nil => exact ⟨rfl, rfl⟩
  | cons e rest ih =>
    have hne := (hk e List.mem_cons_self).symm
    obtain ⟨hl, hb⟩ := ih (fun e he => hk e (List.mem_cons_of_mem _ he)) (s.recordCode e.1 e.2)
    exact ⟨hl.trans (s.codeLenAt_recordCode_ne _ hne), hb.trans (s.codeBitsAt_recordCode_ne _ hne)⟩

/-- Where all pairs of a symbol carry the same path, that path is recorded. -/
theorem State.recordCodes_of_mem {paths : List (Symbol × List Bool)} {a : Symbol} {p : List Bool} (ha : a.toNat < 257)
    (hmem : (a, p) ∈ paths) (huniq : ∀ q, (a, q) ∈ paths → q = p) (s : State) :
    (s.recordCodes paths).codeLenAt a.toNat = BitVec.ofNat 9 p.length ∧
      (s.recordCodes paths).codeBitsAt a.toNat = BitVec.ofNat 256 (bitsToNat p) := by
  induction paths generalizing s with
  | nil => cases hmem
  | cons e rest ih =>
    by_cases hrest : (a, p) ∈ rest
    · exact ih hrest (fun q hq => huniq q (List.mem_cons_of_mem _ hq)) (s.recordCode e.1 e.2)
    · obtain rfl : (a, p) = e := (List.mem_cons.mp hmem).resolve_right hrest
      have habs : ∀ e ∈ rest, e.1.toNat ≠ a.toNat := by
        rintro ⟨b, q⟩ hq hb
        obtain rfl : b = a := BitVec.eq_of_toNat_eq hb
        exact hrest (huniq q (List.mem_cons_of_mem _ hq) ▸ hq)
      obtain ⟨hl, hb⟩ := State.recordCodes_of_absent habs (s.recordCode a p)
      exact ⟨hl.trans (s.codeLenAt_recordCode_self a p ha), hb.trans (s.codeBitsAt_recordCode_self a p ha)⟩

theorem State.noCodes_withoutCodes (s : State) : s.withoutCodes.NoCodes := ⟨rfl, rfl⟩

theorem State.TreeCodes.codes_eq {s : State} (hc : s.TreeCodes) (k : Nat) :
    s.codeLenAt k = (s.withoutCodes.recordCodes s.treePaths).codeLenAt k ∧
      s.codeBitsAt k = (s.withoutCodes.recordCodes s.treePaths).codeBitsAt k := by
  simp only [State.codeLenAt, State.codeBitsAt, ← hc.1, ← hc.2, and_self]

section
variable {s : State} (h : s.Built) (hc : s.TreeCodes) {sym : Nat} {p : List Bool}
include h hc

/-- R161: the entry of a leaf's symbol is its path. -/
theorem State.Built.codes_of_leafPath (hp : s.LeafPath sym p) :
    (s.codeLenAt sym).toNat = p.length ∧ ∀ j, (s.codeBitsAt sym).getLsbD j = p.getD j false := by
  have hsym := h.leafPath_sym_lt hp
  obtain ⟨a, rfl⟩ : ∃ a : Symbol, a.toNat = sym :=
    ⟨BitVec.ofNat 9 sym, by rw [BitVec.toNat_ofNat, Nat.mod_eq_of_lt (by omega)]⟩
  have hle := (h.length_leafPath hp).2
  obtain ⟨hlen, hbits⟩ := State.recordCodes_of_mem hsym (h.mem_treePaths_iff.mpr hp)
    (fun q hq => h.leafPath_unique (h.mem_treePaths_iff.mp hq) hp) s.withoutCodes
  rw [(hc.codes_eq _).1, (hc.codes_eq _).2, hlen, hbits]
  refine ⟨by rw [BitVec.toNat_ofNat, Nat.mod_eq_of_lt (by omega)], fun j => ?_⟩
  rw [BitVec.getLsbD_ofNat, testBit_bitsToNat, Bool.and_eq_right_iff_imp, decide_eq_true_iff]
  intro hj
  by_contra hge
  rw [List.getD_eq_default _ _ (by omega)] at hj
  cases hj

/-- R160: the entry of a symbol not in the table stays 0. -/
theorem State.Built.codes_of_absent (ha : s.freqAt sym = 0#32) : s.codeLenAt sym = 0#9 ∧ s.codeBitsAt sym = 0#256 := by
  have habs : ∀ e ∈ s.treePaths, e.1.toNat ≠ sym := by
    rintro ⟨a, p⟩ hmem rfl
    exact h.exists_leafPath_iff.mp ⟨p, h.mem_treePaths_iff.mp hmem⟩ ha
  rw [(hc.codes_eq _).1, (hc.codes_eq _).2, (State.recordCodes_of_absent habs _).1, (State.recordCodes_of_absent habs _).2]
  exact ⟨s.noCodes_withoutCodes.codeLenAt sym, s.noCodes_withoutCodes.codeBitsAt sym⟩

theorem State.Built.codeLenAt_ne_zero_iff : s.codeLenAt sym ≠ 0#9 ↔ s.freqAt sym ≠ 0#32 := by
  refine ⟨mt fun ha => (h.codes_of_absent hc ha).1, fun hne hz => ?_⟩
  obtain ⟨p, hp⟩ := h.exists_leafPath_iff.mpr hne
  have hlen := (h.codes_of_leafPath hc hp).1
  have hpos := (h.length_leafPath hp).1
  rw [hz] at hlen
  exact absurd hlen (Nat.ne_of_lt hpos)

/-- The code word of a leaf's symbol is its path. -/
theorem State.Built.codeWord_of_leafPath (hp : s.LeafPath sym p) : s.codeWord sym = p := by
  obtain ⟨hlen, hbits⟩ := h.codes_of_leafPath hc hp
  apply List.ext_getElem
  · simp [State.codeWord, hlen]
  · intro j _ hj
    simp [State.codeWord, hbits, hj]

/-- A symbol with a code word has the leaf it leads to. -/
theorem State.Built.leafPath_codeWord (hne : s.codeLenAt sym ≠ 0#9) : s.LeafPath sym (s.codeWord sym) := by
  obtain ⟨p, hp⟩ := h.exists_leafPath_iff.mpr ((h.codeLenAt_ne_zero_iff hc).mp hne)
  rwa [h.codeWord_of_leafPath hc hp]

end

/-! ### The states with a code table -/

section
variable {s : State} (h : s.Inv)
include h

theorem State.Inv.built_of_hasTree (hp : s.phase.hasTree = true) : s.Built := by
  obtain ⟨hfill, herror⟩ := Phase.ne_of_hasTree hp
  obtain ⟨hnodes, hroot⟩ := h.tree hp
  exact ⟨h.count, h.sealed hfill herror, hnodes, hroot⟩

/-- Wherever the code table is not empty it is that of the sealed table's tree, the loop-back and ERROR included
(spec/10_state.md R46). -/
theorem State.Inv.built_of_codes (hn : ¬ s.NoCodes) : s.Built ∧ s.TreeCodes := by
  obtain ⟨hcodes, hnodes, hroot, heof⟩ := h.codeTable.resolve_left hn
  exact ⟨⟨h.count, heof, hnodes, hroot⟩, hcodes⟩

theorem State.Inv.built_codes (hp : s.phase.hasCodes = true ∨ ¬ s.NoCodes) : s.Built ∧ s.TreeCodes := by
  obtain hp | hn := hp
  · exact ⟨h.built_of_hasTree (by revert hp; cases s.phase <;> simp [Phase.hasCodes, Phase.hasTree]), h.codes hp⟩
  · exact h.built_of_codes hn

end

/-- Settles O19: the code table after BUILD_CODES is the tree's, and BUILD_CODES writes nothing else. -/
theorem codeWordsAreTheLeafPaths : Obligations.CodeWordsAreTheLeafPaths := by
  intro s h hp
  have ht := h.buildCodes hp
  have hframe : (s.recordCodes s.treePaths).enter .codes = { s with
      codeLen := (s.recordCodes s.treePaths).codeLen
      codeBits := (s.recordCodes s.treePaths).codeBits
      phase := .codes } := by
    rw [State.recordCodes_frame]
    rfl
  have hexec : exec .buildCodes s = .next ((s.recordCodes s.treePaths).enter .codes) :=
    gated_legal (by simp [hp]) (by simp [legalIn, hp])
  rw [hframe] at ht hexec
  obtain ⟨hb, hc⟩ := ht.built_codes (.inl rfl)
  refine ⟨_, hexec, fun path i hi hleaf => hb.codes_of_leafPath hc ⟨i, hi, hleaf, rfl⟩, fun sym _ hne => ?_,
    fun sym _ ha => hb.codes_of_absent hc ha, rfl, rfl⟩
  obtain ⟨path, i, hi, hleaf, hsym⟩ := hb.exists_leafPath_iff.mpr hne
  exact ⟨path, i, hi, hleaf, hsym⟩

/-- Settles O20: code words are paths to leaves of one tree. -/
theorem codeWordsArePrefixFree : Obligations.CodeWordsArePrefixFree := by
  intro s h x y _ _ hne hx hy hpre
  obtain ⟨hb, hc⟩ := h.built_of_codes (State.not_noCodes hx)
  exact hne ((hb.leafPath_codeWord hc hx).eq_of_prefix (hb.leafPath_codeWord hc hy) hpre)

/-- Settles O22: the leaves are the entries', PSEUDO_EOF's among them, and a symbol without a code word is inconsistent with the
table. -/
theorem codedSymbolsAreTheEntries : Obligations.CodedSymbolsAreTheEntries := by
  intro s h hp
  obtain ⟨hb, hc⟩ := h.built_codes hp
  have hiff := fun sym => hb.codeLenAt_ne_zero_iff hc (sym := sym)
  refine ⟨fun sym _ => hiff sym, ?_, ?_, fun b ha hphase => ?_⟩
  · rw [h.count.nsym, s.freqCount_eq_countP]
    exact List.countP_congr fun sym _ => by simpa only [bne_iff_ne] using hiff sym
  · have hne := (hiff 256).mpr (by simp [hb.eof])
    exact Nat.one_le_iff_ne_zero.mpr fun hz => hne (BitVec.eq_of_toNat_eq hz)
  · have herror : s.phase ≠ .error := by rintro he; simp [he] at hphase
    exact (gated_legal herror (by simpa [legalIn] using hphase)).trans (if_pos (hb.codes_of_absent hc ha).1)

end Sys2Proof.Machine
end

section
/-! The Kraft sum of the code table (spec/43_code_table_builder.md R164): every internal node of a full tree shares its weight out
to its two branches. -/

namespace Sys2Proof.Machine

/-- The Kraft sum of a list of paths, in units of 2^-256. -/
def kraftSum (paths : List (Symbol × List Bool)) : Nat := (paths.map fun e => 2 ^ (256 - e.2.length)).sum

theorem kraftSum_append (l l' : List (Symbol × List Bool)) : kraftSum (l ++ l') = kraftSum l + kraftSum l' := by
  rw [kraftSum, List.map_append, List.sum_append]
  rfl

theorem leafPaths_of_leaf {nodes : List Node} {i : NodeIndex} (hi : i ≠ Config.nil)
    (hk : (nodeAt nodes i.toNat).kind = .leaf) (fuel : Nat) (path : List Bool) :
    leafPaths nodes (fuel + 1) i path = [((nodeAt nodes i.toNat).sym, path)] := by
  rw [leafPaths, if_neg hi]
  simp only [hk]

theorem leafPaths_of_internal {nodes : List Node} {i : NodeIndex} (hi : i ≠ Config.nil)
    (hk : (nodeAt nodes i.toNat).kind = .internal) (fuel : Nat) (path : List Bool) :
    leafPaths nodes (fuel + 1) i path = leafPaths nodes fuel (nodeAt nodes i.toNat).zero (path ++ [false]) ++
      leafPaths nodes fuel (nodeAt nodes i.toNat).one (path ++ [true]) := by
  rw [leafPaths, if_neg hi]
  simp only [hk]

/-- No path is listed twice: the branches of a node part there. -/
theorem nodup_leafPaths (nodes : List Node) (fuel : Nat) (i : NodeIndex) (path : List Bool) :
    (leafPaths nodes fuel i path).Nodup := by
  induction fuel generalizing i path with
  | zero => exact List.nodup_nil
  | succ fuel ih =>
    by_cases hi : i = Config.nil
    · rw [leafPaths, if_pos hi]
      exact List.nodup_nil
    · cases hk : (nodeAt nodes i.toNat).kind with
      | leaf =>
        rw [leafPaths_of_leaf hi hk]
        exact List.nodup_singleton _
      | internal =>
        rw [leafPaths_of_internal hi hk]
        refine List.nodup_append'.mpr ⟨ih _ _, ih _ _, ?_⟩
        rintro ⟨a, p⟩ hz ho
        obtain ⟨tail, -, hp, -⟩ := mem_leafPaths hz
        obtain ⟨tail', -, hp', -⟩ := mem_leafPaths ho
        rw [hp] at hp'
        simp at hp'

/-- In the tree of the merge loop no branch is NIL, so the leaves below a node share its weight out completely. Node `i` has at
most `i + 1 - n` internal nodes on the way down, so no path outgrows 256 bits. -/
theorem Merging.kraftSum_leafPaths {n T : Nat} {nodes : List Node} {r : Nat} (h : Merging n T nodes [r]) {fuel : Nat}
    {i : NodeIndex} {path : List Bool} (hi : i.toNat < nodes.length) (hf : i.toNat < fuel)
    (hp : path.length + (i.toNat + 1 - n) ≤ 256) :
    kraftSum (leafPaths nodes fuel i path) = 2 ^ (256 - path.length) := by
  induction fuel generalizing i path with
  | zero => omega
  | succ fuel ih =>
    have hnil : i ≠ Config.nil := by
      have := h.size
      have := h.length_eq
      rintro rfl
      change 1023 < _ at hi
      omega
    cases hk : (nodeAt nodes i.toNat).kind with
    | leaf =>
      rw [leafPaths_of_leaf hnil hk]
      simp [kraftSum]
    | internal =>
      have hn := (h.kind_eq_internal_iff.mp hk).1
      have hz := h.child_lt ⟨hk, .inl rfl⟩
      have ho := h.child_lt ⟨hk, .inr rfl⟩
      rw [leafPaths_of_internal hnil hk, kraftSum_append,
        ih (by omega) (by omega) (by rw [List.length_append, List.length_singleton]; omega),
        ih (by omega) (by omega) (by rw [List.length_append, List.length_singleton]; omega)]
      rw [List.length_append, List.length_append, List.length_singleton, List.length_singleton, ← Nat.two_mul, ← Nat.pow_succ']
      exact congrArg (2 ^ ·) (by omega)

section
variable {s : State} (h : s.Built)
include h

/-- The leaves' weights: half for the single entry, whose synthetic root has no one-branch, and one otherwise. -/
theorem State.Built.kraftSum_treePaths : kraftSum s.treePaths = if s.nsym = 1#32 then 2 ^ 255 else 2 ^ 256 := by
  have hone : s.nsym = 1#32 ↔ s.nsym.toNat = 1 := BitVec.toNat_inj.symm
  have hpos := h.nsym_pos
  obtain h1 | h2 : s.nsym.toNat = 1 ∨ 2 ≤ s.nsym.toNat := by omega
  · obtain ⟨hroot, sym, harena⟩ := h.single h1
    have hpaths : s.treePaths = [(BitVec.ofNat 9 sym, [false])] := by
      rw [State.treePaths, hroot, harena]
      rfl
    rw [if_pos (hone.mpr h1), hpaths, kraftSum, List.map_singleton, List.sum_singleton, List.length_singleton]
  · have m := h.merging h2
    have hsize := m.size
    have hlen := m.length_eq
    have hlast := m.last_eq
    rw [if_neg (by rw [hone]; omega)]
    exact m.kraftSum_leafPaths (by omega) (by omega) (by rw [List.length_nil]; omega)

/-- The walk lists every entry's symbol once (R162). -/
theorem State.Built.perm_entries : (s.treePaths.map fun e => e.1.toNat).Perm s.entries := by
  have hinj : ∀ e ∈ s.treePaths, ∀ e' ∈ s.treePaths, e.1.toNat = e'.1.toNat → e = e' := by
    rintro ⟨a, p⟩ hp ⟨b, q⟩ hq hab
    obtain rfl : a = b := BitVec.eq_of_toNat_eq hab
    rw [h.leafPath_unique (h.mem_treePaths_iff.mp hp) (h.mem_treePaths_iff.mp hq)]
  refine (List.perm_ext_iff_of_nodup ((nodup_leafPaths _ _ _ _).map_on hinj) s.nodup_entries).mpr fun sym => ?_
  rw [State.mem_entries, ← h.exists_leafPath_iff, List.mem_map]
  constructor
  · rintro ⟨⟨a, p⟩, hmem, rfl⟩
    exact ⟨p, h.mem_treePaths_iff.mp hmem⟩
  · rintro ⟨p, hp⟩
    have hsym : (BitVec.ofNat 9 sym).toNat = sym := by
      have := h.leafPath_sym_lt hp
      rw [BitVec.toNat_ofNat, Nat.mod_eq_of_lt (by omega)]
    exact ⟨(BitVec.ofNat 9 sym, p), h.mem_treePaths_iff.mpr (by rwa [hsym]), hsym⟩

end

/-- The sum over all symbols leaves out those without a code word. -/
theorem sum_ite_zero_eq_sum_filter (l : List Nat) (p : Nat → Prop) [DecidablePred p] (f : Nat → Nat) :
    (l.map fun k => if p k then 0 else f k).sum = ((l.filter fun k => ¬ p k).map f).sum := by
  induction l with
  | nil => rfl
  | cons k rest ih => by_cases hk : p k <;> simp [hk, ih]

/-- Settles O21: the code words are the leaves' paths, so their Kraft sum is the tree's. -/
theorem kraftSumIsFull : Obligations.KraftSumIsFull := by
  intro s h hp
  obtain ⟨hb, hc⟩ := h.built_codes hp
  have hentries : (List.range 257).filter (fun sym => ¬ s.codeLenAt sym = 0#9) = s.entries :=
    List.filter_congr fun sym _ => by
      rw [Bool.eq_iff_iff, decide_eq_true_iff, bne_iff_ne]
      exact hb.codeLenAt_ne_zero_iff hc
  rw [sum_ite_zero_eq_sum_filter, hentries, ← (hb.perm_entries.map _).sum_eq, List.map_map, ← hb.kraftSum_treePaths, kraftSum]
  refine congrArg List.sum (List.map_congr_left ?_)
  rintro ⟨a, p⟩ hmem
  rw [Function.comp_apply, (hb.codes_of_leafPath hc (hb.mem_treePaths_iff.mp hmem)).1]

end Sys2Proof.Machine
end

section
/-! The encoder (spec/44_encode.md R180 to R183): what ENCODE and ENCODE_END answer, the body a whole byte sequence sends, and how
little of the next state MATERIALIZE decides. -/

namespace Sys2Proof.Machine

/-! ### The code word of one symbol -/

theorem State.bitOut_produceCode_of_materialize {s : State} (hm : s.materialize = true) (sym : Nat) :
    (s.produceCode sym).bitOut = s.bitOut ++ s.codeWord sym := if_pos hm

theorem State.bitOut_produceCode_of_not_materialize {s : State} (hm : s.materialize = false) (sym : Nat) :
    (s.produceCode sym).bitOut = s.bitOut := if_neg (by simp [hm])

theorem State.toNat_bitCount_produceCode (s : State) (sym : Nat) :
    (s.produceCode sym).bitCount.toNat = (s.bitCount.toNat + (s.codeLenAt sym).toNat) % 2 ^ 64 := by
  rw [State.produceCode_bitCount, BitVec.toNat_add, BitVec.toNat_setWidth_of_le (by decide)]

theorem State.length_codeWord (s : State) (sym : Nat) : (s.codeWord sym).length = (s.codeLenAt sym).toNat := by
  rw [State.codeWord, List.length_map, List.length_range]

/-! ### ENCODE and ENCODE_END in CODES and ENCODING -/

section
variable {s : State} (hp : s.phase = .codes ∨ s.phase = .encoding)
include hp

theorem gated_of_codes {i : Instr} {body : Result} (hc : legalIn i .codes = true) (he : legalIn i .encoding = true) :
    gated i s body = body := by
  obtain hp | hp := hp
  · exact gated_legal (by simp [hp]) (hp ▸ hc)
  · exact gated_legal (by simp [hp]) (hp ▸ he)

theorem exec_encodeByte_of_coded {b : Byte} (hl : s.codeLenAt b.toNat ≠ 0#9) :
    exec (.encodeByte b) s = .next ((s.produceCode b.toNat).countSymbol.enter .encoding) :=
  (gated_of_codes hp rfl rfl).trans (if_neg hl)

theorem exec_encodeByte_of_absent {b : Byte} (hl : s.codeLenAt b.toNat = 0#9) :
    exec (.encodeByte b) s = .next (s.raise .inconsistentTable 0#16 (encode (.encodeByte b))) :=
  (gated_of_codes hp rfl rfl).trans (if_pos hl)

theorem exec_encodeEnd_of_codes : exec .encodeEnd s = .next ((s.produceCode 256).enter .encDone) :=
  gated_of_codes hp rfl rfl

end

/-- Settles O23: with a code word the next state is that of `produceCode`, and without one the error comes first. -/
theorem encodeSendsTheCodeWord : Obligations.EncodeSendsTheCodeWord := by
  intro s b
  refine ⟨fun hp hl => ?coded, fun hp hl => exec_encodeByte_of_absent hp (BitVec.eq_of_toNat_eq hl),
    fun hc hn he => exec_illegal he (by simp [legalIn, hc, hn])⟩
  case coded =>
    exact ⟨_, exec_encodeByte_of_coded hp fun h0 => hl (congrArg BitVec.toNat h0),
      fun hm => s.bitOut_produceCode_of_materialize hm _, fun hm => s.bitOut_produceCode_of_not_materialize hm _,
      s.toNat_bitCount_produceCode _, BitVec.toNat_add _ _, rfl, rfl⟩

/-- Settles O24: the next state is that of `produceCode` for PSEUDO_EOF, with no symbol counted. -/
theorem encodeEndSendsTheEofCodeWord : Obligations.EncodeEndSendsTheEofCodeWord := by
  intro s
  refine ⟨fun hp => ?_, fun hc hn he => exec_illegal he (by simp [legalIn, hc, hn])⟩
  exact ⟨_, exec_encodeEnd_of_codes hp,
    fun hm => s.bitOut_produceCode_of_materialize hm _, fun hm => s.bitOut_produceCode_of_not_materialize hm _,
    s.toNat_bitCount_produceCode _, rfl, rfl⟩

/-! ### A whole body -/

/-- The state a byte sequence with code words leaves once ENCODE_END has closed its body (R183). -/
def State.sendBody (str : List Byte) (s : State) : State :=
  { s with
    bitOut := if s.materialize then s.bitOut ++ s.body str else s.bitOut
    bitCount := s.bitCount + BitVec.ofNat 64 (s.body str).length
    symCount := s.symCount + BitVec.ofNat 32 str.length
    phase := .encDone }

theorem State.body_nil (s : State) : s.body [] = s.codeWord 256 := rfl

theorem State.body_cons (s : State) (b : Byte) (rest : List Byte) :
    s.body (b :: rest) = s.codeWord b.toNat ++ s.body rest := List.append_assoc ..

theorem State.length_body (s : State) (str : List Byte) :
    (s.body str).length = (str.map fun b => (s.codeLenAt b.toNat).toNat).sum + (s.codeLenAt 256).toNat := by
  simp only [State.body, List.length_append, List.length_flatMap, State.length_codeWord]

theorem State.ofNat_length_codeWord (s : State) (sym : Nat) :
    BitVec.ofNat 64 (s.codeWord sym).length = (s.codeLenAt sym).setWidth 64 := by
  rw [s.length_codeWord, BitVec.ofNat_toNat]

theorem State.sendBody_nil (s : State) : s.sendBody [] = (s.produceCode 256).enter .encDone := by
  simp only [State.sendBody, State.body_nil, State.ofNat_length_codeWord, List.length_nil, BitVec.add_zero]
  rfl

/-- A body's first code word goes out ahead of the rest; the code table stays what it was. -/
theorem State.sendBody_cons (s : State) (b : Byte) (rest : List Byte) :
    s.sendBody (b :: rest) = ((s.produceCode b.toNat).countSymbol.enter .encoding).sendBody rest := by
  have hbits : s.bitCount + BitVec.ofNat 64 (s.body (b :: rest)).length =
      (s.produceCode b.toNat).bitCount + BitVec.ofNat 64 (s.body rest).length := by
    rw [State.body_cons, List.length_append, BitVec.ofNat_add, State.ofNat_length_codeWord, ← BitVec.add_assoc]
    rfl
  have hsyms : s.symCount + BitVec.ofNat 32 (b :: rest).length = s.symCount + 1#32 + BitVec.ofNat 32 rest.length := by
    rw [List.length_cons, Nat.add_comm, BitVec.ofNat_add, ← BitVec.add_assoc]
  have hsent : (if s.materialize then s.bitOut ++ s.body (b :: rest) else s.bitOut) =
      if s.materialize then (s.produceCode b.toNat).bitOut ++ s.body rest else (s.produceCode b.toNat).bitOut := by
    cases hm : s.materialize with
    | true => simp [hm, State.body_cons]
    | false => simp [hm]
  rw [State.sendBody, hbits, hsyms, hsent]
  rfl

theorem execAll_encodeCommands {s : State} {str : List Byte} (hp : s.phase = .codes ∨ s.phase = .encoding)
    (hl : ∀ b ∈ str, s.codeLenAt b.toNat ≠ 0#9) : execAll (encodeCommands str) s = .next (s.sendBody str) := by
  induction str generalizing s with
  | nil => rw [s.sendBody_nil]; exact execAll_cons (exec_encodeEnd_of_codes hp) []
  | cons b rest ih =>
    rw [s.sendBody_cons]
    exact (execAll_cons (exec_encodeByte_of_coded hp (hl b List.mem_cons_self)) _).trans
      (ih (.inr rfl) fun c hc => hl c (List.mem_cons_of_mem b hc))

/-- Settles O26, by induction on the byte sequence. -/
theorem bodyIsTheCodeWordsInOrder : Obligations.BodyIsTheCodeWordsInOrder := by
  intro s str hp hl
  refine ⟨_, execAll_encodeCommands hp hl, rfl, ?_, rfl, fun hm => ?_, fun hm => if_neg (by simp [hm])⟩
  · rw [← s.length_body]; rfl
  · rw [List.append_assoc]; exact if_pos hm

/-! ### What MATERIALIZE decides -/

/-- CTRL bit 0 is at `m` instead (10_state.md R22). -/
def State.setMaterialize (m : Bool) (s : State) : State := { s with materialize := m }

/-- Two answers that differ in MATERIALIZE, which is `m` in the second one, and in BIT_OUT alone (R181). -/
inductive AgreeButSent (m : Bool) : Result → Result → Prop
  | next {t u : State} (h : u = { t with materialize := m, bitOut := u.bitOut }) : AgreeButSent m (.next t) (.next u)

theorem AgreeButSent.of_set {m : Bool} {t u : State} (h : u = t.setMaterialize m) : AgreeButSent m (.next t) (.next u) :=
  .next (by rw [h]; rfl)

theorem AgreeButSent.ite {m : Bool} {c : Prop} [Decidable c] {a b a' b' : Result} (ha : AgreeButSent m a a')
    (hb : AgreeButSent m b b') : AgreeButSent m (if c then a else b) (if c then a' else b') := by
  split
  · exact ha
  · exact hb

theorem AgreeButSent.raiseIn {m : Bool} {s : State} (i : Instr) (e : ErrCode) (d : BitVec 16) :
    AgreeButSent m (Machine.raiseIn i e d s) (Machine.raiseIn i e d (s.setMaterialize m)) := .of_set rfl

/-- The gate looks at PHASE alone. -/
theorem AgreeButSent.gated {m : Bool} {s : State} {i : Instr} {body body' : Result} (h : AgreeButSent m body body') :
    AgreeButSent m (gated i s body) (gated i (s.setMaterialize m) body') :=
  .ite (.of_set rfl) (.ite h (.raiseIn ..))

theorem State.recordCodes_setMaterialize (m : Bool) (s : State) (paths : List (Symbol × List Bool)) :
    (s.setMaterialize m).recordCodes paths = (s.recordCodes paths).setMaterialize m :=
  List.foldl_hom (State.setMaterialize m) fun _ _ => rfl

theorem State.arrive_setMaterialize (m : Bool) (s : State) (n : NodeIndex) :
    (s.setMaterialize m).arrive n = (s.arrive n).setMaterialize m := by
  have hn : (s.setMaterialize m).node n = s.node n := rfl
  rw [State.arrive, State.arrive, hn]
  cases (s.node n).kind with
  | internal => rfl
  | leaf => dsimp only; split <;> rfl

/-- No command's checks read MATERIALIZE or BIT_OUT, and `produceCode` alone writes by them. -/
theorem exec_setMaterialize (m : Bool) (s : State) (i : Instr) :
    AgreeButSent m (exec i s) (exec i (s.setMaterialize m)) := by
  cases i with
  | nop => exact .of_set rfl
  | clear => exact .of_set rfl
  | count b => exact .gated (.ite (.raiseIn ..) (.of_set rfl))
  | loadFreq sym =>
    exact .gated (.ite (.raiseIn ..) (.ite (.raiseIn ..) (.ite (.raiseIn ..) (.ite (.raiseIn ..)
      (.ite (.raiseIn ..) (.of_set rfl))))))
  | sealTable => exact .gated (.ite (.of_set rfl) (.of_set rfl))
  | buildTree => exact .gated (.of_set rfl)
  | buildCodes =>
    exact .gated (.of_set (congrArg (State.enter .codes) (s.recordCodes_setMaterialize m s.treePaths)))
  | encodeByte b => exact .gated (.ite (.raiseIn ..) (.next rfl))
  | encodeEnd => exact .gated (.next rfl)
  | decodeBit t => exact .gated (.ite (.of_set rfl) (.ite (.raiseIn ..) (.of_set (s.arrive_setMaterialize m _))))
  | decodeEnd => exact .gated (.ite (.of_set rfl) (.raiseIn ..))

/-- With MATERIALIZE at 0 no effect sends a bit. -/
theorem Effect.bitOut_eq {s t : State} {i : Instr} (h : Effect s i t) (hm : s.materialize = false) : t.bitOut = s.bitOut := by
  cases h with
  | buildCodes => rw [State.recordCodes_frame]; rfl
  | encodeByte b => exact s.bitOut_produceCode_of_not_materialize hm _
  | encodeEnd => exact s.bitOut_produceCode_of_not_materialize hm _
  | decodeBit b => rw [State.arrive_frame]
  | _ => rfl

/-- Settles O25: the two answers agree but in MATERIALIZE and BIT_OUT, and only `produceCode` appends to BIT_OUT. -/
theorem materializeDecidesOnlyWhatIsSent : Obligations.MaterializeDecidesOnlyWhatIsSent := by
  intro i s t ht
  have hagree := exec_setMaterialize (!s.materialize) s i
  obtain ⟨t', ht'⟩ := exec_next i (s.setMaterialize !s.materialize)
  rw [ht, ht'] at hagree
  obtain ⟨heq⟩ := hagree
  refine ⟨t', ht', heq, fun hm => ?_⟩
  obtain ⟨-, rfl⟩ | ⟨-, e, d, -, rfl⟩ | he := exec_cases ht
  · rfl
  · rfl
  · exact he.bitOut_eq hm

end Sys2Proof.Machine
end

section
/-! The decoder (spec/45_decode.md R200 to R205): what DECODE_BIT and DECODE_END answer, and what a walk down the
tree leaves, a code word's from ROOT among them. -/

namespace Sys2Proof.Machine

/-! ### DECODE_BIT and DECODE_END, phase by phase -/

theorem Phase.hasTree_of_mayDescend {p : Phase} (h : p.mayDescend = true) : p.hasTree = true := by
  revert h
  cases p <;> simp [Phase.mayDescend, Phase.hasTree]

/-- The two decoding commands are legal in the same phases; FILL, TABLE, ENCODING and ENC_DONE are not among them
(60_exceptions.md R244). -/
theorem exec_decode_of_illegal {i : Instr} {s : State} (hi : legalIn i = legalIn .decodeEnd)
    (hp : s.phase = .fill ∨ s.phase = .table ∨ s.phase = .encoding ∨ s.phase = .encDone) :
    exec i s = .next (s.raise .sequence (s.phase.code.setWidth 16) (encode i)) := by
  refine exec_illegal ?_ ?_
  · intro he
    simp [he] at hp
  · rw [hi]
    obtain hp | hp | hp | hp := hp <;> simp [legalIn, hp]

theorem exec_decodeBit_of_decDone {s : State} (hp : s.phase = .decDone) (t : Bool) : exec (.decodeBit t) s = .next s :=
  (gated_legal (by simp [hp]) (by simp [legalIn, hp])).trans (if_pos hp)

theorem exec_decodeEnd_of_decDone {s : State} (hp : s.phase = .decDone) : exec .decodeEnd s = .next s :=
  (gated_legal (by simp [hp]) (by simp [legalIn, hp])).trans (if_pos hp)

section
variable {s : State} (hp : s.phase.mayDescend = true)
include hp

/-- Where the decoder may descend, the decoding commands are legal and no body is complete yet. -/
theorem gated_of_mayDescend {i : Instr} {done body : Result} (hi : legalIn i = legalIn .decodeEnd) :
    gated i s (if s.phase = .decDone then done else body) = body := by
  have hcases : s.phase = .tree ∨ s.phase = .codes ∨ s.phase = .decoding := by simpa [Phase.mayDescend] using hp
  refine (gated_legal ?_ ?_).trans (if_neg ?_)
  · intro he
    simp [he] at hcases
  · rw [hi]
    obtain hp | hp | hp := hcases <;> simp [legalIn, hp]
  · intro he
    simp [he] at hcases

theorem exec_decodeBit_of_nil {t : Bool} (hn : s.branch t = Config.nil) :
    exec (.decodeBit t) s = .next (s.raise .corruptedStream 2#16 (encode (.decodeBit t))) :=
  (gated_of_mayDescend hp (i := .decodeBit t) rfl).trans (if_pos hn)

theorem exec_decodeBit_of_branch {t : Bool} (hn : s.branch t ≠ Config.nil) :
    exec (.decodeBit t) s = .next (s.arrive (s.branch t)) :=
  (gated_of_mayDescend hp (i := .decodeBit t) rfl).trans (if_neg hn)

theorem exec_decodeEnd_of_mayDescend :
    exec .decodeEnd s = .next (s.raise .corruptedStream 1#16 0x0A000000#32) :=
  gated_of_mayDescend hp rfl

end

/-- Settles O28: DEC_DONE is the only phase in which the body is complete. -/
theorem decodeEndDetectsExhaustion : Obligations.DecodeEndDetectsExhaustion := fun _ =>
  ⟨exec_decodeEnd_of_decDone, exec_decodeEnd_of_mayDescend, exec_decode_of_illegal rfl⟩

/-! ### The walk's arrival at a node -/

/-- The state after `n` more bits have led the walk to node `i`, in phase `p`. -/
def State.walk (n : Nat) (i : NodeIndex) (p : Phase) (s : State) : State :=
  { s with bitCount := s.bitCount + BitVec.ofNat 64 n, cur := i, phase := p }

/-- The state after `n` more bits have led the walk to the leaf of the byte `b`: the byte is sent, and CUR is ROOT again. -/
def State.decodeByte (b : Byte) (n : Nat) (s : State) : State :=
  { s with
    bitCount := s.bitCount + BitVec.ofNat 64 n
    byteOut := s.byteOut ++ [b]
    symCount := s.symCount + 1#32
    cur := s.root
    phase := .decoding }

section
variable {s : State} {n : NodeIndex}

theorem State.arrive_of_internal (hk : (s.node n).kind = .internal) : s.arrive n = s.walk 1 n .decoding := by
  rw [State.arrive]
  simp only [hk]
  rfl

theorem State.arrive_of_eof (hk : (s.node n).kind = .leaf) (hs : (s.node n).sym = Config.pseudoEof) :
    s.arrive n = s.walk 1 n .decDone := by
  rw [State.arrive]
  simp only [hk, hs, if_true]
  rfl

theorem State.arrive_of_byte {b : Byte} (hk : (s.node n).kind = .leaf) (hs : (s.node n).sym.toNat = b.toNat) :
    s.arrive n = s.decodeByte b 1 := by
  have hne : (s.node n).sym ≠ Config.pseudoEof := by
    intro he
    rw [he, BitVec.toNat_ofNat] at hs
    omega
  have hb : (s.node n).sym.setWidth 8 = b := by
    apply BitVec.eq_of_toNat_eq
    rw [BitVec.toNat_setWidth, hs, Nat.mod_eq_of_lt b.isLt]
  rw [State.arrive, hb]
  simp only [hk, if_neg hne, State.enter, State.moveTo, State.countSymbol, State.emitByte, State.consumeBit,
    State.decodeByte]

end

/-- A walk goes on from where another one ended. -/
theorem State.walk_walk (s : State) (m n : Nat) (i j : NodeIndex) (p q : Phase) :
    (s.walk m i p).walk n j q = s.walk (m + n) j q := by
  simp only [State.walk, BitVec.ofNat_add, BitVec.add_assoc]

theorem State.decodeByte_walk (s : State) (b : Byte) (m n : Nat) (i : NodeIndex) (p : Phase) :
    (s.walk m i p).decodeByte b n = s.decodeByte b (m + n) := by
  simp only [State.decodeByte, State.walk, BitVec.ofNat_add, BitVec.add_assoc]

/-- DECODE_BIT's word, its bit written out. -/
theorem encode_decodeBit (t : Bool) : encode (.decodeBit t) = 0x09000000#32 ||| (if t then 1#32 else 0#32) := by
  cases t <;> rfl

/-- Settles O27: the branch is NIL or a node, and the node one of R201's three kinds. -/
theorem decodeBitWalksOneStep : Obligations.DecodeBitWalksOneStep := by
  intro s t
  rw [← encode_decodeBit]
  refine ⟨fun hp hn => exec_decodeBit_of_nil hp hn, fun hp hn hk => ?_, fun hp hn hk hs => ?_, fun b hp hn hk hs => ?_,
    fun hp => exec_decodeBit_of_decDone hp t, exec_decode_of_illegal rfl⟩ <;>
    refine (exec_decodeBit_of_branch hp hn).trans (congrArg _ ?_)
  · exact State.arrive_of_internal hk
  · exact State.arrive_of_eof hk hs
  · exact State.arrive_of_byte hk hs

/-! ### A walk of several bits -/

theorem decodeCommands_append (l l' : List Bool) : decodeCommands (l ++ l') = decodeCommands l ++ decodeCommands l' :=
  List.map_append

section
variable {s : State} (hp : s.phase.mayDescend = true) {path : List Bool} {t : Bool} {j : NodeIndex}
include hp

theorem exec_decodeBit_of_descend (hd : descend s.nodes [t] s.cur = some j) :
    exec (.decodeBit t) s = .next (s.arrive j) := by
  obtain ⟨-, hn, rfl⟩ := descend_singleton_iff.mp hd
  exact exec_decodeBit_of_branch hp hn

/-- The bits that lead to an internal node leave CUR there, all of them counted. -/
theorem execAll_decodeCommands_of_internal (hd : descend s.nodes path s.cur = some j) (hj : (s.node j).kind = .internal) :
    ∃ p : Phase, p.mayDescend = true ∧ execAll (decodeCommands path) s = .next (s.walk path.length j p) := by
  induction path using List.reverseRecOn generalizing j with
  | nil =>
    cases hd
    exact ⟨s.phase, hp, by simp [State.walk, decodeCommands, execAll]⟩
  | append_singleton path t ih =>
    obtain ⟨k, hk, hstep⟩ := exists_descend_init hd
    obtain ⟨p, hp', hrun⟩ := ih hk (descend_singleton_iff.mp hstep).1
    refine ⟨.decoding, rfl, ?_⟩
    rw [decodeCommands_append, execAll_append hrun, List.length_append, List.length_singleton, ← s.walk_walk _ _ k j p,
      ← State.arrive_of_internal (s := s.walk path.length k p) hj]
    exact execAll_cons (exec_decodeBit_of_descend (s := s.walk path.length k p) hp' hstep) []

/-- The last bit of a walk arrives from the internal node to which the bits before it lead. -/
theorem execAll_decodeCommands_concat (hd : descend s.nodes (path ++ [t]) s.cur = some j) :
    ∃ k p, execAll (decodeCommands (path ++ [t])) s = .next ((s.walk path.length k p).arrive j) := by
  obtain ⟨k, hk, hstep⟩ := exists_descend_init hd
  obtain ⟨p, hp', hrun⟩ := execAll_decodeCommands_of_internal hp hk (descend_singleton_iff.mp hstep).1
  refine ⟨k, p, ?_⟩
  rw [decodeCommands_append, execAll_append hrun]
  exact execAll_cons (exec_decodeBit_of_descend (s := s.walk path.length k p) hp' hstep) []

end

/-! ### Code words, from ROOT -/

/-- The decoder stands at ROOT, which is no leaf. -/
structure State.AtRoot (s : State) : Prop where
  phase : s.phase.mayDescend = true
  cur : s.cur = s.root
  root_kind : (s.node s.root).kind = .internal

theorem State.Built.atRoot {s : State} (h : s.Built) (hp : s.phase.mayDescend = true) (hc : s.cur = s.root) : s.AtRoot :=
  ⟨hp, hc, h.isTree.root_kind⟩

section
variable {s : State} (h : s.AtRoot)
include h

/-- After a byte the decoder stands at ROOT again. -/
theorem State.AtRoot.decodeByte (b : Byte) (n : Nat) : (s.decodeByte b n).AtRoot := ⟨rfl, rfl, h.root_kind⟩

/-- All bits but the last of a leaf's path are walked; the last one arrives at the leaf. -/
theorem State.AtRoot.execAll_leafPath {sym : Nat} {path : List Bool} (hl : s.LeafPath sym path) :
    ∃ i k p, (s.node i).kind = .leaf ∧ (s.node i).sym.toNat = sym ∧ 1 ≤ path.length ∧
      execAll (decodeCommands path) s = .next ((s.walk (path.length - 1) k p).arrive i) := by
  obtain ⟨i, hi, hleaf, hsym⟩ := hl
  cases path using List.reverseRecOn with
  | nil =>
    cases hi
    exact absurd (h.root_kind.symm.trans hleaf) (by decide)
  | append_singleton path t =>
    obtain ⟨k, p, hrun⟩ := execAll_decodeCommands_concat h.phase (h.cur.symm ▸ hi)
    rw [List.length_append, List.length_singleton, Nat.add_sub_cancel]
    exact ⟨i, k, p, hleaf, hsym, by omega, hrun⟩

theorem State.AtRoot.execAll_byte {b : Byte} {path : List Bool} (hl : s.LeafPath b.toNat path) :
    execAll (decodeCommands path) s = .next (s.decodeByte b path.length) := by
  obtain ⟨i, k, p, hleaf, hsym, hpos, hrun⟩ := h.execAll_leafPath hl
  rw [hrun, State.arrive_of_byte (s := s.walk _ k p) hleaf hsym, State.decodeByte_walk, Nat.sub_add_cancel hpos]

theorem State.AtRoot.execAll_eof {path : List Bool} (hl : s.LeafPath 256 path) :
    ∃ i, execAll (decodeCommands path) s = .next (s.walk path.length i .decDone) := by
  obtain ⟨i, k, p, hleaf, hsym, hpos, hrun⟩ := h.execAll_leafPath hl
  refine ⟨i, ?_⟩
  rw [hrun, State.arrive_of_eof (s := s.walk _ k p) hleaf (BitVec.eq_of_toNat_eq hsym), State.walk_walk,
    Nat.sub_add_cancel hpos]

/-- A proper part of a leaf's path ends at an internal node. -/
theorem State.AtRoot.execAll_part {sym : Nat} {part rest : List Bool} (hl : s.LeafPath sym (part ++ rest)) (hr : rest ≠ []) :
    ∃ v, execAll (decodeCommands part) s = .next v ∧ v.phase.mayDescend = true := by
  obtain ⟨i, hi, -, -⟩ := hl
  rw [descend_append, Option.bind_eq_some_iff] at hi
  obtain ⟨k, hk, hrest⟩ := hi
  have hint : (s.node k).kind = .internal := by
    cases hkind : (s.node k).kind with
    | internal => rfl
    | leaf => exact absurd (descend_leaf hkind hrest) hr
  obtain ⟨p, hp, hrun⟩ := execAll_decodeCommands_of_internal h.phase (h.cur.symm ▸ hk) hint
  exact ⟨_, hrun, hp⟩

end

/-- Settles O29: the code word is the path from ROOT to the byte's leaf. -/
theorem codeWordDecodesToItsByte : Obligations.CodeWordDecodesToItsByte := by
  intro s b h hp hc hcur hl
  have hb := h.built_of_hasTree (Phase.hasTree_of_mayDescend hp)
  rw [(hb.atRoot hp hcur).execAll_byte (hb.leafPath_codeWord hc hl), ← s.ofNat_length_codeWord, State.decodeByte, ← hcur]

end Sys2Proof.Machine
end

section
/-! The round trip (spec/45_decode.md R204, R206): how the body of a byte sequence, or a part of it, decodes in a session that
holds the same table. -/

namespace Sys2Proof.Machine

/-! ### Bodies -/

/-- The state after a body of `n` bits has been decoded to `str`, CUR being the PSEUDO_EOF leaf `i`. -/
def State.decodeBody (str : List Byte) (n : Nat) (i : NodeIndex) (s : State) : State :=
  { s with
    bitCount := s.bitCount + BitVec.ofNat 64 n
    byteOut := s.byteOut ++ str
    symCount := s.symCount + BitVec.ofNat 32 str.length
    cur := i
    phase := .decDone }

theorem State.decodeBody_nil (s : State) (n : Nat) (i : NodeIndex) : s.decodeBody [] n i = s.walk n i .decDone := by
  simp [State.decodeBody, State.walk]

/-- The first byte is decoded ahead of the rest. -/
theorem State.decodeBody_cons (s : State) (b : Byte) (rest : List Byte) (m n : Nat) (i : NodeIndex) :
    s.decodeBody (b :: rest) (m + n) i = (s.decodeByte b m).decodeBody rest n i := by
  simp only [State.decodeBody, State.decodeByte, BitVec.ofNat_add, BitVec.add_assoc, List.append_assoc, List.singleton_append,
    List.length_cons, Nat.add_comm rest.length 1]

/-- The code words of `s` that a body of `str` is made of lead to the same symbols' leaves in the tree of `u`. -/
structure State.BodyPaths (s u : State) (str : List Byte) : Prop where
  byte : ∀ b ∈ str, u.LeafPath b.toNat (s.codeWord b.toNat)
  eof : u.LeafPath 256 (s.codeWord 256)

theorem State.BodyPaths.tail {s u : State} {b : Byte} {rest : List Byte} (h : s.BodyPaths u (b :: rest)) (n : Nat) :
    s.BodyPaths (u.decodeByte b n) rest := ⟨fun c hc => h.byte c (List.mem_cons_of_mem b hc), h.eof⟩

/-- A body decodes code word by code word, PSEUDO_EOF's being the last (R204). -/
theorem State.AtRoot.execAll_body {s u : State} {str : List Byte} (h : u.AtRoot) (hb : s.BodyPaths u str) :
    ∃ i, execAll (decodeCommands (s.body str)) u = .next (u.decodeBody str (s.body str).length i) := by
  induction str generalizing u with
  | nil =>
    obtain ⟨i, hrun⟩ := h.execAll_eof hb.eof
    exact ⟨i, by rw [State.body_nil, hrun, State.decodeBody_nil]⟩
  | cons b rest ih =>
    obtain ⟨i, hrun⟩ := ih (h.decodeByte b _) (hb.tail (s.codeWord b.toNat).length)
    refine ⟨i, ?_⟩
    rw [State.body_cons, decodeCommands_append, execAll_append (h.execAll_byte (hb.byte b List.mem_cons_self)), hrun,
      List.length_append, State.decodeBody_cons]

/-- A proper part of a body ends inside a code word or at ROOT before one, so PSEUDO_EOF's leaf is not reached (R206). -/
theorem State.AtRoot.execAll_body_part {s u : State} {str : List Byte} {part rest : List Bool} (h : u.AtRoot)
    (hb : s.BodyPaths u str) (hbody : part ++ rest = s.body str) (hr : rest ≠ []) :
    ∃ v, execAll (decodeCommands part) u = .next v ∧ v.phase.mayDescend = true := by
  induction str generalizing u part with
  | nil => exact h.execAll_part (hbody.trans s.body_nil ▸ hb.eof) hr
  | cons b bytes ih =>
    have hbyte := hb.byte b List.mem_cons_self
    rw [State.body_cons] at hbody
    obtain ⟨more, hword, -⟩ | ⟨part', rfl, hrest⟩ := List.append_eq_append_iff.mp hbody
    · by_cases hm : more = []
      · rw [hm, List.append_nil] at hword
        rw [← hword]
        exact ⟨_, h.execAll_byte hbyte, rfl⟩
      · exact h.execAll_part (hword ▸ hbyte) hm
    · obtain ⟨v, hrun, hv⟩ := ih (h.decodeByte b _) (hb.tail (s.codeWord b.toNat).length) hrest.symm
      exact ⟨v, by rw [decodeCommands_append, execAll_append (h.execAll_byte hbyte), hrun], hv⟩

/-! ### From one session to another -/

/-- The same frequency table gives the same tree, whatever the COUNT_WIDTHs (spec/42_tree_builder.md R147). -/
theorem State.Built.tree_eq {s u : State} (hs : s.Built) (hu : u.Built) (hf : u.freq = s.freq) :
    u.nodes = s.nodes ∧ u.root = s.root := by
  have htotal := (hs.count.counters_eq hu.count hf).1
  have harena := hs.count.buildArena_width hu.count.width.2 (htotal ▸ hu.count.total_le_cmax)
  have hnodes : u.nodes = s.nodes := by rw [hu.nodes, hs.nodes, harena, hf]
  exact ⟨hnodes, by rw [hu.root, hs.root, hnodes]⟩

section
variable {s u : State} {str : List Byte} (hs : s.Inv) (hcodes : s.phase = .codes)
  (hstr : ∀ b ∈ str, s.freqAt b.toNat ≠ 0#32)
include hs hcodes hstr

/-- In CODES, a session sends the body of a byte sequence of its table's symbols. -/
theorem State.Inv.execAll_encodeCommands : execAll (encodeCommands str) s = .next (s.sendBody str) := by
  obtain ⟨hb, hc⟩ := hs.built_codes (.inl (by simp [hcodes, Phase.hasCodes]))
  exact Machine.execAll_encodeCommands (.inl hcodes) fun b hmem => (hb.codeLenAt_ne_zero_iff hc).mpr (hstr b hmem)

theorem State.Inv.bodyPaths (hu : u.Built) (hf : u.freq = s.freq) : s.BodyPaths u str := by
  obtain ⟨hb, hc⟩ := hs.built_codes (.inl (by simp [hcodes, Phase.hasCodes]))
  obtain ⟨hnodes, hroot⟩ := hb.tree_eq hu hf
  have hpath : ∀ sym, s.freqAt sym ≠ 0#32 → u.LeafPath sym (s.codeWord sym) := by
    intro sym hne
    have hl := hb.leafPath_codeWord hc ((hb.codeLenAt_ne_zero_iff hc).mpr hne)
    simpa only [State.LeafPath, State.node, hnodes, hroot] using hl
  exact ⟨fun b hmem => hpath _ (hstr b hmem), hpath 256 (by simp [hb.eof])⟩

end

/-- In TREE or CODES, a session at ROOT is ready to decode. -/
theorem State.Inv.ready {u : State} (h : u.Inv) (hp : u.phase = .tree ∨ u.phase = .codes) (hc : u.cur = u.root) :
    u.Built ∧ u.AtRoot := by
  have hmay : u.phase.mayDescend = true := by obtain hp | hp := hp <;> simp [hp, Phase.mayDescend]
  have hb := h.built_of_hasTree (Phase.hasTree_of_mayDescend hmay)
  exact ⟨hb, hb.atRoot hmay hc⟩

/-- Settles O30: the body's code words are paths in the other session's tree too, which is the same. -/
theorem encodedBodyDecodesBack : Obligations.EncodedBodyDecodesBack := by
  intro s u str hs hcodes hm hstr hu hp hcur hf
  obtain ⟨hb, hroot⟩ := hu.ready hp hcur
  obtain ⟨i, hrun⟩ := hroot.execAll_body (hs.bodyPaths hcodes hstr hb hf)
  exact ⟨_, s.body str, _, hs.execAll_encodeCommands hcodes hstr, rfl, if_pos hm, hrun, rfl, rfl, rfl, rfl,
    exec_decodeEnd_of_decDone rfl⟩

/-- Settles O31: a proper part of the body leaves the decoder before DEC_DONE, where DECODE_END finds the stream exhausted. -/
theorem truncationIsDetected : Obligations.TruncationIsDetected := by
  intro s t u str part rest hs hcodes hm hstr ht hout hr hu hp hcur hf
  rw [hs.execAll_encodeCommands hcodes hstr] at ht
  cases ht
  have hbody : part ++ rest = s.body str := (List.append_cancel_left ((if_pos hm).symm.trans hout)).symm
  obtain ⟨hb, hroot⟩ := hu.ready hp hcur
  obtain ⟨v, hrun, hv⟩ := hroot.execAll_body_part (hs.bodyPaths hcodes hstr hb hf) hbody hr
  exact ⟨_, (execAll_append hrun _).trans (execAll_cons (exec_decodeEnd_of_mayDescend hv) []), rfl, rfl, rfl, rfl⟩

end Sys2Proof.Machine
end

section
/-! The control commands (spec/46_control.md R220, R221), and the offsets at which the host reads CTRL, ARG and PARAMS
(spec/20_memory.md R71). -/

namespace Sys2Proof.Machine

/-! ### The commands -/

@[simp] theorem exec_nop (s : State) : exec .nop s = .next s := rfl

@[simp] theorem exec_clear (s : State) : exec .clear s = .next s.cleared := rfl

/-! ### CTRL, ARG and PARAMS -/

theorem State.readWord_arg (s : State) : s.readWord 0x0010#16 = s.arg := rfl

theorem State.readWord_params (s : State) : s.readWord 0x003C#16 = s.countWidth.setWidth 32 := rfl

/-- What CTRL, ARG and PARAMS hold, for whatever values, shows at their own offsets alone. -/
theorem State.readRegister_frame_ctrl_arg_params (s : State) (m : Bool) (v : Word) (w : BitVec 6) {n : Nat}
    (hctrl : n ≠ 0x0004) (harg : n ≠ 0x0010) (hparams : n ≠ 0x003C) :
    { s with materialize := m, arg := v, countWidth := w }.readRegister n = s.readRegister n := by
  unfold State.readRegister
  split
  case h_2 => exact absurd rfl hctrl
  case h_5 => exact absurd rfl harg
  case h_16 => exact absurd rfl hparams
  all_goals rfl

/-- The windows show the tables, so only the registers' own offsets are at stake. -/
theorem State.readWord_frame_ctrl_arg_params (s : State) (m : Bool) (v : Word) (w : BitVec 6) {a : Addr}
    (hctrl : a ≠ 0x0004#16) (harg : a ≠ 0x0010#16) (hparams : a ≠ 0x003C#16) :
    { s with materialize := m, arg := v, countWidth := w }.readWord a = s.readWord a := by
  by_cases h : a.toNat < 0x1000
  · have away {b : Addr} (hb : a ≠ b) : a.toNat ≠ b.toNat := mt BitVec.eq_of_toNat_eq hb
    rw [State.readWord_register _ h, State.readWord_register _ h]
    exact s.readRegister_frame_ctrl_arg_params m v w (away hctrl) (away harg) (away hparams)
  · exact (if_neg h).trans (if_neg h).symm

/-! ### The two statements -/

/-- Settles O32: NOP's next state is the state itself. -/
theorem nopChangesNothing : Obligations.NopChangesNothing := exec_nop

/-- Settles O33: a cleared state is the reset state but for CTRL, ARG and PARAMS, the traces and the host's side, and the last
two are not read. -/
theorem clearStartsANewSession : Obligations.ClearStartsANewSession := by
  intro s
  refine ⟨s.cleared, exec_clear s, ?_, ?_, rfl, rfl, rfl, rfl, rfl, rfl⟩
  · intro a hctrl harg hparams
    exact State.reset.readWord_frame_ctrl_arg_params s.materialize s.arg s.countWidth hctrl harg hparams
  · rintro a (rfl | rfl | rfl)
    · exact s.cleared.readWord_ctrl.trans s.readWord_ctrl.symm
    · rw [State.readWord_arg, State.readWord_arg, State.cleared_arg]
    · rw [State.readWord_params, State.readWord_params, State.cleared_countWidth]

end Sys2Proof.Machine
end

section
/-! Errors (spec/60_exceptions.md R240 to R249): what error entry writes, what ERROR lets through, and in which phases a command
raises SEQUENCE. -/

namespace Sys2Proof.Machine

/-! ### What the host reads after error entry -/

theorem State.readWord_status (s : State) : s.readWord 0x0008#16 = s.status := rfl

/-- What error entry writes shows at STATUS, ERRCMD and ERRDETAIL alone. -/
theorem State.readRegister_raise (s : State) (e : ErrCode) (detail : BitVec 16) (cmd : Word) {n : Nat}
    (hstatus : n ≠ 0x0008) (hdetail : n ≠ 0x0018) (hcmd : n ≠ 0x0014) :
    (s.raise e detail cmd).readRegister n = s.readRegister n := by
  unfold State.readRegister
  split
  case h_3 => exact absurd rfl hstatus
  case h_6 => exact absurd rfl hcmd
  case h_7 => exact absurd rfl hdetail
  all_goals rfl

/-- The windows show the tables, which error entry leaves alone. -/
theorem State.readWord_raise (s : State) (e : ErrCode) (detail : BitVec 16) (cmd : Word) {a : Addr}
    (hstatus : a ≠ 0x0008#16) (hdetail : a ≠ 0x0018#16) (hcmd : a ≠ 0x0014#16) :
    (s.raise e detail cmd).readWord a = s.readWord a := by
  by_cases h : a.toNat < 0x1000
  · have away {b : Addr} (hb : a ≠ b) : a.toNat ≠ b.toNat := mt BitVec.eq_of_toNat_eq hb
    rw [State.readWord_register _ h, State.readWord_register _ h]
    exact s.readRegister_raise e detail cmd (away hstatus) (away hdetail) (away hcmd)
  · exact (if_neg h).trans (if_neg h).symm

/-- Settles O34: STATUS field by field, and every other offset shows what error entry leaves alone. -/
theorem errorEntryWritesFourFields : Obligations.ErrorEntryWritesFourFields := by
  intro s e detail cmd t
  refine ⟨?_, ?_, rfl, rfl, fun a => s.readWord_raise e detail cmd, rfl⟩
  · rw [t.readWord_status, t.status_err]; rfl
  · rw [t.readWord_status, t.status_phase]; rfl

/-! ### Which command enters ERROR -/

/-- No command's effect enters ERROR; only error entry does. -/
theorem Effect.phase_ne_error {s t : State} {i : Instr} (h : Effect s i t) (hs : s.phase ≠ .error) :
    t.phase ≠ .error := by
  cases h with
  | nop => exact hs
  | count => exact hs
  | loadFreq => exact hs
  | decodeIgnored => exact hs
  | decodeEnd => exact hs
  | decodeBit b =>
    obtain ⟨-, h⟩ | ⟨-, -, h⟩ | ⟨-, -, h⟩ := s.arrive_cases (s.branch b) <;> simp [h]
  | _ => simp

/-- Settles O35: a word that leads into ERROR has raised its error. -/
theorem errorsArePrecise : Obligations.ErrorsArePrecise := by
  intro w s t hs h ht
  obtain ⟨he, -⟩ | ⟨-, e, d, hne, rfl⟩ | ⟨i, -, he⟩ := command_effects h
  · exact absurd he hs
  · exact ⟨rfl, rfl, hne⟩
  · exact absurd ht (he.phase_ne_error hs)

/-! ### In ERROR -/

theorem exec_of_error {i : Instr} {s : State} (h : s.phase = .error) (hi : i ≠ .clear) : exec i s = .next s := by
  cases i with
  | nop => rfl
  | clear => exact absurd rfl hi
  | _ => exact gated_error h

/-- In ERROR a word other than CLEAR's is ignored, whether it decodes or not. -/
theorem command_of_error {w : Word} {s : State} (h : s.phase = .error) (hw : w ≠ encode .clear) :
    command w s = .next s := by
  cases hd : decode w with
  | ok i =>
    rw [command_of_decode hd]
    exact exec_of_error h fun hi => hw (hi ▸ encode_of_decode hd).symm
  | error r => simp only [command, hd, if_pos h]

theorem command_clear (s : State) : command (encode .clear) s = .next s.cleared :=
  command_of_decode (decode_encode .clear) s

/-- Settles O36: the gate ignores every command but CLEAR, and the bus does not ask for the phase. -/
theorem errorIgnoresAllButClear : Obligations.ErrorIgnoresAllButClear := fun s h =>
  ⟨fun _ => command_of_error h, fun _ ha => access_read_ok ⟨rfl, ha⟩ s, fun v => access_write_ok (by decide) v s,
    fun v => access_write_ok (by decide) v s⟩

/-- Settles O37: of what a step can be, only reset and CLEAR's word write PHASE in ERROR. -/
theorem onlyClearAndResetLeaveError : Obligations.OnlyClearAndResetLeaveError := by
  intro s t hs h ht
  cases stepCase h with
  | reset hr => exact ⟨rfl, .inl hr⟩
  | answer => exact absurd hs ht
  | writeCtrl => exact absurd hs ht
  | writeArg => exact absurd hs ht
  | writeCmd w rest _ hp hc =>
    by_cases hw : w = encode .clear
    · subst hw
      cases (command_clear _).symm.trans hc
      exact ⟨rfl, .inr ⟨rest, hp⟩⟩
    · have he : ((s.taking rest).respond .writeDone).phase = .error := hs
      cases (command_of_error he hw).symm.trans hc
      exact absurd he ht

/-! ### Where SEQUENCE is raised -/

/-- The answer `r` to a command in state `s` does not raise SEQUENCE: no state it leads to has newly got that error. -/
def RaisesNoSequence (s : State) (r : Result) : Prop := ∀ t, r = .next t → t.err = .sequence → s.err = .sequence

theorem RaisesNoSequence.next {s t : State} (h : t.err = .sequence → s.err = .sequence) :
    RaisesNoSequence s (.next t) := by
  rintro _ ⟨⟩
  exact h

theorem RaisesNoSequence.raiseIn {s : State} {i : Instr} {e : ErrCode} {d : BitVec 16}
    (he : e ≠ .sequence := by decide) : RaisesNoSequence s (raiseIn i e d s) :=
  .next fun h => absurd h he

theorem RaisesNoSequence.ite {s : State} {c : Prop} [Decidable c] {a b : Result} (ha : RaisesNoSequence s a)
    (hb : RaisesNoSequence s b) : RaisesNoSequence s (if c then a else b) := by
  split
  · exact ha
  · exact hb

/-- The gate raises SEQUENCE only where the command is not legal. -/
theorem RaisesNoSequence.gated {s : State} {i : Instr} {body : Result} (hl : legalIn i s.phase = true)
    (hb : RaisesNoSequence s body) : RaisesNoSequence s (gated i s body) := by
  rw [Machine.gated, if_pos hl]
  exact .ite (.next id) hb

/-- No command's own rule raises SEQUENCE. -/
theorem exec_raisesNoSequence {i : Instr} {s : State} (hl : legalIn i s.phase = true) :
    RaisesNoSequence s (exec i s) := by
  cases i with
  | nop => exact .next id
  | clear => exact .next nofun
  | count b => exact .gated hl (.ite .raiseIn (.next id))
  | loadFreq sym => exact .gated hl (.ite .raiseIn (.ite .raiseIn (.ite .raiseIn (.ite .raiseIn (.ite .raiseIn (.next id))))))
  | sealTable => exact .gated hl (.ite (.next id) (.next id))
  | buildTree => exact .gated hl (.next id)
  | buildCodes => exact .gated hl (.next (by rw [State.recordCodes_frame]; exact id))
  | encodeByte b => exact .gated hl (.ite .raiseIn (.next id))
  | encodeEnd => exact .gated hl (.next id)
  | decodeBit b => exact .gated hl (.ite (.next id) (.ite .raiseIn (.next (by rw [State.arrive_frame]; exact id))))
  | decodeEnd => exact .gated hl (.ite (.next id) .raiseIn)

/-- Settles O38: the table, written out by phases, is `legalIn`; the gate raises SEQUENCE outside it and no command does so
inside it. -/
theorem legalityTable : Obligations.LegalityTable := by
  intro i s phases
  refine ⟨fun he hn => exec_illegal he ?_, fun hm => exec_raisesNoSequence ?_, fun he => ?_⟩
  · cases i with
    | nop | clear => cases hp : s.phase <;> simp_all [phases, Instr.mnemonic]
    | _ => simpa [phases, legalIn, Instr.mnemonic] using hn
  · cases i with
    | nop | clear => rfl
    | _ => simpa [phases, legalIn, Instr.mnemonic] using hm
  · cases i with
    | clear => rfl
    | _ => exact exec_of_error he (by simp)

end Sys2Proof.Machine
end

section
/-! Reset and the answer to every step (spec/70_reset_and_hazards.md R270, R281): a step is a reset, an idle block or the host's
next access, and each of these answers a next state. -/

namespace Sys2Proof.Machine

/-! ### A step under reset, and an idle step -/

theorem step_reset {s : State} (hr : s.resetIn.head? = some true) : step s = .next s.underReset := if_pos hr

theorem step_idle {s : State} (hr : s.resetIn.head? ≠ some true) (hp : s.pending = []) : step s = .next (s.taking []) := by
  simp only [step, busStep, hr, hp, if_false]

/-! ### No step stops -/

theorem command_next (w : Word) (s : State) : ∃ t, command w s = .next t := by
  cases hd : decode w with
  | ok i =>
    rw [command_of_decode hd]
    exact exec_next i s
  | error r =>
    simp only [command, hd]
    split
    · exact ⟨s, rfl⟩
    · exact ⟨s.raise .illegalCommand r.reason w, rfl⟩

theorem writeWord_next (a : Addr) (v : Word) (s : State) : ∃ t, writeWord a v s = .next t := by
  unfold writeWord
  split
  · exact ⟨_, rfl⟩
  split
  · exact ⟨_, rfl⟩
  split
  · exact command_next v s
  · exact ⟨s, rfl⟩

theorem access_next (x : BusAccess) (s : State) : ∃ t, access x s = .next t := by
  cases x with
  | read a size =>
    by_cases h : size = 4 ∧ a.toNat % 4 = 0
    · exact ⟨_, access_read_ok h s⟩
    · exact ⟨_, access_read_busError h s⟩
  | write a size v =>
    by_cases h : size = 4 ∧ a.toNat % 4 = 0
    · rw [access_write_ok h]
      exact writeWord_next a v _
    · exact ⟨_, access_write_busError h v s⟩

/-- Settles O43: reset and an idle block have their next states, and every access has one because every command has. -/
theorem everyStepAnswersANextState : Obligations.EveryStepAnswersANextState := by
  intro s
  by_cases hr : s.resetIn.head? = some true
  · exact ⟨_, step_reset hr⟩
  cases hp : s.pending with
  | nil => exact ⟨_, step_idle hr hp⟩
  | cons x rest =>
    rw [step_access hr hp]
    exact access_next x _

/-! ### What the host reads while reset is asserted -/

/-- Reset keeps COUNT_WIDTH, a parameter of the block, and PARAMS alone shows it. -/
theorem State.readWord_underReset (s : State) {a : Addr} (hparams : a ≠ 0x003C#16) :
    s.underReset.readWord a = State.reset.readWord a := by
  by_cases hctrl : a = 0x0004#16
  · rw [hctrl]
    exact s.underReset.readWord_ctrl.trans State.reset.readWord_ctrl.symm
  by_cases harg : a = 0x0010#16
  · rw [harg]
    exact s.underReset.readWord_arg.trans State.reset.readWord_arg.symm
  · exact State.reset.readWord_frame_ctrl_arg_params s.underReset.materialize s.underReset.arg s.countWidth hctrl harg hparams

/-- Settles O47: the step goes to `underReset`, which differs from the reset state, as the host reads it, in PARAMS alone. -/
theorem resetGivesTheResetState : Obligations.ResetGivesTheResetState := by
  intro s hr
  refine ⟨s.underReset, step_reset hr, s.underReset_pending, fun a => s.readWord_underReset, ?_, rfl, rfl⟩
  rw [State.readWord_params, State.readWord_params, State.underReset_countWidth]

end Sys2Proof.Machine
end
